-- ==== Sys2Proof/Word.lean ====
section
/-! DEFINITION. The word types of the engine: the widths spec/00_scope.md R9 and spec/10_state.md name. -/

namespace Sys2Proof

/-- `u8`: one byte of the input space or of the output stream (R9, R46). -/
abbrev Byte := BitVec 8

/-- `u32`: a position, a distance, a hash value, a checksum (R9). -/
abbrev Word := BitVec 32

/-- A 17-bit match length, 0..65536 (R29, R30, R32). -/
abbrev LenWord := BitVec 17

/-- A 33-bit byte count: `ARG_OUT_CAP`, `RESULT_LEN`, `EXC_INFO`, `OUT_LEN` (R19, R22, R23). -/
abbrev CountWord := BitVec 33

end Sys2Proof
end

