-- ==== Sys2Proof/Config.lean ====
section
/-! DEFINITION. What one engine fixes: the parameters of spec/00_scope.md R7 as a record, at the values this hardware takes, and
the free values. -/

namespace Sys2Proof

/-- `WINDOW_FIELD_BYTES`: the header's window field has 4 bytes, or 3 in the spec's alternative (R7, R71, D5). -/
inductive WinField where
  | four
  | three
  deriving DecidableEq, Repr

/-- The width in bytes of the header's window field. -/
def WinField.bytes : WinField → Nat
  | .four => 4
  | .three => 3

/-- The parameters of R7 as an argument of the model: the fields of one machine, which no step changes. The hash function
`HASH_FN` is not plain data: it is an argument of the step (`stepWith`). `HASH_BITS`, `WINDOW` and `OUT_CAP` are registers. -/
structure Params where
  /-- `WINDOW_FIELD_BYTES` (R71). -/
  winField : WinField
  /-- `ALLOC_MAY_FAIL` (R150): COMPRESS may end in the resource-failure outcome. -/
  allocMayFail : Bool
  /-- `ACCEPT_NONCANONICAL` (U14): the decoder model takes the spellings the engine never emits. -/
  acceptNoncanonical : Bool
  /-- `LEN_MAX`: positions of the input space are below it (R42, U21). -/
  lenMax : Nat
  /-- `MAX_MATCH` (R81, R105). -/
  maxMatch : Nat
  /-- `MAX_LITRUN`: the longest run of one literal opcode (R109). -/
  maxLitRun : Nat
  /-- `LOOKAHEAD`: the bytes the hash function reads at a scan position (R80). -/
  lookahead : Nat
  /-- `POS_BITS`: the width of a position stored in the table (D27). -/
  posBits : Nat
  /-- `SIG0` (R71). -/
  sig0 : Byte
  /-- `SIG1` (R71). -/
  sig1 : Byte
  /-- `RSV_BYTES`: the width of the header's reserved field (R71). -/
  rsvBytes : Nat
  /-- `END0` (R70). -/
  end0 : Byte
  /-- `END1` (R70). -/
  end1 : Byte
  /-- `ADLER_MOD` (R127). -/
  adlerMod : Nat
  deriving DecidableEq, Repr

/-- The values of the parameters with which the rest of the spec makes sense: its registers hold them, its fields encode them, and
`END0` starts no other token. The default values are among them. Log 17. -/
structure Params.Legal (ps : Params) : Prop where
  /-- A position is a 32-bit number, and so is a length (R42). -/
  lenMax_le : ps.lenMax ≤ 2 ^ 32 - 1
  /-- The widest length field has 16 bits (R67, R69), and the length registers 17 (R29, R30). -/
  maxMatch_le : ps.maxMatch ≤ 65536
  /-- The widest run field has 16 bits (R63). -/
  maxLitRun_le : ps.maxLitRun ≤ 65536
  /-- Below 66 bytes a run costs more opcode bytes than the size bound of R144 allows. -/
  maxLitRun_ge : 66 ≤ ps.maxLitRun
  /-- A longer header would not fit beside its frame into `BOUND` (R144). -/
  rsvBytes_le : ps.rsvBytes ≤ 497
  /-- `END0` is a first byte no other opcode takes (R72). -/
  end0_free : ps.end0.toNat < 6 ∧ ps.end0 ≠ 0x04#8
  /-- The sums have a residue (R127). -/
  adlerMod_pos : 1 ≤ ps.adlerMod
  /-- A residue fits 16 bits (R36). -/
  adlerMod_le : ps.adlerMod ≤ 65536

namespace Config

/-- The parameters this hardware takes: the default column of R7, and U14. -/
def params : Params :=
  { winField := .four, allocMayFail := true, acceptNoncanonical := true, lenMax := 2 ^ 32 - 1, maxMatch := 65536,
    maxLitRun := 65536, lookahead := 13, posBits := 32, sig0 := 0x57#8, sig1 := 0xBC#8, rsvBytes := 6, end0 := 0x05#8,
    end1 := 0xFA#8, adlerMod := 65521 }

/-- `CFG_WINDOW` after power-on reset (R16). -/
def windowReset : Word := 0x00040000#32

/-- `CFG_HASH_BITS` after power-on reset (R17). -/
def hashBitsReset : BitVec 6 := 15#6

/-- The largest legal `CFG_HASH_BITS` (R17). -/
def hashBitsMax : Nat := 32

/-- What a byte of the input space that the host never placed reads as. DESIGN CHOICE (log 4), unsafe. -/
def unplacedByte : Byte := 0#8

/-- FREE VALUE: whether the hash table of a COMPRESS command is unavailable, at the given count of draws (R150, R8: the
engine's only non-deterministic choice, an oracle input). Log 5. -/
opaque allocFails : Nat → Bool

/-- FREE VALUE: what a `w`-bit register the spec leaves unspecified holds. The first number is the count of free values
drawn so far, the second tells registers of one draw apart. Log 6. -/
opaque freeBits : (w : Nat) → Nat → Nat → BitVec w

/-- FREE VALUE: what the entries of the hash table are between commands (R35), as index and position pairs in any order.
Log 6. -/
opaque freeEntries : Nat → List (Nat × Word)

end Config

end Sys2Proof
end

