-- ==== Sys2Proof/Syntax.lean ====
section
/-! DEFINITION. The instruction set: the ten tokens of the output stream (spec/00_scope.md R3, spec/30_encoding.md R58), one
constructor per row of spec/opcode_table.json. -/

namespace Sys2Proof

/-- A token: one opcode with its operands and, for a literal opcode, the literal bytes that belong to it (R58). The run
length `n` of a literal token is the number of its literal bytes (R74). Lengths and distances are the decoded numbers,
not the stored fields, which hold one less (R60). -/
inductive Instr where
  /-- SLIT, short literal (R61, R112). -/
  | slit (lits : List Byte)
  /-- MLIT, medium literal (R62, R113). -/
  | mlit (lits : List Byte)
  /-- LLIT, long literal (R63, R114). -/
  | llit (lits : List Byte)
  /-- SMAT, short match (R64, R115). -/
  | smat (len dist : Nat)
  /-- MMAT, medium match (R65, R116). -/
  | mmat (len dist : Nat)
  /-- LMATA, long-distance match A (R66, R117). -/
  | lmata (len dist : Nat)
  /-- LMATB, long-distance match B (R67, R118). -/
  | lmatb (len dist : Nat)
  /-- XMAT1, extended match with one length byte (R68, R119). -/
  | xmat1 (len dist : Nat)
  /-- XMAT2, extended match with two length bytes (R69, R120). -/
  | xmat2 (len dist : Nat)
  /-- END, the trailer: end marker and checksum (R70, R121). -/
  | endFrame (chk : Word)
  deriving DecidableEq, Repr

end Sys2Proof
end

