-- ==== Sys2Proof/WellFormed.lean ====
section
/-! DEFINITION. Which instructions have an encoding: every operand fits its field (spec/30_encoding.md R60 to R70). The
spellings the engine itself emits are fewer: see `canonical` in Machine/Selector.lean. -/

namespace Sys2Proof

/-- A count stored minus one in a field of `bits` bits: `1 .. 2^bits` (R60). -/
def fitsField (bits n : Nat) : Bool := decide (1 ≤ n) && decide (n ≤ 2 ^ bits)

/-- The instruction has an encoding: each operand fits the field its format gives it. -/
def Instr.wf : Instr → Bool
  | .slit lits => fitsField 5 lits.length
  | .mlit lits => fitsField 11 lits.length
  | .llit lits => fitsField 16 lits.length
  | .smat len dist => fitsField 7 len && fitsField 8 dist
  | .mmat len dist => fitsField 8 len && fitsField 14 dist
  | .lmata len dist => fitsField 8 len && fitsField 19 dist
  | .lmatb len dist => fitsField 16 len && fitsField 19 dist
  | .xmat1 len dist => fitsField 8 len && fitsField 24 dist
  | .xmat2 len dist => fitsField 16 len && fitsField 24 dist
  | .endFrame _ => true

end Sys2Proof
end

