-- ==== Sys2Proof/Decode.lean ====
section
/-! DEFINITION. The decoder, total on any bytes and rejecting by name, and after it the encoder, both written from the
formats of spec/30_encoding.md (R59 to R77); the rows of spec/opcode_table.json as data. -/

namespace Sys2Proof

/-- Why bytes are no token. -/
inductive DecodeError where
  /-- The first byte is 0x00 to 0x03, or 0x05 followed by a byte other than 0xFA, with the default `END0` and `END1` (R77, U12,
  U13). -/
  | reserved (b0 : Byte)
  /-- The bytes end inside the token. -/
  | truncated
  deriving DecidableEq, Repr

/-- What the decoder answers: the token and the bytes after it, or why there is none. -/
abbrev Decoded := Except DecodeError (Instr × List Byte)

/-- The unsigned number whose big-endian bytes these are (R45, R59). -/
def beNat (bs : List Byte) : Nat := bs.foldl (fun a b => a * 256 + b.toNat) 0

/-- A literal token's `n` literal bytes, which follow its opcode immediately (R74). -/
def takeRun (mk : List Byte → Instr) (n : Nat) (r : List Byte) : Decoded :=
  if r.length < n then .error .truncated else .ok (mk (r.take n), r.drop n)

/-- SLIT: `n = b0[4:0] + 1` (R61). -/
def decodeSlit (b0 : Byte) (r : List Byte) : Decoded := takeRun .slit (b0.toNat % 32 + 1) r

/-- MLIT: `n = {b0[2:0], b1} + 1` (R62). -/
def decodeMlit (b0 : Byte) : List Byte → Decoded
  | b1 :: r => takeRun .mlit (b0.toNat % 8 * 256 + b1.toNat + 1) r
  | _ => .error .truncated

/-- LLIT: `n = {b1, b2} + 1` (R63). -/
def decodeLlit : List Byte → Decoded
  | b1 :: b2 :: r => takeRun .llit (beNat [b1, b2] + 1) r
  | _ => .error .truncated

/-- SMAT: length `b0[6:0] + 1`, distance `b1 + 1` (R64). -/
def decodeSmat (b0 : Byte) : List Byte → Decoded
  | b1 :: r => .ok (.smat (b0.toNat % 128 + 1) (b1.toNat + 1), r)
  | _ => .error .truncated

/-- MMAT: distance `{b0[5:0], b1} + 1`, length `b2 + 1` (R65). -/
def decodeMmat (b0 : Byte) : List Byte → Decoded
  | b1 :: b2 :: r => .ok (.mmat (b2.toNat + 1) (b0.toNat % 64 * 256 + b1.toNat + 1), r)
  | _ => .error .truncated

/-- The 19-bit distance field `{b0[2:0], b1, b2}` of the long-distance matches (R66, R67). -/
def longDist (b0 b1 b2 : Byte) : Nat := b0.toNat % 8 * 65536 + beNat [b1, b2] + 1

/-- LMATA: distance `{b0[2:0], b1, b2} + 1`, length `b3 + 1` (R66). -/
def decodeLmata (b0 : Byte) : List Byte → Decoded
  | b1 :: b2 :: b3 :: r => .ok (.lmata (b3.toNat + 1) (longDist b0 b1 b2), r)
  | _ => .error .truncated

/-- LMATB: distance `{b0[2:0], b1, b2} + 1`, length `{b3, b4} + 1` (R67). -/
def decodeLmatb (b0 : Byte) : List Byte → Decoded
  | b1 :: b2 :: b3 :: b4 :: r => .ok (.lmatb (beNat [b3, b4] + 1) (longDist b0 b1 b2), r)
  | _ => .error .truncated

/-- XMAT1: distance `{b1, b2, b3} + 1`, length `b4 + 1` (R68). -/
def decodeXmat1 : List Byte → Decoded
  | b1 :: b2 :: b3 :: b4 :: r => .ok (.xmat1 (b4.toNat + 1) (beNat [b1, b2, b3] + 1), r)
  | _ => .error .truncated

/-- XMAT2: distance `{b1, b2, b3} + 1`, length `{b4, b5} + 1` (R69). -/
def decodeXmat2 : List Byte → Decoded
  | b1 :: b2 :: b3 :: b4 :: b5 :: r => .ok (.xmat2 (beNat [b4, b5] + 1) (beNat [b1, b2, b3] + 1), r)
  | _ => .error .truncated

/-- END: `b1` must be `END1`; the checksum is `{b2, b3, b4, b5}` (R70, R72, R77). -/
def decodeEnd (ps : Params) (b0 : Byte) : List Byte → Decoded
  | [] => .error .truncated
  | b1 :: r =>
    if b1 = ps.end1 then
      match r with
      | c0 :: c1 :: c2 :: c3 :: r' => .ok (.endFrame (BitVec.ofNat 32 (beNat [c0, c1, c2, c3])), r')
      | _ => .error .truncated
    else .error (.reserved b0)

/-- One token from the front of a byte stream: the first byte alone tells the format, tested in the order of R72. -/
def decode (ps : Params) : List Byte → Decoded
  | [] => .error .truncated
  | b0 :: r =>
    if 0x80 ≤ b0.toNat then decodeSmat b0 r
    else if 0x40 ≤ b0.toNat then decodeMmat b0 r
    else if 0x20 ≤ b0.toNat then decodeSlit b0 r
    else if 0x18 ≤ b0.toNat then decodeLmata b0 r
    else if 0x10 ≤ b0.toNat then decodeLmatb b0 r
    else if 0x08 ≤ b0.toNat then decodeMlit b0 r
    else if b0.toNat = 0x07 then decodeLlit r
    else if b0.toNat = 0x06 then decodeXmat1 r
    else if b0 = ps.end0 then decodeEnd ps b0 r
    else if b0.toNat = 0x04 then decodeXmat2 r
    else .error (.reserved b0)

/-- `BE_n(v)`: the `n`-byte big-endian spelling of `v` (R12). -/
def beBytes : Nat → Nat → List Byte
  | 0, _ => []
  | n + 1, v => BitVec.ofNat 8 (v / 256 ^ n) :: beBytes n v

/-- The bytes of a token: its opcode by the value formula of its format (R61 to R70), then a literal token's literal bytes
(R74). -/
def encode (ps : Params) : Instr → List Byte
  | .slit lits => beBytes 1 (0x20 + (lits.length - 1)) ++ lits
  | .mlit lits => beBytes 2 (0x0800 + (lits.length - 1)) ++ lits
  | .llit lits => beBytes 3 (0x070000 + (lits.length - 1)) ++ lits
  | .smat len dist => beBytes 1 (0x80 + (len - 1)) ++ beBytes 1 (dist - 1)
  | .mmat len dist => beBytes 2 (0x4000 + (dist - 1)) ++ beBytes 1 (len - 1)
  | .lmata len dist => beBytes 3 (0x180000 + (dist - 1)) ++ beBytes 1 (len - 1)
  | .lmatb len dist => beBytes 3 (0x100000 + (dist - 1)) ++ beBytes 2 (len - 1)
  | .xmat1 len dist => beBytes 1 0x06 ++ beBytes 3 (dist - 1) ++ beBytes 1 (len - 1)
  | .xmat2 len dist => beBytes 1 0x04 ++ beBytes 3 (dist - 1) ++ beBytes 2 (len - 1)
  | .endFrame chk => [ps.end0, ps.end1] ++ beBytes 4 chk.toNat

/-- The bytes of the token before any literal bytes: the column "opcode bytes" of R72, END with its checksum field. -/
def Instr.opcodeBytes : Instr → Nat
  | .slit _ => 1
  | .mlit _ => 2
  | .llit _ => 3
  | .smat _ _ => 2
  | .mmat _ _ => 3
  | .lmata _ _ => 4
  | .lmatb _ _ => 5
  | .xmat1 _ _ => 5
  | .xmat2 _ _ => 6
  | .endFrame _ => 6

/-- The literal bytes that follow the opcode (R72, R74): none but for a literal token. -/
def Instr.literalBytes : Instr → Nat
  | .slit lits => lits.length
  | .mlit lits => lits.length
  | .llit lits => lits.length
  | _ => 0

/-- One row of spec/opcode_table.json: its mnemonic, and the mask and match it gives for the first two bytes of a token
(a row that gives them for the first byte alone leaves the second byte free). -/
structure OpcodeRow where
  mnemonic : String
  mask : BitVec 16
  value : BitVec 16
  deriving DecidableEq, Repr

/-- The rows of spec/opcode_table.json, in its order. -/
def opcodeRows : List OpcodeRow :=
  [ ⟨"SLIT", 0xE000#16, 0x2000#16⟩, ⟨"MLIT", 0xF800#16, 0x0800#16⟩, ⟨"LLIT", 0xFF00#16, 0x0700#16⟩,
    ⟨"SMAT", 0x8000#16, 0x8000#16⟩, ⟨"MMAT", 0xC000#16, 0x4000#16⟩, ⟨"LMATA", 0xF800#16, 0x1800#16⟩,
    ⟨"LMATB", 0xF800#16, 0x1000#16⟩, ⟨"XMAT1", 0xFF00#16, 0x0600#16⟩, ⟨"XMAT2", 0xFF00#16, 0x0400#16⟩,
    ⟨"END", 0xFFFF#16, 0x05FA#16⟩ ]

/-- The first two bytes of a token match the row: `(bytes & mask) = match` (INDEX.md). -/
def OpcodeRow.matches (row : OpcodeRow) (b0 b1 : Byte) : Bool := (b0 ++ b1) &&& row.mask == row.value

/-- The mnemonic of an instruction in spec/opcode_table.json. -/
def Instr.mnemonic : Instr → String
  | .slit _ => "SLIT"
  | .mlit _ => "MLIT"
  | .llit _ => "LLIT"
  | .smat _ _ => "SMAT"
  | .mmat _ _ => "MMAT"
  | .lmata _ _ => "LMATA"
  | .lmatb _ _ => "LMATB"
  | .xmat1 _ _ => "XMAT1"
  | .xmat2 _ _ => "XMAT2"
  | .endFrame _ => "END"

/-- How many literal bytes the opcode at the front of these bytes announces (R72, R73): 0 for an opcode that is no literal. -/
def announcedRun : List Byte → Nat
  | [] => 0
  | b0 :: r =>
    let field := beNat (r.take 2)
    if 0x40 ≤ b0.toNat then 0
    else if 0x20 ≤ b0.toNat then b0.toNat % 32 + 1
    else if 0x10 ≤ b0.toNat then 0
    else if 0x08 ≤ b0.toNat then b0.toNat % 8 * 256 + (beNat (r.take 1)) + 1
    else if b0.toNat = 0x07 then field + 1
    else 0

/-- END's row alone numbers its first two bytes as one 16-bit number, 0x05FA, whose HIGH byte is `b0` (its match width is
16 bits; R70 says `b0 = 0x05`, `b1 = 0xFA`). Such a number is laid out high byte first. Log 9. -/
def endRowOrder (nbits : Nat) (bs : List Byte) : List Byte :=
  match bs with
  | b0 :: b1 :: r => if nbits = 48 ∧ b0 = Config.params.end1 ∧ b1 = Config.params.end0 then b1 :: b0 :: r else bs
  | _ => bs

/-- The bytes of the instruction whose bits spec/opcode_table.json numbers as `w`: byte `k` of the stream is bits `8k+7` to
`8k` of `w`, and the literal bytes the opcode announces are zeros. -/
def tableBytes (nbits w : Nat) : List Byte :=
  let op := endRowOrder nbits ((List.range (nbits / 8)).map fun k => BitVec.ofNat 8 (w / 256 ^ k))
  op ++ List.replicate (announcedRun op) 0#8

/-- The instruction the decoder reads from an instruction whose table-numbered bits are `w`. -/
def decodeTableWord (nbits w : Nat) : Option Instr :=
  match decode Config.params (tableBytes nbits w) with
  | .ok (i, _) => some i
  | .error _ => none

end Sys2Proof
end

