-- ==== Sys2Proof/Machine/State.lean ====
section
/-! DEFINITION. The state of the machine as plain data: every register and store of spec/10_state.md and spec/20_memory.md,
the reader of a frame (the decoder model of R111 and of 93_implementation_defined.md U12 to U16), and the turns of the
agents. INVENTORY.md lists every field with its rule and reset value. -/

namespace Sys2Proof.Machine

/-- `STATUS` (R21). -/
inductive Status where
  | idle
  | busy
  | doneOk
  | doneFail
  | fault
  deriving DecidableEq, Repr

/-- `PHASE`, the engine's step state within a command (R25). -/
inductive Phase where
  | idle
  | init
  | scan
  | flush
  | trailer
  | done
  | sum
  deriving DecidableEq, Repr

/-- The host commands (R19, R133). -/
inductive Command where
  | compress
  | checksum
  deriving DecidableEq, Repr

/-- What a step of a command can raise (R148), with its information. The resource-failure outcome is no fault (R150). -/
inductive Exc where
  /-- An append when `OUT_LEN` has reached `ARG_OUT_CAP` (R151): the offset of the first byte that does not fit. -/
  | outputOverflow (at_ : CountWord)
  /-- A window too large for a 3-byte window field (R152): `CFG_WINDOW`. -/
  | badConfig (window : Word)
  /-- A `MemRead` outside the input (R153): the position read. -/
  | internalError (pos : Nat)
  deriving DecidableEq, Repr

/-- The host actions R154 refuses: they change nothing, and the run keeps the mark. -/
inductive HostRefusal where
  /-- R154 item 1. -/
  | startWhileBusy
  /-- R154 item 2. -/
  | unknownCommand
  /-- R154 item 3. -/
  | configWriteWhileBusy
  /-- R154 item 4. -/
  | hashBitsAboveMax
  /-- R154 item 5. -/
  | argumentWriteWhileBusy
  deriving DecidableEq, Repr

/-- The host's interactions (R177), and handing a frame to the reader. -/
inductive HostMove where
  /-- Write `CFG_WINDOW` (R16, R18). -/
  | writeCfgWindow (v : Word)
  /-- Write `CFG_HASH_BITS` (R17, R18). -/
  | writeCfgHashBits (v : BitVec 6)
  /-- Write `CMD` (R19, R149: 8 bits). -/
  | writeCmd (v : Byte)
  /-- Write `ARG_LEN` (R19). -/
  | writeArgLen (v : Word)
  /-- Write `ARG_SEED` (R19). -/
  | writeArgSeed (v : Word)
  /-- Write `ARG_OUT_CAP` (R19). -/
  | writeArgOutCap (v : CountWord)
  /-- Place bytes in the input space from a position on (R169). -/
  | placeInput (p : Word) (bs : List Byte)
  /-- Start the command in `CMD` (R133). -/
  | start
  /-- Read `STATUS`: always allowed (R177). -/
  | readStatus
  /-- Read `CFG_WINDOW` (R40). -/
  | readCfgWindow
  /-- Read `CFG_HASH_BITS` (R40). -/
  | readCfgHashBits
  /-- Read `RESULT_LEN` (R22, R174). -/
  | readResultLen
  /-- Read `RESULT_CHK` (R22, R174). -/
  | readResultChk
  /-- Read `EXC_CODE` (R23, R174). -/
  | readExcCode
  /-- Read `EXC_INFO` (R23, R174). -/
  | readExcInfo
  /-- Read the frame `OUT[0 .. RESULT_LEN)` from the output sink (R170, R177). -/
  | readFrame
  /-- Read one byte of the output sink (R173). -/
  | readSinkByte (k : CountWord)
  /-- Assert reset (R166, R167). -/
  | reset
  /-- Hand a byte sequence to the reader as the frame to decode (R111; the reader is no part of the engine, R6). -/
  | giveFrame (bs : List Byte)
  deriving DecidableEq, Repr

/-- Who acts in a step: the host with a move, the engine with the step its `PHASE` names, or the reader with the next part
of its frame. The model's own. -/
inductive Turn where
  | host (m : HostMove)
  | engine
  | reader
  deriving DecidableEq, Repr

/-- What the machine gave the host back for its last move (R177). The model's own. -/
inductive Reply where
  | nothing
  | status (code : BitVec 3)
  | value (v : CountWord)
  | bytes (bs : List Byte)
  deriving DecidableEq, Repr

/-- How far the reader is in its frame. The model's own. -/
inductive ReadPhase where
  /-- It has no frame. -/
  | none
  /-- The header comes next: it is recognised by its position (R73). -/
  | header
  /-- A token comes next. -/
  | tokens
  /-- END was read and its checks passed (R111). -/
  | ended
  deriving DecidableEq, Repr

/-- The reader of a frame, stated by R111 over its output sequence `O`. -/
structure Reader where
  /-- How far it is. -/
  phase : ReadPhase
  /-- The bytes of the frame not read yet: the stream its next token is fetched from (R58, R73). -/
  src : List Byte
  /-- The header's length field (R71). -/
  len : Word
  /-- The header's window field (R71). -/
  window : Word
  /-- `O`, the bytes decoded so far, first byte first (R111). -/
  o : List Byte
  deriving DecidableEq, Repr

/-- The hash table `T` (R33): the entries that hold a position, as index and position in rising order of index. An index that
is not listed is `EMPTY` (R34). -/
abbrev Table := List (Nat × Word)

/-- A memory of bytes: the bytes that differ from what an unlisted address reads as, in rising order of address. -/
abbrev Mem := List Host.Cell

/-- The engine's working registers and its hash table (R24 to R37): the state that is unspecified once a command is over
(R140, R156). -/
structure Work where
  /-- `Q`, the scan cursor (R26). -/
  q : Word
  /-- `LIT_START` (R28). -/
  litStart : Word
  /-- `BEST` (R29). -/
  best : LenWord
  /-- `DIST` (R29). -/
  dist : Word
  /-- `MATCH_MAX` (R30). -/
  matchMax : LenWord
  /-- `H`, the hash-cascade register (R31). -/
  h : Word
  /-- `H1` (R31): `CFG_HASH_BITS` bits, at most 32. -/
  h1 : Word
  /-- `H2` (R31). -/
  h2 : Word
  /-- `H3` (R31). -/
  h3 : Word
  /-- `H4` (R31). -/
  h4 : Word
  /-- `M`, the match length of the current probe (R32). -/
  m : LenWord
  /-- `T`, the hash table (R33). -/
  table : Table
  /-- `S1`, low half of the checksum accumulator (R36). -/
  s1 : BitVec 16
  /-- `S2`, high half of the checksum accumulator (R36). -/
  s2 : BitVec 16
  /-- `CKPOS` (R37). -/
  ckpos : Word
  deriving DecidableEq, Repr

/-- The state of the machine. -/
structure State where
  /-- The fixed parameters (R7): no step changes them. -/
  params : Params
  /-- `CFG_WINDOW` (R16). -/
  cfgWindow : Word
  /-- `CFG_HASH_BITS` (R17). -/
  cfgHashBits : BitVec 6
  /-- `CMD` as the host wrote it (R19, R149). -/
  cmd : Byte
  /-- `ARG_LEN` (R19). -/
  argLen : Word
  /-- `ARG_SEED` (R19). -/
  argSeed : Word
  /-- `ARG_OUT_CAP` (R19). -/
  argOutCap : CountWord
  /-- `STATUS` (R21). -/
  status : Status
  /-- `RESULT_LEN` (R22). -/
  resultLen : CountWord
  /-- `RESULT_CHK` (R22). -/
  resultChk : Word
  /-- `EXC_CODE` (R23). -/
  excCode : Byte
  /-- `EXC_INFO` (R23). -/
  excInfo : CountWord
  /-- `PHASE` (R25). -/
  phase : Phase
  /-- `IN_LEN`, the input length of the command in progress (R42, R133). -/
  inLen : Word
  /-- The working registers and the hash table (R24 to R37). -/
  w : Work
  /-- The input space (R42). -/
  input : Mem
  /-- The output stream `OUT` (R43), first byte first. `OUT_LEN` is its length (`State.outLen`). -/
  out : List Byte
  /-- The command `STATUS` speaks of. The model's own: it tells which results are valid (R174). -/
  lastCmd : Option Command
  /-- The reader of a frame (R111). -/
  rd : Reader
  /-- The turns that are already decided, next first. The model's own (log 2). -/
  agenda : List Turn
  /-- What the host's last move gave back (R177). The model's own. -/
  reply : Reply
  /-- The first host action of the run that was refused: the mark R154 keeps for the whole run. -/
  refusedMark : Option HostRefusal
  /-- The first fault of the run: R156 keeps it for the whole run. -/
  faultMark : Option Exc
  /-- How many free values were drawn. The model's own: the argument of the free values of Config. -/
  fresh : Nat
  deriving DecidableEq, Repr

/-- Why the machine stops with a fault. The engine's own faults do not stop it: they are entered (R156). -/
inductive Fault where
  /-- Raised by a host read of a result or exception register that holds no value for the outcome `STATUS` shows. Safe: the spec
  states this fault, R166 ("a model faults on it") and U6 ("`fault` (the register holds no value)"). -/
  | registerHoldsNoValue
  /-- Raised by the reader on a reserved first byte, or on 0x05 not followed by 0xFA (R77, U12, U13). Safe. -/
  | reservedOpcode (b0 : Byte)
  /-- Raised by the reader where the frame's bytes end inside its header or a token, or before END (R58, R124). Safe. -/
  | truncatedFrame
  /-- Raised by the reader on a header whose signature or reserved field is not that of R71. Safe. -/
  | badHeader
  /-- Raised by a match token whose distance is 0 or exceeds the bytes decoded so far (R111, U15). Safe. -/
  | distanceBeyondOutput
  /-- Raised by END where the decoded length is not the header's (R111, U15). Safe. -/
  | frameLengthMismatch
  /-- Raised by END where the checksum of the decoded bytes is not the trailer's (R111, U15). Safe. -/
  | frameChecksumMismatch
  /-- Raised by END where bytes follow it (R124, U16). Safe. -/
  | trailingBytes
  deriving DecidableEq, Repr

/-- Why the machine gives a step no meaning. -/
inductive Refusal where
  /-- The instruction has no meaning in the model. Raised by an arm of `exec` alone; none is left. Safe. -/
  | notModelled (mnemonic : String)
  /-- Raised by the reader on a spelling the engine never emits, where `ACCEPT_NONCANONICAL` is false (U14). Safe. -/
  | nonCanonicalToken
  /-- Raised by a host write to the input space during a command: the host has no such move (R55, R171, U4). It errs toward
  proving (D14): the log says unsafe. -/
  | inputWriteWhileBusy
  /-- Raised by a host read of the output sink during a command: the host has no such move (R173, R177). Safe. -/
  | sinkReadWhileBusy
  /-- Raised by a host read of a configuration register during a command, which R40 does not allow. Safe. -/
  | configReadWhileBusy
  /-- Raised by a host write to a position the input space does not have (R42). Safe. -/
  | positionOutsideInputSpace
  deriving DecidableEq, Repr

/-- The working registers at reset. DESIGN CHOICE (log 3): the spec says they hold no value; the model takes zeros and an empty
table. No rule reads one before a command writes it (R24). -/
def Work.reset : Work :=
  { q := 0#32, litStart := 0#32, best := 0#17, dist := 0#32, matchMax := 0#17, h := 0#32, h1 := 0#32, h2 := 0#32,
    h3 := 0#32, h4 := 0#32, m := 0#17, table := [], s1 := 0#16, s2 := 0#16, ckpos := 0#32 }

/-- The reader before it is given a frame. -/
def Reader.reset : Reader := { phase := .none, src := [], len := 0#32, window := 0#32, o := [] }

/-- The machine right after power-on reset (R40, R166). The values the spec states are `CFG_WINDOW`, `CFG_HASH_BITS`,
`STATUS` and `PHASE`; the others are the model's (log 3). -/
def State.reset : State :=
  { params := Config.params, cfgWindow := Config.windowReset, cfgHashBits := Config.hashBitsReset, cmd := 0#8,
    argLen := 0#32, argSeed := 0#32, argOutCap := 0#33, status := .idle, resultLen := 0#33, resultChk := 0#32,
    excCode := 0#8, excInfo := 0#33, phase := .idle, inLen := 0#32, w := Work.reset, input := [], out := [],
    lastCmd := none, rd := Reader.reset, agenda := [], reply := .nothing, refusedMark := none, faultMark := none,
    fresh := 0 }

end Sys2Proof.Machine
end

