-- ==== Sys2Proof/Machine/Ops.lean ====
section
/-! DEFINITION. The named operations over the stores and registers: cells in canonical form, the input space (`MemRead`), the
output stream (`Emit`, `EmitBytes`), the hash table, the free values, and taking a fault (spec/00_scope.md R11,
spec/20_memory.md, spec/60_exceptions.md R150 to R157). -/

namespace Sys2Proof.Machine

/-! ### Cells in canonical form: rising addresses, no address twice -/

/-- The value listed at an address. -/
def cellGet {α : Type} : List (Nat × α) → Nat → Option α
  | [], _ => none
  | (k, v) :: r, a => if a = k then some v else cellGet r a

/-- List a value at an address, in rising order, in place of the one listed there. -/
def cellPut {α : Type} : List (Nat × α) → Nat → α → List (Nat × α)
  | [], a, x => [(a, x)]
  | (k, v) :: r, a, x =>
    if a < k then (a, x) :: (k, v) :: r else if a = k then (a, x) :: r else (k, v) :: cellPut r a x

/-- List nothing at an address. -/
def cellDel {α : Type} : List (Nat × α) → Nat → List (Nat × α)
  | [], _ => []
  | (k, v) :: r, a => if a = k then r else (k, v) :: cellDel r a

/-- The addresses rise strictly. -/
abbrev Rising {α : Type} (l : List (Nat × α)) : Prop := l.Pairwise fun c d => c.1 < d.1

/-! ### The input space (R42) -/

/-- The byte at an address: one that is not listed reads as `Config.unplacedByte` (log 4). -/
def Mem.read (mem : Mem) (a : Nat) : Byte := (cellGet mem a).getD Config.unplacedByte

/-- Write one byte, keeping the canonical form. -/
def Mem.write (mem : Mem) (a : Nat) (b : Byte) : Mem :=
  if b = Config.unplacedByte then cellDel mem a else cellPut mem a b

/-- Write bytes from an address on. -/
def Mem.writeAll (mem : Mem) (a : Nat) : List Byte → Mem
  | [] => mem
  | b :: bs => (mem.write a b).writeAll (a + 1) bs

/-- The canonical form: rising addresses below `LEN_MAX`, and no entry equal to what an unlisted address reads as. -/
abbrev Mem.wf (lenMax : Nat) (mem : Mem) : Prop := Rising mem ∧ ∀ c ∈ mem, c.1 < lenMax ∧ c.2 ≠ Config.unplacedByte

/-- `MemRead(a, 1)` (R11): the input byte at position `a < IN_LEN`; any other position raises `InternalError` (R153). -/
def memRead (s : State) (a : Nat) : Except Exc Byte :=
  if a < s.inLen.toNat then .ok (s.input.read a) else .error (.internalError a)

/-- The `n` input bytes from position `p` on, read in order. -/
def readBytes (s : State) : Nat → Nat → Except Exc (List Byte)
  | _, 0 => .ok []
  | p, n + 1 =>
    match memRead s p with
    | .error e => .error e
    | .ok b =>
      match readBytes s (p + 1) n with
      | .error e => .error e
      | .ok bs => .ok (b :: bs)

/-- The input bytes `[p, p + n)` as the host placed them: what `readBytes` reads where it raises nothing. -/
def inputBytes (s : State) (p n : Nat) : List Byte := (List.range n).map fun i => s.input.read (p + i)

/-! ### The hash table (R33 to R35) -/

/-- `T[i]`: `none` is `EMPTY` (R34). -/
def Table.read (t : Table) (i : Nat) : Option Word := cellGet t i

/-- `T[i] <- p`. -/
def Table.write (t : Table) (i : Nat) (p : Word) : Table := cellPut t i p

/-- A position as an entry of the table stores it: in `POS_BITS` bits (D27), all 32 by default. -/
def storedPos (posBits : Nat) (p : Word) : Word := BitVec.ofNat 32 (p.toNat % 2 ^ posBits)

/-- Every entry `EMPTY` (R35). -/
def Table.empty : Table := []

/-- A table from entries in any order: a later one overwrites an earlier one (R33). -/
def Table.ofEntries (l : List (Nat × Word)) : Table := l.foldl (fun t c => Table.write t c.1 c.2) Table.empty

/-- `HASH_MASK` applied: the low `CFG_HASH_BITS` bits, all of them for 32 (R17, R89). -/
def hashMask (bits : BitVec 6) (x : Word) : Word := BitVec.ofNat 32 (x.toNat % 2 ^ bits.toNat)

/-! ### Raising and running on -/

/-- What a part of an engine step ends in: the state to go on from, or what was raised and the state it was raised in (R11:
the rest of the rule is not executed). -/
inductive Ran where
  | go (s : State)
  | raised (e : Exc) (s : State)
  deriving DecidableEq, Repr

/-- Go on with the next part of the step, unless something was raised. -/
def Ran.andThen : Ran → (State → Ran) → Ran
  | .go s, f => f s
  | .raised e s, _ => .raised e s

/-! ### The output stream (R43) -/

/-- `OUT_LEN` (R38, R43). -/
def State.outLen (s : State) : CountWord := BitVec.ofNat 33 s.out.length

/-- Append one byte: where `OUT_LEN` has reached `ARG_OUT_CAP`, `OutputOverflow` is raised before the byte is written (R43,
R151). -/
def emitByte (b : Byte) (s : State) : Ran :=
  if s.argOutCap.toNat ≤ s.out.length then .raised (.outputOverflow s.outLen) s
  else .go { s with out := s.out ++ [b] }

/-- Append bytes one at a time, in order (R151). -/
def emitAll : List Byte → State → Ran
  | [], s => .go s
  | b :: bs, s => (emitByte b s).andThen (emitAll bs)

/-- `Emit(n, v)`: the `n` bytes of `v`, most significant first (R11). -/
def emit (n v : Nat) (s : State) : Ran := emitAll (beBytes n v) s

/-- `EmitBytes(p, n)`: the `n` input bytes from position `p` on, in order (R11). -/
def emitBytes : Nat → Nat → State → Ran
  | _, 0, s => .go s
  | p, n + 1, s =>
    match memRead s p with
    | .error e => .raised e s
    | .ok b => (emitByte b s).andThen (emitBytes (p + 1) n)

/-! ### The checksum accumulator's value (R36) -/

/-- `CK = (S2 << 16) | S1` (R36): the halves have no bit in common, so this is `S2 * 2^16 + S1`. -/
def Work.ck (w : Work) : Word := BitVec.ofNat 32 (w.s2.toNat * 65536 + w.s1.toNat)

/-! ### Free values -/

/-- Working registers the spec leaves unspecified: free values, drawn at count `k` (log 6). -/
def Work.free (k : Nat) : Work :=
  { q := Config.freeBits 32 k 0, litStart := Config.freeBits 32 k 1, best := Config.freeBits 17 k 2,
    dist := Config.freeBits 32 k 3, matchMax := Config.freeBits 17 k 4, h := Config.freeBits 32 k 5,
    h1 := Config.freeBits 32 k 6, h2 := Config.freeBits 32 k 7, h3 := Config.freeBits 32 k 8,
    h4 := Config.freeBits 32 k 9, m := Config.freeBits 17 k 10, table := Table.ofEntries (Config.freeEntries k),
    s1 := Config.freeBits 16 k 11, s2 := Config.freeBits 16 k 12, ckpos := Config.freeBits 32 k 13 }

/-- The working registers and the table become unspecified (R140, R156, U7). -/
def forgetWork (s : State) : State := { s with w := Work.free s.fresh, fresh := s.fresh + 1 }

/-- `RESULT_LEN` and `RESULT_CHK` become unspecified (R133, R156). -/
def forgetResults (s : State) : State :=
  { s with
    resultLen := Config.freeBits 33 s.fresh 14, resultChk := Config.freeBits 32 s.fresh 15, fresh := s.fresh + 1 }

/-- `EXC_CODE` and `EXC_INFO` become unspecified (R133). -/
def forgetExc (s : State) : State :=
  { s with excCode := Config.freeBits 8 s.fresh 16, excInfo := Config.freeBits 33 s.fresh 17, fresh := s.fresh + 1 }

/-! ### Taking a fault (R156), the resource-failure outcome (R150). There is no return from a fault (R157). -/

/-- The code of R148. -/
def Exc.code : Exc → Byte
  | .outputOverflow _ => 0x02#8
  | .badConfig _ => 0x03#8
  | .internalError _ => 0x7F#8

/-- The information of R148. -/
def Exc.info : Exc → CountWord
  | .outputOverflow at_ => at_
  | .badConfig window => window.setWidth 33
  | .internalError pos => BitVec.ofNat 33 pos

/-- Fault entry (R156): the exception registers, `PHASE` and last `STATUS` are written; the working registers and the results
become unspecified; what was appended to the output stays. The run keeps its first fault. -/
def enterFault (e : Exc) (s : State) : State :=
  { forgetResults (forgetWork s) with
    excCode := e.code, excInfo := e.info, phase := .idle, status := .fault, faultMark := s.faultMark.orElse fun _ => some e }

/-- The resource-failure outcome (R150): no byte is written, `RESULT_CHK` stays unspecified, and so do the working registers
(U7). -/
def enterResourceFailure (s : State) : State :=
  { forgetResults (forgetWork s) with
    resultLen := 0#33, excCode := 0x01#8, excInfo := 0#33, phase := .idle, status := .doneFail }

/-- A step of the engine as a whole: a raise is taken as a fault. -/
def Ran.settle : Ran → State
  | .go s => s
  | .raised e s => enterFault e s

end Sys2Proof.Machine
end

