-- ==== Sys2Proof/Machine/Checksum.lean ====
section
/-! DEFINITION. The checksum accumulator (spec/44_checksum.md R127 to R132). -/

namespace Sys2Proof.Machine

/-- One byte of the sums `s1` and `s2` as natural numbers (R127). -/
def sumStep (a : Nat × Nat) (b : Byte) : Nat × Nat := (a.1 + b.toNat, a.2 + (a.1 + b.toNat))

/-- The two sums joined, each modulo `m`: `s2` high, `s1` low (R127). -/
def joinSums (m : Nat) (a : Nat × Nat) : Word := BitVec.ofNat 32 (a.2 % m * 65536 + a.1 % m)

/-- The two halves of a 32-bit value: its low half is the first sum (R127). -/
def splitSums (v : Word) : Nat × Nat := (v.toNat % 65536, v.toNat / 65536)

/-- `checksum(seed, B, n)` for the byte sequence `B` (R127), modulo `ADLER_MOD`: the seed itself, unreduced, for no bytes. -/
def checksum (ps : Params) (seed : Word) (bs : List Byte) : Word :=
  if bs = [] then seed else joinSums ps.adlerMod (bs.foldl sumStep (splitSums seed))

/-- Both sums reduced modulo `m` (R128). -/
def reduceSums (m : Nat) (a : Nat × Nat) : Nat × Nat := (a.1 % m, a.2 % m)

/-- The bytes of a block of the computation with intermediate reductions (R128). -/
def sumBlock : Nat := 5552

/-- So many full blocks, with a reduction after each (R128). -/
def blockSums (m : Nat) : Nat → List Byte → Nat × Nat → Nat × Nat
  | 0, _, a => a
  | blocks + 1, bs, a => blockSums m blocks (bs.drop sumBlock) (reduceSums m ((bs.take sumBlock).foldl sumStep a))

/-- The checksum as the original computes it: reduced after a first block of `n mod 5552` bytes and after every full block
(R128). No step uses it: it gives the value of `checksum`. -/
def checksumBlocked (ps : Params) (seed : Word) (bs : List Byte) : Word :=
  if bs = [] then seed
  else
    let first := bs.length % sumBlock
    joinSums ps.adlerMod
      (blockSums ps.adlerMod (bs.length / sumBlock) (bs.drop first)
        (reduceSums ps.adlerMod ((bs.take first).foldl sumStep (splitSums seed))))

/-- `CK <- v`: `S2` takes the high half, `S1` the low (R36, R129). -/
def setCk (v : Word) (s : State) : State :=
  { s with w := { s.w with s1 := BitVec.ofNat 16 (v.toNat % 65536), s2 := BitVec.ofNat 16 (v.toNat / 65536) } }

/-- `Fold(p, n)`: the `n` input bytes from position `p` on go into the accumulator (R129). -/
def fold (p n : Nat) (s : State) : Ran :=
  if n = 0 then .go s
  else
    match readBytes s p n with
    | .error e => .raised e s
    | .ok bs =>
      let t := setCk (checksum s.params s.w.ck bs) s
      .go { t with w := { t.w with ckpos := BitVec.ofNat 32 (p + n) } }

/-- `Fold(CKPOS, Q - CKPOS)` (R129, R136). -/
def foldToCursor (s : State) : Ran := fold s.w.ckpos.toNat (s.w.q.toNat - s.w.ckpos.toNat) s

end Sys2Proof.Machine
end

