-- ==== Sys2Proof/Machine/Selector.lean ====
section
/-! DEFINITION. The match-decision selector's tests: the acceptance policy, the match classes in their order, and which tokens
are canonical (spec/41_selector.md R100 to R106, spec/30_encoding.md R75, R76). -/

namespace Sys2Proof.Machine

/-- The acceptance policy `Accept(len, d)` under a window (R100). -/
def accept (window : Word) (len d : Nat) : Bool :=
  decide (d ≤ window.toNat) &&
    (decide (len > 9) || (decide (len > 2) && decide (d ≤ 256)) || (decide (len > 5) && decide (d ≤ 16384)) ||
      (decide (len > 7) && decide (d ≤ 524288)))

/-- The match classes (R103): XMAT has one opcode for lengths up to 256 and one for longer. -/
inductive MatchClass where
  | smat
  | mmat
  | lmata
  | lmatb
  | xmat1
  | xmat2
  deriving DecidableEq, Repr

/-- The class of a match: the first row of R103 whose bounds hold, or none (R104). -/
def route (len dist : Nat) : Option MatchClass :=
  if 3 ≤ len ∧ len ≤ 128 ∧ dist ≤ 256 then some .smat
  else if 6 ≤ len ∧ len ≤ 256 ∧ dist ≤ 16384 then some .mmat
  else if 8 ≤ len ∧ len ≤ 256 ∧ dist ≤ 524288 then some .lmata
  else if 9 ≤ len ∧ len ≤ 65536 ∧ dist ≤ 524288 then some .lmatb
  else if 10 ≤ len ∧ dist ≤ 16777216 then if len ≤ 256 then some .xmat1 else some .xmat2
  else none

/-- The truncation of R105: it changes nothing, since no match is longer than `MAX_MATCH`. -/
def clampLen (ps : Params) (cls : MatchClass) (len : Nat) : Nat :=
  match cls with
  | .xmat1 => min len ps.maxMatch
  | .xmat2 => min len ps.maxMatch
  | .smat => len
  | .mmat => len
  | .lmata => len
  | .lmatb => len

/-- The token of a class. -/
def MatchClass.token (len dist : Nat) : MatchClass → Instr
  | .smat => .smat len dist
  | .mmat => .mmat len dist
  | .lmata => .lmata len dist
  | .lmatb => .lmatb len dist
  | .xmat1 => .xmat1 len dist
  | .xmat2 => .xmat2 len dist

/-- The literal token of a run of 1 to 65536 bytes: the narrowest of the three run ranges (R109). -/
def literalToken (lits : List Byte) : Instr :=
  if lits.length ≤ 32 then .slit lits else if lits.length ≤ 2048 then .mlit lits else .llit lits

/-- `blocks` literal tokens of `MAX_LITRUN` bytes each, then one of the narrowest format for the rest, or none for no bytes
(R79). -/
def literalBlocks (ps : Params) : Nat → List Byte → List Instr
  | 0, lits => if lits = [] then [] else [literalToken lits]
  | blocks + 1, lits =>
    literalToken (lits.take ps.maxLitRun) :: literalBlocks ps blocks (lits.drop ps.maxLitRun)

/-- The pseudo-instruction `LIT n`: the literal tokens of a run of any length (R79). -/
def literalTokens (ps : Params) (lits : List Byte) : List Instr := literalBlocks ps ((lits.length - 1) / ps.maxLitRun) lits

/-- The pseudo-instruction `MATCH len, dist`: the one match token the selector chooses (R79). -/
def matchToken (len dist : Nat) : Option Instr := (route len dist).map (MatchClass.token len dist)

/-- The bytes of tokens one after another: nothing stands between them (R124). -/
def tokenBytes (ps : Params) (toks : List Instr) : List Byte := (toks.map (encode ps)).flatten

/-- The spelling is one the engine emits: the narrowest literal format, the first match class whose bounds fit (R75). -/
def canonical : Instr → Bool
  | .slit lits => decide (1 ≤ lits.length) && decide (lits.length ≤ 32)
  | .mlit lits => decide (33 ≤ lits.length) && decide (lits.length ≤ 2048)
  | .llit lits => decide (2049 ≤ lits.length) && decide (lits.length ≤ 65536)
  | .smat len dist => route len dist == some .smat
  | .mmat len dist => route len dist == some .mmat
  | .lmata len dist => route len dist == some .lmata
  | .lmatb len dist => route len dist == some .lmatb
  | .xmat1 len dist => route len dist == some .xmat1
  | .xmat2 len dist => route len dist == some .xmat2
  | .endFrame _ => true

end Sys2Proof.Machine
end

