-- ==== Sys2Proof/Machine/Encoder.lean ====
section
/-! DEFINITION. The variable-width opcode encoder: what the engine appends for each token (spec/42_opcode_encoder.md R109 to
R121), and the header (spec/43_framing.md R122). -/

namespace Sys2Proof.Machine

/-- SLIT of the `n` input bytes from `p` on (R112). -/
def emitSlit (p n : Nat) (s : State) : Ran := (emit 1 (0x20 + (n - 1)) s).andThen (emitBytes p n)

/-- MLIT (R113). -/
def emitMlit (p n : Nat) (s : State) : Ran := (emit 2 (0x0800 + (n - 1)) s).andThen (emitBytes p n)

/-- LLIT (R114). -/
def emitLlit (p n : Nat) (s : State) : Ran := (emit 3 (0x070000 + (n - 1)) s).andThen (emitBytes p n)

/-- SMAT (R115). -/
def emitSmat (len dist : Nat) (s : State) : Ran := (emit 1 (0x80 + (len - 1)) s).andThen (emit 1 (dist - 1))

/-- MMAT (R116). -/
def emitMmat (len dist : Nat) (s : State) : Ran := (emit 2 (0x4000 + (dist - 1)) s).andThen (emit 1 (len - 1))

/-- LMATA (R117). -/
def emitLmata (len dist : Nat) (s : State) : Ran := (emit 3 (0x180000 + (dist - 1)) s).andThen (emit 1 (len - 1))

/-- LMATB (R118). -/
def emitLmatb (len dist : Nat) (s : State) : Ran := (emit 3 (0x100000 + (dist - 1)) s).andThen (emit 2 (len - 1))

/-- XMAT1 (R119). -/
def emitXmat1 (len dist : Nat) (s : State) : Ran :=
  ((emit 1 0x06 s).andThen (emit 3 (dist - 1))).andThen (emit 1 (len - 1))

/-- XMAT2 (R120). -/
def emitXmat2 (len dist : Nat) (s : State) : Ran :=
  ((emit 1 0x04 s).andThen (emit 3 (dist - 1))).andThen (emit 2 (len - 1))

/-- END (R121). -/
def emitEnd (ck : Word) (s : State) : Ran :=
  ((emit 1 s.params.end0.toNat s).andThen (emit 1 s.params.end1.toNat)).andThen (emit 4 ck.toNat)

/-- The literal token of `1 .. 65536` input bytes: SLIT, MLIT or LLIT by the run's length (R109, R110). -/
def emitLiteralToken (p n : Nat) (s : State) : Ran :=
  if n ≤ 32 then emitSlit p n s else if n ≤ 2048 then emitMlit p n s else emitLlit p n s

/-- `blocks` full blocks of `maxRun` bytes, each one token, then the remainder as one token, or nothing for no bytes (R109: by
default full blocks of 65536 bytes, each an LLIT). -/
def emitBlocks (maxRun : Nat) : Nat → Nat → Nat → State → Ran
  | 0, p, n, s => if n = 0 then .go s else emitLiteralToken p n s
  | blocks + 1, p, n, s =>
    (emitLiteralToken p maxRun s).andThen (emitBlocks maxRun blocks (p + maxRun) (n - maxRun))

/-- `EmitLiterals(p, n)`: the loop `while n > MAX_LITRUN` runs `floor((n-1)/MAX_LITRUN)` times (R109, R79). -/
def emitLiterals (p n : Nat) (s : State) : Ran := emitBlocks s.params.maxLitRun ((n - 1) / s.params.maxLitRun) p n s

/-- The opcode of a match class (R103). -/
def emitMatch (cls : MatchClass) (len dist : Nat) (s : State) : Ran :=
  match cls with
  | .smat => emitSmat len dist s
  | .mmat => emitMmat len dist s
  | .lmata => emitLmata len dist s
  | .lmatb => emitLmatb len dist s
  | .xmat1 => emitXmat1 len dist s
  | .xmat2 => emitXmat2 len dist s

/-- The header's bytes: signature, reserved zeros, input length, window (R71). -/
def headerBytes (ps : Params) (len window : Word) : List Byte :=
  [ps.sig0, ps.sig1] ++ beBytes ps.rsvBytes 0 ++ beBytes 4 len.toNat ++ beBytes ps.winField.bytes window.toNat

/-- Header emission (R122). -/
def emitHeader (s : State) : Ran :=
  ((((emit 1 s.params.sig0.toNat s).andThen (emit 1 s.params.sig1.toNat)).andThen (emit s.params.rsvBytes 0)).andThen
    (emit 4 s.inLen.toNat)).andThen (emit s.params.winField.bytes s.cfgWindow.toNat)

end Sys2Proof.Machine
end

