-- ==== Sys2Proof/Machine/Hash.lean ====
section
/-! DEFINITION. The hash cascade of the match finder, the parameter `HASH_FN` of spec/00_scope.md R7 (spec/40_match_finder.md
R82 to R90). -/

namespace Sys2Proof.Machine

/-- What the cascade leaves in `H` and the four table indices (R31). -/
structure Cascade where
  h : Word
  h1 : Word
  h2 : Word
  h3 : Word
  h4 : Word
  deriving DecidableEq, Repr

/-- A hash function: from `CFG_HASH_BITS` and the `LOOKAHEAD` bytes at the scan position (R90: from nothing else). -/
abbrev HashFn := BitVec 6 → List Byte → Cascade

/-- The cascade step `C(h, x, y)` (R88). -/
def cascadeStep (h : Word) (x y : Byte) : Word := (h <<< 14) + (h >>> 18) + (x.setWidth 32 <<< 7) + y.setWidth 32

/-- The scramble `h + (h >> 16)` before it is masked (R89). -/
def scramble (h : Word) : Word := h + (h >>> 16)

/-- The index function `SCR(h)` (R89). -/
def hashIndex (bits : BitVec 6) (h : Word) : Word := hashMask bits (scramble h)

/-- The first hash, over three bytes (R82). -/
def firstHash (b0 b1 b2 : Byte) : Word := (b0.setWidth 32 <<< 14) + (b1.setWidth 32 <<< 7) + b2.setWidth 32

/-- The hash cascade of R82 to R87: the indices are taken over 3, 5, 9 and 13 bytes; the values over 7 and 11 bytes index
nothing (90_conflicts.md C2). DESIGN CHOICE (log 25): where `LOOKAHEAD` is below the 13 bytes these rules read, the bytes past it
are taken as 0; the spec gives the cascade 13 bytes and says nothing of fewer. -/
def hashCascade : HashFn := fun bits bs =>
  let b := fun i => bs.getD i 0#8
  let v3 := firstHash (b 0) (b 1) (b 2)
  let v5 := cascadeStep v3 (b 3) (b 4)
  let v7 := cascadeStep v5 (b 5) (b 6)
  let v9 := cascadeStep v7 (b 7) (b 8)
  let v11 := cascadeStep v9 (b 9) (b 10)
  let v13 := cascadeStep v11 (b 11) (b 12)
  { h := v13, h1 := hashIndex bits v3, h2 := hashIndex bits v5, h3 := hashIndex bits v9, h4 := hashIndex bits v13 }

end Sys2Proof.Machine
end

