-- ==== Sys2Proof/Machine/MatchFinder.lean ====
section
/-! DEFINITION. The match finder, the first half of a SCAN step (spec/40_match_finder.md R80, R81, R91 to R98). -/

namespace Sys2Proof.Machine

/-- `Q` is a scan position: the `LOOKAHEAD` bytes at it, 13 by default, lie inside the input (R80). -/
def State.atScanPosition (s : State) : Bool := decide (s.w.q.toNat + (s.params.lookahead - 1) < s.inLen.toNat)

/-- The start of a SCAN step: no candidate yet (R29), and the longest match allowed (R81). -/
def beginScan (s : State) : State :=
  { s with
    w := { s.w with
      best := 2#17, dist := 0#32, matchMax := BitVec.ofNat 17 (min s.params.maxMatch (s.inLen.toNat - s.w.q.toNat)) } }

/-- `H` and the four indices are computed from the `LOOKAHEAD` bytes at `Q` (R82 to R87), by the hash function `hf`. -/
def computeHashes (hf : HashFn) (s : State) : Ran :=
  match readBytes s s.w.q.toNat s.params.lookahead with
  | .error e => .raised e s
  | .ok bs =>
    let c := hf s.cfgHashBits bs
    .go { s with w := { s.w with h := c.h, h1 := c.h1, h2 := c.h2, h3 := c.h3, h4 := c.h4 } }

/-- `MatchLen(t, q, max)`: how many bytes from `t` and from `q` on agree, at most `max` (R93). Only the input is read. -/
def matchLen (s : State) : Nat → Nat → Nat → Except Exc Nat
  | _, _, 0 => .ok 0
  | t, q, max + 1 =>
    match memRead s t with
    | .error e => .error e
    | .ok a =>
      match memRead s q with
      | .error e => .error e
      | .ok b =>
        if a = b then
          match matchLen s (t + 1) (q + 1) max with
          | .error e => .error e
          | .ok m => .ok (m + 1)
        else .ok 0

/-- `KeepBest(M, D)`: a candidate is kept if it is strictly longer than the best so far and acceptable (R94). -/
def keepBest (m : LenWord) (d : Word) (s : State) : State :=
  if m > s.w.best ∧ accept s.cfgWindow m.toNat d.toNat then { s with w := { s.w with best := m, dist := d } } else s

/-- One probe, of the entry at an index (R91): it reads `T` and the input and writes only `M`, `BEST`, `DIST`. -/
def probe (i : Word) (s : State) : Ran :=
  match s.w.table.read i.toNat with
  | none => .go s
  | some t =>
    match matchLen s t.toNat s.w.q.toNat s.w.matchMax.toNat with
    | .error e => .raised e s
    | .ok m => .go (keepBest (BitVec.ofNat 17 m) (s.w.q - t) { s with w := { s.w with m := BitVec.ofNat 17 m } })

/-- The four probes in order (R91). -/
def probes (s : State) : Ran :=
  (((probe s.w.h1 s).andThen (probe s.w.h2)).andThen (probe s.w.h3)).andThen (probe s.w.h4)

/-- After the probes, and whatever they found, all four entries take the scan position (R96). -/
def updateTable (s : State) : State :=
  let p := storedPos s.params.posBits s.w.q
  let t1 := s.w.table.write s.w.h1.toNat p
  let t2 := t1.write s.w.h2.toNat p
  let t3 := t2.write s.w.h3.toNat p
  { s with w := { s.w with table := t3.write s.w.h4.toNat p } }

/-- The match finder at a scan position (R98), for a hash function. -/
def matchFinder (hf : HashFn) (s : State) : Ran :=
  ((computeHashes hf (beginScan s)).andThen probes).andThen fun t => .go (updateTable t)

end Sys2Proof.Machine
end

