-- ==== Sys2Proof/Machine/Commands.lean ====
section
/-! DEFINITION. The steps of the two commands (spec/45_commands.md R135 to R146): one atomic step for each `PHASE`. -/

namespace Sys2Proof.Machine

/-- What the INIT step initialises before the header (R135): the table is cleared, the accumulator seeded with 1, the cursor and
the pending run set to 0, the output stream empty. -/
def initCommand (s : State) : State :=
  { s with
    w := { s.w with table := Table.empty, s1 := 1#16, s2 := 0#16, ckpos := 0#32, q := 0#32, litStart := 0#32 }, out := [] }

/-- COMPRESS, step INIT (R135), with the draw of R150 as an argument: `BadConfig` first, then the draw, then the header
(R155). -/
def initStep (drawFails : Bool) (s : State) : Ran :=
  if s.params.winField = .three ∧ 2 ^ 24 ≤ s.cfgWindow.toNat then .raised (.badConfig s.cfgWindow) s
  else if s.params.allocMayFail && drawFails then .go (enterResourceFailure s)
  else (emitHeader (initCommand s)).andThen fun t => .go { t with phase := .scan, fresh := t.fresh + 1 }

/-- The scan position becomes part of the pending literal run (R102, R104). -/
def literalByte (s : State) : State := { s with w := { s.w with q := s.w.q + 1#32 } }

/-- `Q <- Q + BEST; LIT_START <- Q` (R103). -/
def advanceMatch (s : State) : State :=
  { s with w := { s.w with q := s.w.q + s.w.best.setWidth 32, litStart := s.w.q + s.w.best.setWidth 32 } }

/-- An accepted match of a class: the pending run is flushed, the cursor advanced, the opcode emitted, in that order (R103). -/
def takeMatch (cls : MatchClass) (s : State) : Ran :=
  let best := BitVec.ofNat 17 (clampLen s.params cls s.w.best.toNat)
  let s0 := { s with w := { s.w with best := best } }
  (emitLiterals s.w.litStart.toNat (s.w.q.toNat - s.w.litStart.toNat) s0).andThen fun t =>
    emitMatch cls best.toNat s.w.dist.toNat (advanceMatch t)

/-- The selector half of a SCAN step (R108): a literal byte (R102, R104) or a match (R103). -/
def select (s : State) : Ran :=
  if s.w.best.toNat < 3 then .go (literalByte s)
  else
    match route s.w.best.toNat s.w.dist.toNat with
    | some cls => takeMatch cls s
    | none => .go (literalByte s)

/-- COMPRESS, step SCAN (R136), for a hash function. -/
def scanStepWith (hf : HashFn) (s : State) : Ran :=
  if s.atScanPosition then ((matchFinder hf s).andThen select).andThen foldToCursor
  else .go { s with phase := .flush }

/-- COMPRESS, step FLUSH (R138). -/
def flushStep (s : State) : Ran :=
  ((foldToCursor { s with w := { s.w with q := s.inLen } }).andThen fun t =>
    emitLiterals t.w.litStart.toNat (t.inLen.toNat - t.w.litStart.toNat) t).andThen fun t =>
      .go { t with w := { t.w with litStart := t.inLen }, phase := .trailer }

/-- COMPRESS, step TRAILER (R139). -/
def trailerStep (s : State) : Ran := (emitEnd s.w.ck s).andThen fun t => .go { t with phase := .done }

/-- COMPRESS, step DONE (R140): the results, then `PHASE`, and `STATUS` last; the working registers become unspecified. -/
def doneStep (s : State) : State :=
  { forgetWork s with resultLen := s.outLen, resultChk := s.w.ck, phase := .idle, status := .doneOk }

/-- CHECKSUM, step SUM (R143): the working registers become unspecified after it (U7). -/
def sumStepCommand (s : State) : Ran :=
  let s0 := setCk s.argSeed s
  (fold 0 s.inLen.toNat { s0 with w := { s0.w with ckpos := 0#32 } }).andThen fun t =>
    .go { forgetWork t with resultChk := t.w.ck, phase := .idle, status := .doneOk }

/-- The step the engine takes for its `PHASE` (R146), for a hash function: none when idle. A raise is taken as a fault (R156). -/
def engineStepWith (hf : HashFn) (s : State) : State :=
  match s.phase with
  | .idle => s
  | .init => (initStep (Config.allocFails s.fresh) s).settle
  | .scan => (scanStepWith hf s).settle
  | .flush => (flushStep s).settle
  | .trailer => (trailerStep s).settle
  | .done => doneStep s
  | .sum => (sumStepCommand s).settle

/-- The engine's step with the hash cascade of this hardware (R7 `HASH_FN`, R82 to R89). -/
def engineStep (s : State) : State := engineStepWith hashCascade s

end Sys2Proof.Machine
end

