-- ==== Sys2Proof/Machine/Flags.lean ====
section
/-! DEFINITION. There are no flags or condition codes (spec/10_state.md R39): the one condition visible outside a step is `STATUS`.
Here stand its codes, the codes of `CMD` (spec/60_exceptions.md R149), and which registers hold a value for the outcome it
shows (R22, R23, R174). -/

namespace Sys2Proof.Machine

/-- The code of a `STATUS` value (R149). -/
def Status.code : Status → BitVec 3
  | .idle => 0#3
  | .busy => 1#3
  | .doneOk => 2#3
  | .doneFail => 3#3
  | .fault => 4#3

/-- The command of a `CMD` value; every other value is none (R149). -/
def Command.ofCode (v : Byte) : Option Command :=
  if v = 0x01#8 then some .compress else if v = 0x02#8 then some .checksum else none

/-- The first step of a command (R133). -/
def Command.firstPhase : Command → Phase
  | .compress => .init
  | .checksum => .sum

/-- `RESULT_LEN` holds a value: after a COMPRESS that completed or ended in the resource-failure outcome (R22, U11). -/
def State.resultLenValid (s : State) : Bool :=
  (s.status == .doneOk && s.lastCmd == some .compress) || s.status == .doneFail

/-- `RESULT_CHK` holds a value: after a command that completed (R22, U11). -/
def State.resultChkValid (s : State) : Bool := s.status == .doneOk

/-- `EXC_CODE` and `EXC_INFO` hold a value (R23). -/
def State.excValid (s : State) : Bool := s.status == .fault || s.status == .doneFail

/-- The output sink holds a frame: after `DONE_OK` of a COMPRESS (R173). DEDUCED (log 26): not after a later CHECKSUM, though that
appends nothing (R143). -/
def State.frameValid (s : State) : Bool := s.status == .doneOk && s.lastCmd == some .compress

/-- The bytes of the output sink that are defined: the frame after `DONE_OK` of a COMPRESS, and after an `OutputOverflow` what
was appended (R151, R173). -/
def State.definedSink (s : State) : List Byte :=
  if s.frameValid then s.out.take s.resultLen.toNat
  else if s.status == .fault && s.excCode == 0x02#8 then s.out.take s.excInfo.toNat
  else []

end Sys2Proof.Machine
end

