-- ==== Sys2Proof/Machine/HostInterface.lean ====
section
/-! DEFINITION. The host's moves (spec/70_reset_and_hazards.md R177): register writes and reads, placing input, starting a
command, reading the output sink, reset; and what each refuses (spec/60_exceptions.md R154). -/

namespace Sys2Proof.Machine

/-- A refused host action: it changes nothing, and the run keeps its first mark (R154). -/
def refuse (why : HostRefusal) (s : State) : State :=
  { s with refusedMark := s.refusedMark.orElse fun _ => some why, reply := .nothing }

/-- A register write the host may make only when no command is in progress (R18, R19). -/
def writeUnlessBusy (why : HostRefusal) (s : State) (write : State → State) : State :=
  if s.status = .busy then refuse why s else { write s with reply := .nothing }

/-- A write of `CFG_HASH_BITS`: refused while `BUSY` (R154 item 3), and for a value above 32 (R154 item 4). -/
def writeHashBits (v : BitVec 6) (s : State) : State :=
  if s.status = .busy then refuse .configWriteWhileBusy s
  else if v.toNat > Config.hashBitsMax then refuse .hashBitsAboveMax s
  else { s with cfgHashBits := v, reply := .nothing }

/-- *start* (R133): the engine takes the command atomically, and the results become unspecified until it completes. -/
def startCommand (s : State) : State :=
  if s.status = .busy then refuse .startWhileBusy s
  else
    match Command.ofCode s.cmd with
    | none => refuse .unknownCommand s
    | some c =>
      { forgetExc (forgetResults s) with
        status := .busy, inLen := s.argLen, phase := c.firstPhase, lastCmd := some c, reply := .nothing }

/-- Reset (R166), also during a command (R167): the engine takes its reset state. The input space, the reader and the marks of the
run are not the engine's registers and stay (log 7). -/
def resetEngine (s : State) : State :=
  { State.reset with
    params := s.params, input := s.input, rd := s.rd, agenda := s.agenda, refusedMark := s.refusedMark,
    faultMark := s.faultMark, fresh := s.fresh }

/-- Placing input bytes (R169): only when no command is in progress (R171), and inside the input space (R42). -/
def placeInput (p : Word) (bs : List Byte) (s : State) : Host.Outcome State Fault Refusal :=
  if s.status = .busy then .refused .inputWriteWhileBusy
  else if p.toNat + bs.length ≤ s.params.lenMax then
    .next { s with input := s.input.writeAll p.toNat bs, reply := .nothing }
  else .refused .positionOutsideInputSpace

/-- A read of a result or exception register: one that holds no value for the outcome shown is a fault (R174, U6). -/
def readResult (valid : Bool) (v : CountWord) (s : State) : Host.Outcome State Fault Refusal :=
  if valid then .next { s with reply := .value v } else .fault .registerHoldsNoValue

/-- A read of a configuration register: not while `BUSY` (R40). -/
def readConfig (v : CountWord) (s : State) : Host.Outcome State Fault Refusal :=
  if s.status = .busy then .refused .configReadWhileBusy else .next { s with reply := .value v }

/-- A byte of the sink as the host reads it: one the spec leaves unspecified is a free value (R173, U8). -/
def sinkByte (s : State) (k : Nat) : Byte := s.definedSink.getD k (Config.freeBits 8 s.fresh (19 + k))

/-- How many bytes a read of `OUT[0 .. RESULT_LEN)` gives: a free count where `RESULT_LEN` holds no value (R22, U8, U11). -/
def frameLength (s : State) : Nat :=
  if s.resultLenValid then s.resultLen.toNat else (Config.freeBits 33 s.fresh 18).toNat

/-- Reading the sink as a whole, `OUT[0 .. RESULT_LEN)` (R170, R177): no move while `BUSY`. After `DONE_OK` of a COMPRESS it is the
frame; at any other time the read gives bytes, those the spec leaves unspecified being free values (R173, U8). -/
def readFrame (s : State) : Host.Outcome State Fault Refusal :=
  if s.status = .busy then .refused .sinkReadWhileBusy
  else if s.frameValid then .next { s with reply := .bytes s.definedSink }
  else .next { s with reply := .bytes ((List.range (frameLength s)).map (sinkByte s)), fresh := s.fresh + 1 }

/-- Reading one byte of the sink (R173, U8): no move while `BUSY`. -/
def readSinkByte (k : CountWord) (s : State) : Host.Outcome State Fault Refusal :=
  if s.status = .busy then .refused .sinkReadWhileBusy
  else if k.toNat < s.definedSink.length then .next { s with reply := .bytes [sinkByte s k.toNat] }
  else .next { s with reply := .bytes [sinkByte s k.toNat], fresh := s.fresh + 1 }

/-- Hand a frame to the reader: its header comes next (R73, R124). -/
def giveFrame (bs : List Byte) (s : State) : State :=
  { s with rd := { Reader.reset with phase := .header, src := bs }, reply := .nothing }

/-- One move of the host (R177). -/
def hostMove (mv : HostMove) (s : State) : Host.Outcome State Fault Refusal :=
  match mv with
  | .writeCfgWindow v => .next (writeUnlessBusy .configWriteWhileBusy s fun t => { t with cfgWindow := v })
  | .writeCfgHashBits v => .next (writeHashBits v s)
  | .writeCmd v => .next (writeUnlessBusy .argumentWriteWhileBusy s fun t => { t with cmd := v })
  | .writeArgLen v => .next (writeUnlessBusy .argumentWriteWhileBusy s fun t => { t with argLen := v })
  | .writeArgSeed v => .next (writeUnlessBusy .argumentWriteWhileBusy s fun t => { t with argSeed := v })
  | .writeArgOutCap v => .next (writeUnlessBusy .argumentWriteWhileBusy s fun t => { t with argOutCap := v })
  | .placeInput p bs => placeInput p bs s
  | .start => .next (startCommand s)
  | .readStatus => .next { s with reply := .status s.status.code }
  | .readCfgWindow => readConfig (s.cfgWindow.setWidth 33) s
  | .readCfgHashBits => readConfig (s.cfgHashBits.setWidth 33) s
  | .readResultLen => readResult s.resultLenValid s.resultLen s
  | .readResultChk => readResult s.resultChkValid (s.resultChk.setWidth 33) s
  | .readExcCode => readResult s.excValid (s.excCode.setWidth 33) s
  | .readExcInfo => readResult s.excValid s.excInfo s
  | .readFrame => readFrame s
  | .readSinkByte k => readSinkByte k s
  | .reset => .next (resetEngine s)
  | .giveFrame bs => .next (giveFrame bs s)

end Sys2Proof.Machine
end

