-- ==== Sys2Proof/Machine/Operands.lean ====
section
/-! DEFINITION. The two operand forms of a token as a reader applies them to its output sequence `O` (spec/42_opcode_encoder.md
R111): a run of literal bytes, and a copy of `length` bytes from `distance` back. -/

namespace Sys2Proof.Machine

/-- A literal token appends its literal bytes to `O` (R111). -/
def appendRun (lits : List Byte) (s : State) : State := { s with rd := { s.rd with o := s.rd.o ++ lits } }

/-- `for i in 0 .. len-1: O.append(O[|O| - dist])`, one byte at a time, so that a copy longer than its distance reads bytes the
same token has just appended (R111). -/
def copyBack (dist : Nat) : Nat → List Byte → List Byte
  | 0, o => o
  | len + 1, o => copyBack dist len (o ++ [o.getD (o.length - dist) 0#8])

/-- A match token is valid only if `1 <= distance <= |O|` (R111); any other is a fault of the reader (U15). -/
def copyMatch (len dist : Nat) (s : State) : Host.Outcome State Fault Refusal :=
  if 1 ≤ dist ∧ dist ≤ s.rd.o.length then .next { s with rd := { s.rd with o := copyBack dist len s.rd.o } }
  else .fault .distanceBeyondOutput

end Sys2Proof.Machine
end

