-- ==== Sys2Proof/Machine/Literal.lean ====
section
/-! DEFINITION. The literal family SLIT, MLIT, LLIT: what a reader of the frame does with the token
(spec/42_opcode_encoder.md R111, R112 to R114). What the engine appends for one is `emitSlit`, `emitMlit`, `emitLlit` in
Machine/Encoder.lean. -/

namespace Sys2Proof.Machine

/-- SLIT: append the literal bytes (R111, R112). -/
def execSlit (lits : List Byte) (s : State) : Host.Outcome State Fault Refusal := .next (appendRun lits s)

/-- MLIT: append the literal bytes (R111, R113). -/
def execMlit (lits : List Byte) (s : State) : Host.Outcome State Fault Refusal := .next (appendRun lits s)

/-- LLIT: append the literal bytes (R111, R114). -/
def execLlit (lits : List Byte) (s : State) : Host.Outcome State Fault Refusal := .next (appendRun lits s)

end Sys2Proof.Machine
end

