-- ==== Sys2Proof/Machine/Match.lean ====
section
/-! DEFINITION. The match family SMAT, MMAT, LMATA, LMATB, XMAT1, XMAT2: what a reader of the frame does with the token
(spec/42_opcode_encoder.md R111, R115 to R120). What the engine appends for one is in Machine/Encoder.lean. -/

namespace Sys2Proof.Machine

/-- SMAT: copy `len` bytes from `dist` back (R111, R115). -/
def execSmat (len dist : Nat) (s : State) : Host.Outcome State Fault Refusal := copyMatch len dist s

/-- MMAT: copy `len` bytes from `dist` back (R111, R116). -/
def execMmat (len dist : Nat) (s : State) : Host.Outcome State Fault Refusal := copyMatch len dist s

/-- LMATA: copy `len` bytes from `dist` back (R111, R117). -/
def execLmata (len dist : Nat) (s : State) : Host.Outcome State Fault Refusal := copyMatch len dist s

/-- LMATB: copy `len` bytes from `dist` back (R111, R118). -/
def execLmatb (len dist : Nat) (s : State) : Host.Outcome State Fault Refusal := copyMatch len dist s

/-- XMAT1: copy `len` bytes from `dist` back (R111, R119). -/
def execXmat1 (len dist : Nat) (s : State) : Host.Outcome State Fault Refusal := copyMatch len dist s

/-- XMAT2: copy `len` bytes from `dist` back (R111, R120). -/
def execXmat2 (len dist : Nat) (s : State) : Host.Outcome State Fault Refusal := copyMatch len dist s

end Sys2Proof.Machine
end

