-- ==== Sys2Proof/Machine/Trailer.lean ====
section
/-! DEFINITION. The trailer END: what a reader of the frame does with it (spec/42_opcode_encoder.md R111, R121). What the engine
appends for it is `emitEnd` in Machine/Encoder.lean. -/

namespace Sys2Proof.Machine

/-- END: the frame ends. The reader checks the decoded length against the header's, the checksum of the decoded bytes against the
trailer's (R111, U15), and that nothing follows (R124, U16), in this order (log 11). -/
def execEnd (chk : Word) (s : State) : Host.Outcome State Fault Refusal :=
  if s.rd.o.length ≠ s.rd.len.toNat then .fault .frameLengthMismatch
  else if checksum s.params 1#32 s.rd.o ≠ chk then .fault .frameChecksumMismatch
  else if s.rd.src ≠ [] then .fault .trailingBytes
  else .next { s with rd := { s.rd with phase := .ended } }

end Sys2Proof.Machine
end

