-- ==== Sys2Proof/Machine/Dispatch.lean ====
section
/-! DEFINITION. The meaning of every instruction: one arm per constructor of `Instr`. -/

namespace Sys2Proof.Machine

/-- The effect of one token on the reader that decodes it (R3, R111). -/
def exec (i : Instr) (s : State) : Host.Outcome State Fault Refusal :=
  match i with
  | .slit lits => Sys2Proof.Machine.execSlit lits s
  | .mlit lits => Sys2Proof.Machine.execMlit lits s
  | .llit lits => Sys2Proof.Machine.execLlit lits s
  | .smat len dist => Sys2Proof.Machine.execSmat len dist s
  | .mmat len dist => Sys2Proof.Machine.execMmat len dist s
  | .lmata len dist => Sys2Proof.Machine.execLmata len dist s
  | .lmatb len dist => Sys2Proof.Machine.execLmatb len dist s
  | .xmat1 len dist => Sys2Proof.Machine.execXmat1 len dist s
  | .xmat2 len dist => Sys2Proof.Machine.execXmat2 len dist s
  | .endFrame chk => Sys2Proof.Machine.execEnd chk s

end Sys2Proof.Machine
end

