-- ==== Sys2Proof/Machine/Reading.lean ====
section
/-! DEFINITION. The reader's turn: its header by position, then one token at a time, fetched from the front of the stream and run
(spec/30_encoding.md R71 to R77, spec/42_opcode_encoder.md R111). -/

namespace Sys2Proof.Machine

/-- The header's size in bytes (R71, R126). -/
def headerSize (ps : Params) : Nat := 2 + ps.rsvBytes + 4 + ps.winField.bytes

/-- The reader takes the header, the first bytes of the frame (R71, R73): signature and reserved field are checked (log 11), the
length and the window are kept. -/
def readHeader (s : State) : Host.Outcome State Fault Refusal :=
  let n := headerSize s.params
  if s.rd.src.length < n then .fault .truncatedFrame
  else
    let hd := s.rd.src.take n
    let len := BitVec.ofNat 32 (beNat ((hd.drop (2 + s.params.rsvBytes)).take 4))
    let window := BitVec.ofNat 32 (beNat (hd.drop (2 + s.params.rsvBytes + 4)))
    if hd = headerBytes s.params len window then
      .next { s with rd := { phase := .tokens, src := s.rd.src.drop n, len := len, window := window, o := [] } }
    else .fault .badHeader

/-- The reader fetches the next token and runs it: reserved bytes and a frame that ends early are faults (R77, U12, U13), and a
spelling the engine never emits is refused where the parameter says so (U14). -/
def readToken (s : State) : Host.Outcome State Fault Refusal :=
  match decode s.params s.rd.src with
  | .error (.reserved b0) => .fault (.reservedOpcode b0)
  | .error .truncated => .fault .truncatedFrame
  | .ok (i, rest) =>
    if s.params.acceptNoncanonical || canonical i then exec i { s with rd := { s.rd with src := rest } }
    else .refused .nonCanonicalToken

/-- The reader's turn: nothing without a frame, or after its end. -/
def readerTurn (s : State) : Host.Outcome State Fault Refusal :=
  match s.rd.phase with
  | .none => .next s
  | .header => readHeader s
  | .tokens => readToken s
  | .ended => .next s

end Sys2Proof.Machine
end

