-- ==== Sys2Proof/Machine/Turns.lean ====
section
/-! DEFINITION. Which agent acts in a step (spec/10_state.md R15, log 2), and its turn. -/

namespace Sys2Proof.Machine

/-- Who acts next: as the agenda says; where it says nothing, the engine while a command is in progress, else the reader. -/
def nextTurn (s : State) : Turn :=
  match s.agenda with
  | t :: _ => t
  | [] => if s.phase = .idle then .reader else .engine

/-- The state with its next turn taken off the agenda. -/
def dropTurn (s : State) : State := { s with agenda := s.agenda.tail }

/-- One turn of an agent, the engine's with a hash function. -/
def takeTurnWith (hf : HashFn) (t : Turn) (s : State) : Host.Outcome State Fault Refusal :=
  match t with
  | .host mv => hostMove mv s
  | .engine => .next (engineStepWith hf s)
  | .reader => readerTurn s

/-- The reader is about to fetch the instruction in these bytes, in the very next step (log 8). -/
def withNextToken (bs : List Byte) (s : State) : State :=
  { s with rd := { s.rd with phase := .tokens, src := bs }, agenda := .reader :: s.agenda }

end Sys2Proof.Machine
end

