-- ==== Sys2Proof/Machine/Step.lean ====
section
/-! DEFINITION. One step of the machine: the turn of the agent that acts next. -/

namespace Sys2Proof.Machine

/-- One step of a machine with another hash function (R7 `HASH_FN`, U17). -/
def stepWith (hf : HashFn) (s : State) : Host.Outcome State Fault Refusal := takeTurnWith hf (nextTurn s) (dropTurn s)

/-- One step, with the hash cascade of this hardware. -/
def step (s : State) : Host.Outcome State Fault Refusal := stepWith hashCascade s

/-- The state in which the very next step fetches and runs the instruction whose table-numbered bits are `w` (log 8). -/
def State.withFetchWord (s : State) (nbits w : Nat) : State := withNextToken (tableBytes nbits w) s

end Sys2Proof.Machine
end

