-- ==== Sys2Proof/Safety.lean ====
section
/-! DEFINITION. What counts as a safe run, in the terms claims use: the invariants of a command (spec/45_commands.md R142), the
frame the output is part of, the size bound (R144) and the steps a command may still take (R145). -/

namespace Sys2Proof.Machine

/-- A COMPRESS command is past its INIT step (R142). -/
def State.afterInit (s : State) : Prop :=
  s.phase = .scan ∨ s.phase = .flush ∨ s.phase = .trailer ∨ s.phase = .done

/-- What holds of the cursor, the accumulator, the table and the output at every step boundary after INIT (R142 items 1 to 3;
R138; R43). -/
structure CursorInv (s : State) : Prop where
  /-- R142 item 1. -/
  lit_le : s.w.litStart.toNat ≤ s.w.q.toNat
  /-- R142 item 1. -/
  q_le : s.w.q.toNat ≤ s.inLen.toNat
  /-- R142 item 2. -/
  ckpos_eq : s.w.ckpos = s.w.q
  /-- R142 item 2. -/
  ck_eq : s.w.ck = checksum s.params 1#32 (inputBytes s 0 s.w.q.toNat)
  /-- R142 item 3: an entry that is not `EMPTY` is an earlier scan position (R80, R92). -/
  table_lt : ∀ c ∈ s.w.table, c.2.toNat < s.w.q.toNat ∧ c.2.toNat + (s.params.lookahead - 1) < s.inLen.toNat
  /-- The output stays within its capacity (R43). -/
  out_le : s.out.length ≤ s.argOutCap.toNat
  /-- FLUSH is entered when the cursor is no longer a scan position (R138). -/
  flush_tail : s.phase = .flush → s.inLen.toNat ≤ s.w.q.toNat + (s.params.lookahead - 1)
  /-- After FLUSH the whole input has been taken (R138). -/
  at_end : s.phase = .trailer ∨ s.phase = .done → s.w.q = s.inLen ∧ s.w.litStart = s.inLen

/-- The invariant of the machine: legal parameters, stores in canonical form, a legal configuration, `STATUS` and `PHASE` in
agreement (R25, R133, R146), and after INIT the invariant of the command. -/
structure EngineInv (s : State) : Prop where
  params_legal : s.params.Legal
  input_wf : s.input.wf s.params.lenMax
  table_rising : Rising s.w.table
  hash_bits_le : s.cfgHashBits.toNat ≤ Config.hashBitsMax
  busy_iff : s.status = .busy ↔ s.phase ≠ .idle
  command : s.phase = .init ∨ s.afterInit → s.lastCmd = some .compress
  command_sum : s.phase = .sum → s.lastCmd = some .checksum
  cursor : s.afterInit → CursorInv s

/-- Reading tokens one after another. -/
def runTokens : List Instr → State → Host.Outcome State Fault Refusal
  | [], s => .next s
  | i :: is, s =>
    match exec i s with
    | .next t => runTokens is t
    | .fault f => .fault f
    | .refused r => .refused r

/-- The bytes from `b0` on are no token by R77: `b0` is one of the first bytes no opcode takes, or it is `END0` and `END1`
does not follow. With the default `END0` the first bytes are 0x00 to 0x03. -/
def ReservedBytes (ps : Params) (b0 : Byte) (r : List Byte) : Prop :=
  (b0.toNat < 6 ∧ b0 ≠ 0x04#8 ∧ b0 ≠ ps.end0) ∨ (b0 = ps.end0 ∧ ∃ b1 r', r = b1 :: r' ∧ b1 ≠ ps.end1)

/-- `BOUND(L)`: the sink size that guarantees no overflow (R144). -/
def sinkBound (len : Nat) : Nat := len + 512 + len / 4 + 4

/-- The literal bytes that belong to a token (R74). -/
def tokenPayload : Instr → List Byte
  | .slit lits => lits
  | .mlit lits => lits
  | .llit lits => lits
  | .smat _ _ => []
  | .mmat _ _ => []
  | .lmata _ _ => []
  | .lmatb _ _ => []
  | .xmat1 _ _ => []
  | .xmat2 _ _ => []
  | .endFrame _ => []

/-- How many decoded bytes a token stands for (R111). -/
def tokenSpan : Instr → Nat
  | .slit lits => lits.length
  | .mlit lits => lits.length
  | .llit lits => lits.length
  | .smat len _ => len
  | .mmat len _ => len
  | .lmata len _ => len
  | .lmatb len _ => len
  | .xmat1 len _ => len
  | .xmat2 len _ => len
  | .endFrame _ => 0

/-- The window fits the header's window field (R71, R152): the INIT step raises no `BadConfig`. -/
def State.windowFits (s : State) : Prop := s.params.winField = .four ∨ s.cfgWindow.toNat < 2 ^ 24

/-- The sink has the size that guarantees no overflow (R144, R169). -/
def State.sinkSuffices (s : State) : Prop := sinkBound s.inLen.toNat ≤ s.argOutCap.toNat

/-- So many steps of the engine with a hash function, with no turn of the host or the reader between them (R133). -/
def engineRunWith (hf : HashFn) : Nat → State → State
  | 0, s => s
  | n + 1, s => engineRunWith hf n (engineStepWith hf s)

/-- So many steps of the engine of this hardware. -/
def engineRun (n : Nat) (s : State) : State := engineRunWith hashCascade n s

/-- So many turns of the reader. -/
def readerRun : Nat → State → Host.Outcome State Fault Refusal
  | 0, s => .next s
  | n + 1, s =>
    match readerTurn s with
    | .next t => readerRun n t
    | .fault f => .fault f
    | .refused r => .refused r

/-- A reader that is given this frame reads it to its end, and what it decodes is this sequence (R111, R177). -/
def Decodes (params : Params) (frame decoded : List Byte) : Prop :=
  ∀ s : State, s.params = params → ∃ n t, readerRun n (giveFrame frame s) = .next t ∧ t.rd.phase = .ended ∧ t.rd.o = decoded

/-- The state with a given decoded sequence. -/
def State.withDecoded (s : State) (o : List Byte) : State := { s with rd := { s.rd with o := o } }

/-- The tokens a command emitted so far, and what they decode to: `OUT` is the header followed by them (and by END once the
trailer is written), each is a token the engine emits, and they decode to exactly the input up to `LIT_START` (R142 items 4
and 5, R75). -/
structure FrameOf (s : State) (toks : List Instr) : Prop where
  window_fits : s.cfgWindow.toNat < 256 ^ s.params.winField.bytes
  out_eq : s.out = headerBytes s.params s.inLen s.cfgWindow ++ tokenBytes s.params toks ++
    (if s.phase = .done then encode s.params (.endFrame s.w.ck) else [])
  tokens_ok : ∀ i ∈ toks, i.wf = true ∧ canonical i = true ∧ ∀ c, i ≠ .endFrame c
  decodes : runTokens toks (s.withDecoded []) = .next (s.withDecoded (inputBytes s 0 s.w.litStart.toNat))

/-- After INIT the output is part of a frame that decodes to the input so far (R142 items 4 and 5). -/
def FrameInv (s : State) : Prop := s.afterInit → ∃ toks, FrameOf s toks

/-- The tighter size bound at every step boundary (R144): every match pays for itself and for the runs before it. -/
def SizeInv (s : State) : Prop :=
  (s.phase = .scan ∨ s.phase = .flush →
    s.out.length ≤ headerSize s.params + s.w.litStart.toNat + s.w.litStart.toNat / 33) ∧
  (s.phase = .trailer → s.out.length ≤ headerSize s.params + s.inLen.toNat + s.inLen.toNat / 33 + 3) ∧
  (s.phase = .done → s.out.length ≤ headerSize s.params + 6 + s.inLen.toNat + s.inLen.toNat / 33 + 3)

/-- How many steps a command may still take (R145). -/
def State.stepsLeft (s : State) : Nat :=
  match s.phase with
  | .idle => 0
  | .init => s.inLen.toNat - (s.params.lookahead - 1) + 5
  | .scan => s.inLen.toNat - (s.params.lookahead - 1) - s.w.q.toNat + 4
  | .flush => 3
  | .trailer => 2
  | .done => 1
  | .sum => 1

/-- A probe of the table at index `i` finds an acceptable candidate: the entry is the position `p`, it agrees with the scan position
over `m` bytes and no more up to `max`, and the policy accepts it (R91, R93, R94). -/
def Candidate (s : State) (max : Nat) (i p : Word) (m : Nat) : Prop :=
  s.w.table.read i.toNat = some p ∧ matchLen s p.toNat s.w.q.toNat max = .ok m ∧
  accept s.cfgWindow m (s.w.q.toNat - p.toNat) = true

/-- What `BEST` and `DIST` are after probing these indices in their order: no candidate where none is acceptable, else the first of
the longest acceptable ones (R91, R94, R97). -/
def BestOf (s : State) (max : Nat) (indices : List Word) (best : LenWord) (dist : Word) : Prop :=
  (best = 2#17 ∧ dist = 0#32 ∧ ∀ i ∈ indices, ∀ p m, ¬ Candidate s max i p m) ∨
  (∃ (k : Nat) (i p : Word), indices[k]? = some i ∧ Candidate s max i p best.toNat ∧ dist = s.w.q - p ∧
    ∀ (j : Nat) (i' p' : Word) (m : Nat), indices[j]? = some i' → Candidate s max i' p' m →
      m ≤ best.toNat ∧ (j < k → m < best.toNat))

/-- Two machines run the same command: they agree on its phase, configuration, arguments and input, on the draw of R150 where it is
still to come, and, once the command has set them, on the registers and stores it carries from step to step. Nothing an earlier
command left is compared, the count of free values and the bytes past the input among it (R168). -/
structure SameCommand (s t : State) : Prop where
  params : s.params = t.params
  cfgWindow : s.cfgWindow = t.cfgWindow
  cfgHashBits : s.cfgHashBits = t.cfgHashBits
  argSeed : s.phase = .sum → s.argSeed = t.argSeed
  argOutCap : s.argOutCap = t.argOutCap
  inLen : s.inLen = t.inLen
  input : ∀ a, a < s.inLen.toNat → s.input.read a = t.input.read a
  phase : s.phase = t.phase
  status : s.status = t.status
  lastCmd : s.lastCmd = t.lastCmd
  draw : s.phase = .init → s.params.allocMayFail = true → Config.allocFails s.fresh = Config.allocFails t.fresh
  carried : s.afterInit → s.w.q = t.w.q ∧ s.w.litStart = t.w.litStart ∧ s.w.table = t.w.table ∧ s.w.s1 = t.w.s1 ∧
    s.w.s2 = t.w.s2 ∧ s.w.ckpos = t.w.ckpos ∧ s.out = t.out

/-- A host action without effect but for the mark it leaves, the first of the run (R154). -/
def refusedWith (why : HostRefusal) (s : State) : Host.Outcome State Fault Refusal :=
  .next { s with refusedMark := some (s.refusedMark.getD why), reply := .nothing }

/-- A host read that gives this value and changes nothing. -/
def givesValue (v : CountWord) (s : State) : Host.Outcome State Fault Refusal := .next { s with reply := .value v }

/-- What the host can read of two machines is the same (R164, R174): the status, the registers that hold a value, and the
defined bytes of the output sink. -/
structure SameResults (s t : State) : Prop where
  status : s.status = t.status
  resultLen : s.resultLenValid = true → s.resultLen = t.resultLen
  resultChk : s.resultChkValid = true → s.resultChk = t.resultChk
  exc : s.excValid = true → s.excCode = t.excCode ∧ s.excInfo = t.excInfo
  sink : s.definedSink = t.definedSink

/-- A run that kept no mark: no host action was refused and no command faulted (R154, R156). -/
def State.unmarked (s : State) : Prop := s.refusedMark = none ∧ s.faultMark = none

end Sys2Proof.Machine
end

