-- ==== Sys2Proof/Certificates/Slice0/Obligations.lean ====
section
/-! DEFINITION. The statements for the provers. Each docstring names the rule of spec/ it formalises. A statement about an engine
step says `engineStep s`, the step the engine takes in its turn; a statement about any turn says `step s`. -/

section

open Sys2Proof Sys2Proof.Machine

/-! ### The encoding -/

/-- One word of each format, written out from the formats of R61 to R70 and the vectors V5, decodes to its token, and the bytes
after it are left. -/
def Obligations.SampleTokenBytesDecode : Prop :=
  decode Config.params [0x23#8, 0x41#8, 0x42#8, 0x43#8, 0x44#8, 0xBF#8] = .ok (.slit [0x41#8, 0x42#8, 0x43#8, 0x44#8], [0xBF#8]) ∧
  decode Config.params ([0x08#8, 0x20#8] ++ List.replicate 33 0x61#8) = .ok (.mlit (List.replicate 33 0x61#8), []) ∧
  decode Config.params [0x07#8, 0x00#8, 0x01#8, 0x61#8, 0x62#8] = .ok (.llit [0x61#8, 0x62#8], []) ∧
  decode Config.params [0xBF#8, 0x03#8] = .ok (.smat 64 4, []) ∧
  decode Config.params [0x41#8, 0x2B#8, 0x05#8, 0x2B#8] = .ok (.mmat 6 300, [0x2B#8]) ∧
  decode Config.params [0x18#8, 0x4E#8, 0x1F#8, 0x26#8] = .ok (.lmata 39 20000, []) ∧
  decode Config.params [0x10#8, 0x4E#8, 0x1F#8, 0x01#8, 0x2A#8] = .ok (.lmatb 299 20000, []) ∧
  decode Config.params [0x06#8, 0x08#8, 0x00#8, 0x00#8, 0x09#8] = .ok (.xmat1 10 524289, []) ∧
  decode Config.params [0x04#8, 0x08#8, 0x00#8, 0x00#8, 0x01#8, 0x00#8] = .ok (.xmat2 257 524289, []) ∧
  decode Config.params [0x05#8, 0xFA#8, 0x61#8, 0x76#8, 0x11#8, 0xAB#8] = .ok (.endFrame 0x617611AB#32, [])

/-- No two rows of the opcode table match the same first two bytes (R72: the ranges are disjoint). -/
def Obligations.OpcodeRowsDisjoint : Prop :=
  opcodeRows.Pairwise fun r q => ∀ b0 b1 : Byte, ¬ (r.matches b0 b1 = true ∧ q.matches b0 b1 = true)

/-- Bytes that match a row of spec/opcode_table.json decode to an instruction of that row, unless they end inside it (R72). -/
def Obligations.DecodeFollowsOpcodeTable : Prop :=
  ∀ (b0 b1 : Byte) (r : List Byte), ∀ row ∈ opcodeRows, row.matches b0 b1 = true →
    decode Config.params (b0 :: b1 :: r) = .error .truncated ∨
    ∃ i rest, decode Config.params (b0 :: b1 :: r) = .ok (i, rest) ∧ i.mnemonic = row.mnemonic

/-- Decode and encode agree: every well-formed instruction, whatever follows it in the stream, is read back (R60 to R70, R74),
for every legal choice of the parameters. -/
def Obligations.DecodeEncodeRoundTrip : Prop :=
  ∀ (ps : Params) (i : Instr) (rest : List Byte), ps.Legal → i.wf = true →
    decode ps (encode ps i ++ rest) = .ok (i, rest)

/-- What decodes is well-formed, and has no other spelling than the bytes it was read from (R59, R60). -/
def Obligations.EncodeDecodeRoundTrip : Prop :=
  ∀ (ps : Params) (bs rest : List Byte) (i : Instr), decode ps bs = .ok (i, rest) → i.wf = true ∧ encode ps i ++ rest = bs

/-- A token's length is known from its first byte and, for MLIT and LLIT, its run field (R72, R73). -/
def Obligations.TokenSizeFromOpcode : Prop :=
  ∀ (ps : Params) (b0 : Byte) (r rest : List Byte) (i : Instr), decode ps (b0 :: r) = .ok (i, rest) →
    (b0 :: r).length = i.opcodeBytes + announcedRun (b0 :: r) + rest.length ∧
    i.literalBytes = announcedRun (b0 :: r) ∧
    i.opcodeBytes =
      (if 0x80 ≤ b0.toNat then 2 else if 0x40 ≤ b0.toNat then 3 else if 0x20 ≤ b0.toNat then 1
       else if 0x18 ≤ b0.toNat then 4 else if 0x10 ≤ b0.toNat then 5 else if 0x08 ≤ b0.toNat then 2
       else if b0.toNat = 0x07 then 3 else if b0.toNat = 0x06 then 5 else 6)

/-! ### The reader: fetching and running tokens -/

/-- A step is the turn of the agent that acts next, and nothing else of the machine moves in it: the engine's step for its `PHASE`,
or the host's move (R15, R146); a turn of the reader is `exec` of the token its stream begins with, at the state where the stream
is past the token. A spelling the engine never emits is refused where `ACCEPT_NONCANONICAL` is false (U14); that these are the
spellings that are not `canonical`, some of which R76 does not list, is the model's choice (log 10), and so is the agenda that
says who acts next (log 2). -/
def Obligations.StepRunsDecodedToken : Prop :=
  (∀ s : State, nextTurn s = .engine → step s = .next (engineStep { s with agenda := s.agenda.tail })) ∧
  (∀ (s : State) (mv : HostMove), nextTurn s = .host mv → step s = hostMove mv { s with agenda := s.agenda.tail }) ∧
  (∀ (s : State) (i : Instr) (rest : List Byte), nextTurn s = .reader → s.rd.phase = .tokens →
    decode s.params s.rd.src = .ok (i, rest) →
    ((s.params.acceptNoncanonical = true ∨ canonical i = true →
        step s = exec i { s with agenda := s.agenda.tail, rd := { s.rd with src := rest } }) ∧
     (s.params.acceptNoncanonical = false → canonical i = false → step s = .refused .nonCanonicalToken)))

/-- The reader stops by name on reserved first bytes, and on nothing else by that name (R77, U12, U13). That a frame which
ends inside a token or before END stops it as a truncated frame is the model's choice (log 21). -/
def Obligations.StepStopsOnUndecodable : Prop :=
  (∀ (s : State) (b0 : Byte) (r : List Byte), s.params.Legal → nextTurn s = .reader → s.rd.phase = .tokens →
    s.rd.src = b0 :: r → ReservedBytes s.params b0 r → step s = .fault (.reservedOpcode b0)) ∧
  (∀ (ps : Params) (b0 e : Byte) (r : List Byte), ps.Legal → decode ps (b0 :: r) = .error (.reserved e) →
    e = b0 ∧ ReservedBytes ps b0 r) ∧
  (∀ (b0 : Byte) (r : List Byte), ReservedBytes Config.params b0 r ↔
    b0.toNat ≤ 0x03 ∨ b0 = 0x05#8 ∧ ∃ b1 r', r = b1 :: r' ∧ b1 ≠ 0xFA#8) ∧
  (∀ s : State, nextTurn s = .reader → s.rd.phase = .tokens → decode s.params s.rd.src = .error .truncated →
    step s = .fault .truncatedFrame)

/-- SLIT, MLIT and LLIT complete in every state: the literal bytes are appended to `O`, and nothing else changes (R111, R112 to
R114). -/
def Obligations.LiteralTokensAppend : Prop :=
  ∀ (lits : List Byte) (s : State),
    let t : State := { s with rd := { s.rd with o := s.rd.o ++ lits } }
    exec (.slit lits) s = .next t ∧ exec (.mlit lits) s = .next t ∧ exec (.llit lits) s = .next t

/-- SMAT, MMAT, LMATA, LMATB, XMAT1 and XMAT2 complete wherever the distance reaches back to a decoded byte: the copy is
appended to `O`, and nothing else changes (R111, R115 to R120). What the copy is, `CopyBackBytes` says. -/
def Obligations.MatchTokensCopy : Prop :=
  ∀ (len dist : Nat) (s : State), 1 ≤ dist → dist ≤ s.rd.o.length →
    let t : State := { s with rd := { s.rd with o := copyBack dist len s.rd.o } }
    exec (.smat len dist) s = .next t ∧ exec (.mmat len dist) s = .next t ∧ exec (.lmata len dist) s = .next t ∧
    exec (.lmatb len dist) s = .next t ∧ exec (.xmat1 len dist) s = .next t ∧ exec (.xmat2 len dist) s = .next t

/-- The copy keeps what was decoded, appends `len` bytes, and each of them is the byte `dist` before it in the result, so a copy
longer than its distance reads bytes it appended (R111). -/
def Obligations.CopyBackBytes : Prop :=
  ∀ (dist len : Nat) (o : List Byte), 1 ≤ dist → dist ≤ o.length →
    (copyBack dist len o).length = o.length + len ∧
    (∀ i, i < o.length → (copyBack dist len o)[i]? = o[i]?) ∧
    (∀ i, o.length ≤ i → i < o.length + len → (copyBack dist len o)[i]? = (copyBack dist len o)[i - dist]?)

/-- A match token whose distance is 0 or reaches before the first decoded byte is a fault of the reader (R111, U15). -/
def Obligations.MatchTokensRejectDistance : Prop :=
  ∀ (len dist : Nat) (s : State), dist = 0 ∨ s.rd.o.length < dist →
    exec (.smat len dist) s = .fault .distanceBeyondOutput ∧ exec (.mmat len dist) s = .fault .distanceBeyondOutput ∧
    exec (.lmata len dist) s = .fault .distanceBeyondOutput ∧ exec (.lmatb len dist) s = .fault .distanceBeyondOutput ∧
    exec (.xmat1 len dist) s = .fault .distanceBeyondOutput ∧ exec (.xmat2 len dist) s = .fault .distanceBeyondOutput

/-- END completes where the decoded length is the header's, the checksum of the decoded bytes is its operand, and nothing
follows it: the reader is at the end of its frame, and nothing else changes (R111, R121, R124). -/
def Obligations.EndEndsTheFrame : Prop :=
  ∀ (chk : Word) (s : State), s.rd.o.length = s.rd.len.toNat → checksum s.params 1#32 s.rd.o = chk → s.rd.src = [] →
    exec (.endFrame chk) s = .next { s with rd := { s.rd with phase := .ended } }

/-- END faults by name where the length, the checksum or the end of the frame is not as it must be (R111, U15, U16). Which of
the three is tested first is the model's choice (log 11). -/
def Obligations.EndRejectsBadFrame : Prop :=
  ∀ (chk : Word) (s : State),
    (s.rd.o.length ≠ s.rd.len.toNat → exec (.endFrame chk) s = .fault .frameLengthMismatch) ∧
    (s.rd.o.length = s.rd.len.toNat → checksum s.params 1#32 s.rd.o ≠ chk →
      exec (.endFrame chk) s = .fault .frameChecksumMismatch) ∧
    (s.rd.o.length = s.rd.len.toNat → checksum s.params 1#32 s.rd.o = chk → s.rd.src ≠ [] →
      exec (.endFrame chk) s = .fault .trailingBytes)

/-- The frame of every token: the engine's registers, the input space, the output stream, the table and the host's registers
stay, and of the reader only `O` grows, by the bytes the token stands for, and END alone moves the reader's phase (R111, R6). -/
def Obligations.TokensLeaveEngineAlone : Prop :=
  ∀ (i : Instr) (s t : State), exec i s = .next t →
    t = { s with rd := { s.rd with o := t.rd.o, phase := t.rd.phase } } ∧
    (∀ a, t.input.read a = s.input.read a) ∧
    (∃ added : List Byte, t.rd.o = s.rd.o ++ added ∧ added.length = tokenSpan i) ∧
    ((∀ chk, i ≠ .endFrame chk) → t.rd.phase = s.rd.phase)

/-- The header a frame begins with is read by its position: a reader that is handed it keeps its length and its window, and
its tokens come next. Another 16 bytes (15 with a 3-byte window field) are no header, and fewer are too few (R71, R73; that
the reader checks them is the model's choice, log 11, and so is the name of the fault where they are too few, log 21). -/
def Obligations.HeaderReadBack : Prop :=
  (∀ (s : State) (len window : Word) (rest : List Byte), s.rd.phase = .header →
    s.rd.src = headerBytes s.params len window ++ rest → window.toNat < 256 ^ s.params.winField.bytes →
    readerTurn s = .next { s with rd := { phase := .tokens, src := rest, len := len, window := window, o := [] } }) ∧
  (∀ s : State, s.rd.phase = .header → s.rd.src.length < headerSize s.params →
    readerTurn s = .fault .truncatedFrame) ∧
  (∀ s : State, s.rd.phase = .header → headerSize s.params ≤ s.rd.src.length →
    (∀ len window, s.rd.src.take (headerSize s.params) ≠ headerBytes s.params len window) →
    readerTurn s = .fault .badHeader)

/-! ### The host -/

/-- The host's write of input bytes, when no command is in progress: exactly the written positions change, and the input space
keeps its canonical form (R42, R169, R171). During a command the host has no such move (R171), and none to a position the
input space does not have (R42): that both are refused by name is the model's choice (logs 14 and 20). -/
def Obligations.HostPlacesInput : Prop :=
  ∀ (s : State) (p : Word) (bs : List Byte),
    (s.input.wf s.params.lenMax → s.status ≠ .busy → p.toNat + bs.length ≤ s.params.lenMax →
      ∃ t, hostMove (.placeInput p bs) s = .next t ∧ t = { s with input := t.input, reply := .nothing } ∧
        t.input.wf s.params.lenMax ∧
        ∀ a, t.input.read a =
          if p.toNat ≤ a ∧ a < p.toNat + bs.length then bs.getD (a - p.toNat) 0#8 else s.input.read a) ∧
    (s.status = .busy → hostMove (.placeInput p bs) s = .refused .inputWriteWhileBusy) ∧
    (s.status ≠ .busy → s.params.lenMax < p.toNat + bs.length →
      hostMove (.placeInput p bs) s = .refused .positionOutsideInputSpace)

/-- After power-on reset the four registers that have a value have the spec's, a step changes nothing, and every result and
exception register faults on a read (R40, R166). -/
def Obligations.ResetState : Prop :=
  State.reset.cfgWindow = 0x00040000#32 ∧ State.reset.cfgHashBits = 15#6 ∧ State.reset.status = .idle ∧
  State.reset.phase = .idle ∧ step State.reset = .next State.reset ∧
  hostMove .readResultLen State.reset = .fault .registerHoldsNoValue ∧
  hostMove .readResultChk State.reset = .fault .registerHoldsNoValue ∧
  hostMove .readExcCode State.reset = .fault .registerHoldsNoValue ∧
  hostMove .readExcInfo State.reset = .fault .registerHoldsNoValue

/-- A reset at any time, also during a command: the reset state of R166, no byte of the sink is defined, and the engine takes
no step that changes anything until a command is started (R166, R167). That the parameters, the input space, the reader and
the marks stay is the model's choice (log 7). -/
def Obligations.ResetAbandonsCommand : Prop :=
  ∀ s : State, ∃ t, hostMove .reset s = .next t ∧ t.cfgWindow = 0x00040000#32 ∧ t.cfgHashBits = 15#6 ∧ t.status = .idle ∧
    t.phase = .idle ∧ t.definedSink = [] ∧ t.resultLenValid = false ∧ t.resultChkValid = false ∧ t.excValid = false ∧
    t.params = s.params ∧ t.input = s.input ∧ t.rd = s.rd ∧ t.refusedMark = s.refusedMark ∧ t.faultMark = s.faultMark ∧
    ∀ n, engineRun n t = t

/-- The register writes the host may make when no command is in progress; each changes its own register alone (R16 to R19). -/
def Obligations.RegisterWrites : Prop :=
  ∀ s : State, s.status ≠ .busy →
    (∀ v, hostMove (.writeCfgWindow v) s = .next { s with cfgWindow := v, reply := .nothing }) ∧
    (∀ v, v.toNat ≤ 32 → hostMove (.writeCfgHashBits v) s = .next { s with cfgHashBits := v, reply := .nothing }) ∧
    (∀ v, hostMove (.writeCmd v) s = .next { s with cmd := v, reply := .nothing }) ∧
    (∀ v, hostMove (.writeArgLen v) s = .next { s with argLen := v, reply := .nothing }) ∧
    (∀ v, hostMove (.writeArgSeed v) s = .next { s with argSeed := v, reply := .nothing }) ∧
    (∀ v, hostMove (.writeArgOutCap v) s = .next { s with argOutCap := v, reply := .nothing })

/-- *start* takes a valid command atomically when no command is in progress; the result and exception registers then hold no
value until it completes, and nothing else changes (R133, R149). -/
def Obligations.StartTakesCommand : Prop :=
  ∀ s : State, s.status ≠ .busy → ∀ c ph, (s.cmd = 1#8 ∧ c = Command.compress ∧ ph = Phase.init) ∨
      (s.cmd = 2#8 ∧ c = Command.checksum ∧ ph = Phase.sum) →
    ∃ t, hostMove .start s = .next t ∧
      t = { s with
            status := .busy, inLen := s.argLen, phase := ph, lastCmd := some c, resultLen := t.resultLen,
            resultChk := t.resultChk, excCode := t.excCode, excInfo := t.excInfo, reply := .nothing, fresh := t.fresh } ∧
      t.resultLenValid = false ∧ t.resultChkValid = false ∧ t.excValid = false

/-- The five refused host actions of R154: each leaves the engine's state as it was, and the run is marked. That the machine
goes on with a mark, and keeps the first refusal as the mark, is the model's reading (log 12). -/
def Obligations.HostActionsRefused : Prop :=
  ∀ s : State,
    (s.status = .busy → hostMove .start s = refusedWith .startWhileBusy s) ∧
    (s.status ≠ .busy → s.cmd ≠ 1#8 → s.cmd ≠ 2#8 → hostMove .start s = refusedWith .unknownCommand s) ∧
    (s.status = .busy →
      (∀ v, hostMove (.writeCfgWindow v) s = refusedWith .configWriteWhileBusy s) ∧
      (∀ v, hostMove (.writeCfgHashBits v) s = refusedWith .configWriteWhileBusy s)) ∧
    (s.status ≠ .busy → ∀ v, 32 < v.toNat → hostMove (.writeCfgHashBits v) s = refusedWith .hashBitsAboveMax s) ∧
    (s.status = .busy →
      (∀ v, hostMove (.writeCmd v) s = refusedWith .argumentWriteWhileBusy s) ∧
      (∀ v, hostMove (.writeArgLen v) s = refusedWith .argumentWriteWhileBusy s) ∧
      (∀ v, hostMove (.writeArgSeed v) s = refusedWith .argumentWriteWhileBusy s) ∧
      (∀ v, hostMove (.writeArgOutCap v) s = refusedWith .argumentWriteWhileBusy s))

/-- The codes of `STATUS` and of `CMD` (R149): a read of `STATUS` is always allowed (R177) and gives its code, which is never
5 to 7, and `CMD` names a command for 1 and 2 alone. -/
def Obligations.StatusAndCommandCodes : Prop :=
  (∀ s : State, ∃ c, hostMove .readStatus s = .next { s with reply := .status c } ∧ c.toNat ≤ 4 ∧
    (s.status = .idle ↔ c = 0#3) ∧ (s.status = .busy ↔ c = 1#3) ∧ (s.status = .doneOk ↔ c = 2#3) ∧
    (s.status = .doneFail ↔ c = 3#3) ∧ (s.status = .fault ↔ c = 4#3)) ∧
  (∀ v, Command.ofCode v = some .compress ↔ v = 1#8) ∧ (∀ v, Command.ofCode v = some .checksum ↔ v = 2#8)

/-- What a host read gives. Registers: which result and exception registers hold a value, by the outcome `STATUS` shows, a
read of any other being a fault (R22, R23, R174, U6, U11); the configuration registers when no command is in progress (R40).
The output sink: after `DONE_OK` of a COMPRESS the frame, after an `OutputOverflow` what was appended (R170, R173); a byte the
spec leaves unspecified, and the count of bytes where `RESULT_LEN` holds no value, are free values (U8, log 6). That a read of
the configuration registers or of the sink during a command, where R40 and R173 give the host none, is refused by name is the
model's choice (log 20), and that a CHECKSUM leaves no byte of an earlier frame defined is its reading of R173 (log 26). -/
def Obligations.ResultReads : Prop :=
  ∀ s : State,
    (s.status = .doneOk → s.lastCmd = some .compress →
      hostMove .readResultLen s = givesValue s.resultLen s ∧
      hostMove .readFrame s = .next { s with reply := .bytes (s.out.take s.resultLen.toNat) }) ∧
    (s.status = .doneOk → s.lastCmd = some .checksum → hostMove .readResultLen s = .fault .registerHoldsNoValue) ∧
    (s.status = .doneOk →
      hostMove .readResultChk s = givesValue (s.resultChk.setWidth 33) s ∧
      hostMove .readExcCode s = .fault .registerHoldsNoValue ∧ hostMove .readExcInfo s = .fault .registerHoldsNoValue) ∧
    (s.status = .doneFail →
      hostMove .readResultLen s = givesValue s.resultLen s ∧
      hostMove .readResultChk s = .fault .registerHoldsNoValue) ∧
    (s.status = .fault →
      hostMove .readResultLen s = .fault .registerHoldsNoValue ∧
      hostMove .readResultChk s = .fault .registerHoldsNoValue) ∧
    (s.status = .fault ∨ s.status = .doneFail →
      hostMove .readExcCode s = givesValue (s.excCode.setWidth 33) s ∧
      hostMove .readExcInfo s = givesValue s.excInfo s) ∧
    (s.status = .idle ∨ s.status = .busy →
      hostMove .readResultLen s = .fault .registerHoldsNoValue ∧
      hostMove .readResultChk s = .fault .registerHoldsNoValue ∧
      hostMove .readExcCode s = .fault .registerHoldsNoValue ∧ hostMove .readExcInfo s = .fault .registerHoldsNoValue) ∧
    (s.status ≠ .busy →
      hostMove .readCfgWindow s = givesValue (s.cfgWindow.setWidth 33) s ∧
      hostMove .readCfgHashBits s = givesValue (s.cfgHashBits.setWidth 33) s) ∧
    (s.status = .busy →
      hostMove .readCfgWindow s = .refused .configReadWhileBusy ∧ hostMove .readCfgHashBits s = .refused .configReadWhileBusy ∧
      hostMove .readFrame s = .refused .sinkReadWhileBusy ∧
      ∀ k, hostMove (.readSinkByte k) s = .refused .sinkReadWhileBusy) ∧
    (s.status ≠ .busy → s.frameValid = false →
      ∃ bs, hostMove .readFrame s = .next { s with reply := .bytes bs, fresh := s.fresh + 1 } ∧
        (s.resultLenValid = true → bs.length = s.resultLen.toNat) ∧
        ∀ k, k < bs.length → k < s.definedSink.length → bs[k]? = s.definedSink[k]?) ∧
    (s.status ≠ .busy → ∀ k,
      (∀ b, s.definedSink[k.toNat]? = some b → hostMove (.readSinkByte k) s = .next { s with reply := .bytes [b] }) ∧
      (s.definedSink.length ≤ k.toNat →
        ∃ b, hostMove (.readSinkByte k) s = .next { s with reply := .bytes [b], fresh := s.fresh + 1 })) ∧
    (s.status = .doneOk → s.lastCmd = some .compress → s.definedSink = s.out.take s.resultLen.toNat) ∧
    (s.status = .fault → s.excCode = 0x02#8 → s.definedSink = s.out.take s.excInfo.toNat) ∧
    (s.frameValid = false → ¬ (s.status = .fault ∧ s.excCode = 0x02#8) → s.definedSink = [])

/-- The marks are kept for the whole run: no step takes one away or replaces it (R154, R156, U3). That a mark survives a reset (log
7), and that the first mark is the one kept (logs 12 and 13), are the model's choices. -/
def Obligations.MarksKept : Prop :=
  ∀ s t : State, step s = .next t →
    (t.unmarked → s.unmarked) ∧ (∀ r, s.refusedMark = some r → t.refusedMark = some r) ∧
    (∀ e, s.faultMark = some e → t.faultMark = some e)

/-! ### The engine and its stores -/

/-- The frame of every engine step: no engine step writes the input space, the configuration, the command and argument
registers, `IN_LEN`, the reader or the host's replies (R18, R19, R42, R55). -/
def Obligations.EngineStepFrame : Prop :=
  ∀ s : State, ∃ t, engineStep s = t ∧
    t = { s with
          status := t.status, resultLen := t.resultLen, resultChk := t.resultChk, excCode := t.excCode,
          excInfo := t.excInfo, phase := t.phase, w := t.w, out := t.out, faultMark := t.faultMark, fresh := t.fresh } ∧
    ∀ a, t.input.read a = s.input.read a

/-- The output stream is append-only and keeps within its capacity: after INIT, which starts it anew, no engine step rewrites
a byte that was appended (R43). -/
def Obligations.OutputAppendOnly : Prop :=
  ∀ s : State,
    (s.phase ≠ .init → ∃ added : List Byte, (engineStep s).out = s.out ++ added) ∧
    (s.out.length ≤ s.argOutCap.toNat → (engineStep s).out.length ≤ s.argOutCap.toNat)

/-- The cascade step of R88 in exact arithmetic, and as a rotation. -/
def Obligations.CascadeStepFormula : Prop :=
  ∀ (h : Word) (x y : Byte),
    (cascadeStep h x y).toNat =
      (h.toNat * 2 ^ 14 % 2 ^ 32 + h.toNat / 2 ^ 18 + x.toNat * 2 ^ 7 + y.toNat) % 2 ^ 32 ∧
    (h <<< 14) &&& (h >>> 18) = 0#32 ∧ (h <<< 14) + (h >>> 18) = h.rotateLeft 14

/-- The index function of R89 in exact arithmetic, with its two ends. -/
def Obligations.HashIndexMasked : Prop :=
  ∀ (bits : BitVec 6) (h : Word),
    (hashIndex bits h).toNat = ((h.toNat + h.toNat / 2 ^ 16) % 2 ^ 32) &&& (2 ^ bits.toNat - 1) ∧
    (bits = 0#6 → hashIndex bits h = 0#32) ∧ (bits = 32#6 → hashIndex bits h = h + (h >>> 16))

/-- The four indices at a scan position come from its 13 bytes alone, over 3, 5, 9 and 13 of them (R82 to R87, R90). The hash
function here is the default one, so `LOOKAHEAD` is at least its 13 bytes. -/
def Obligations.ScanHashes : Prop :=
  ∀ s : State, 13 ≤ s.params.lookahead → s.atScanPosition = true →
    let b := fun i => s.input.read (s.w.q.toNat + i)
    let v3 := firstHash (b 0) (b 1) (b 2)
    let v5 := cascadeStep v3 (b 3) (b 4)
    let v9 := cascadeStep (cascadeStep v5 (b 5) (b 6)) (b 7) (b 8)
    let v13 := cascadeStep (cascadeStep v9 (b 9) (b 10)) (b 11) (b 12)
    v3.toNat = (b 0).toNat * 2 ^ 14 + (b 1).toNat * 2 ^ 7 + (b 2).toNat ∧
    computeHashes hashCascade s =
      .go { s with
            w := { s.w with
              h := v13, h1 := hashIndex s.cfgHashBits v3, h2 := hashIndex s.cfgHashBits v5,
              h3 := hashIndex s.cfgHashBits v9, h4 := hashIndex s.cfgHashBits v13 } }

/-- `MatchLen` is the largest agreeing length up to its bound (R93). -/
def Obligations.MatchLenIsLongest : Prop :=
  ∀ (s : State) (t q max : Nat), t + max ≤ s.inLen.toNat → q + max ≤ s.inLen.toNat →
    ∃ m, matchLen s t q max = .ok m ∧ m ≤ max ∧ (∀ i, i < m → s.input.read (t + i) = s.input.read (q + i)) ∧
      ∀ m', m' ≤ max → (∀ i, i < m' → s.input.read (t + i) = s.input.read (q + i)) → m' ≤ m

/-- Over any candidates in probe order, from no candidate, `KeepBest` ends at the first of the longest acceptable ones, and at
no candidate where none is acceptable (R94). -/
def Obligations.KeepBestFirstLongest : Prop :=
  ∀ (s : State) (cs : List (LenWord × Word)), s.w.best = 2#17 → s.w.dist = 0#32 →
    let t := cs.foldl (fun u c => keepBest c.1 c.2 u) s
    ((∀ c ∈ cs, accept s.cfgWindow c.1.toNat c.2.toNat = false) → t = s) ∧
    (∀ (k : Nat) (c : LenWord × Word), cs[k]? = some c → accept s.cfgWindow c.1.toNat c.2.toNat = true →
      (∀ (j : Nat) (d : LenWord × Word), cs[j]? = some d → accept s.cfgWindow d.1.toNat d.2.toNat = true →
        d.1.toNat ≤ c.1.toNat ∧ (j < k → d.1.toNat < c.1.toNat)) →
      t = { s with w := { s.w with best := c.1, dist := c.2 } })

/-- Whatever the probes found and whatever the hash function is, exactly the four indexed entries take the scan position
(R96), in `POS_BITS` bits, which are all of its bits by default; and beside the table the match finder writes only its own
registers, not `Q`, `LIT_START` or the accumulator (R98). -/
def Obligations.TableTakesScanPosition : Prop :=
  ∀ (hf : HashFn) (s t : State), matchFinder hf s = .go t →
    t = { s with
          w := { t.w with q := s.w.q, litStart := s.w.litStart, s1 := s.w.s1, s2 := s.w.s2, ckpos := s.w.ckpos } } ∧
    (∀ i, t.w.table.read i =
      if i = t.w.h1.toNat ∨ i = t.w.h2.toNat ∨ i = t.w.h3.toNat ∨ i = t.w.h4.toNat
      then some (storedPos s.params.posBits s.w.q) else s.w.table.read i) ∧
    (32 ≤ s.params.posBits → storedPos s.params.posBits s.w.q = s.w.q)

/-- The match finder's result, for every hash function and every legal choice of the parameters (with the defaults `MATCH_MAX`
is 13 to 65536). The four indices are the hash function's of the `LOOKAHEAD` bytes at the cursor. `BEST` and `DIST` are no match
where no probe finds an acceptable candidate, and else those of the first of the longest acceptable candidates in the order H1,
H2, H3, H4: `DIST` is the cursor less its entry, `BEST` its `MatchLen`. The input bears the match out byte for byte, and no
acceptable candidate is longer (R81, R91 to R94, R97, R99). -/
def Obligations.MatchFinderResult : Prop :=
  ∀ (hf : HashFn) (s : State), s.params.Legal → s.atScanPosition = true →
    (∀ c ∈ s.w.table, c.2.toNat < s.w.q.toNat ∧ c.2.toNat + (s.params.lookahead - 1) < s.inLen.toNat) →
    let c := hf s.cfgHashBits (inputBytes s s.w.q.toNat s.params.lookahead)
    ∃ t, matchFinder hf s = .go t ∧ min s.params.lookahead s.params.maxMatch ≤ t.w.matchMax.toNat ∧
      t.w.matchMax.toNat = min s.params.maxMatch (s.inLen.toNat - s.w.q.toNat) ∧
      t.w.h = c.h ∧ t.w.h1 = c.h1 ∧ t.w.h2 = c.h2 ∧ t.w.h3 = c.h3 ∧ t.w.h4 = c.h4 ∧
      BestOf s t.w.matchMax.toNat [c.h1, c.h2, c.h3, c.h4] t.w.best t.w.dist ∧
      ((t.w.best = 2#17 ∧ t.w.dist = 0#32) ∨
       (3 ≤ t.w.best.toNat ∧ t.w.best.toNat ≤ t.w.matchMax.toNat ∧
        accept s.cfgWindow t.w.best.toNat t.w.dist.toNat = true ∧ 1 ≤ t.w.dist.toNat ∧
        t.w.dist.toNat ≤ s.cfgWindow.toNat ∧ t.w.dist.toNat ≤ s.w.q.toNat ∧
        ∀ i, i < t.w.best.toNat →
          s.input.read (s.w.q.toNat - t.w.dist.toNat + i) = s.input.read (s.w.q.toNat + i))) ∧
      (∀ h ∈ [t.w.h1, t.w.h2, t.w.h3, t.w.h4], ∀ p m, s.w.table.read h.toNat = some p →
        matchLen s p.toNat s.w.q.toNat t.w.matchMax.toNat = .ok m →
        accept s.cfgWindow m (s.w.q.toNat - p.toNat) = true → m ≤ t.w.best.toNat)

/-! ### The selector -/

/-- The corner cases R101 lists, with its two general ones (a distance is at least 1). -/
def Obligations.AcceptCornerCases : Prop :=
  (accept 0x40000#32 3 256 = true ∧ accept 0x40000#32 3 257 = false ∧ accept 0x40000#32 5 257 = false ∧
   accept 0x40000#32 6 257 = true ∧ accept 0x40000#32 6 16384 = true ∧ accept 0x40000#32 6 16385 = false ∧
   accept 0x40000#32 8 16385 = true ∧ accept 0x40000#32 9 0x40000 = true ∧ accept 0x40000#32 9 0x40001 = false ∧
   accept 0x40000#32 10 0x40001 = false) ∧
  (accept 0x1000000#32 8 524288 = true ∧ accept 0x1000000#32 8 524289 = false ∧ accept 0x1000000#32 9 524289 = false ∧
   accept 0x1000000#32 10 524289 = true) ∧
  (∀ window len d, len ≤ 2 → accept window len d = false) ∧ (∀ len d, 1 ≤ d → accept 0#32 len d = false)

/-- Which accepted candidate reaches which class: the table of R106; with the default window the extended classes and the
fallback never occur. -/
def Obligations.RouteTable : Prop :=
  (∀ (window : Word) (len dist : Nat), 1 ≤ dist → len ≤ 65536 → accept window len dist = true →
    route len dist =
      (if dist ≤ 256 then if len ≤ 128 then some .smat else if len ≤ 256 then some .mmat else some .lmatb
       else if dist ≤ 16384 then if len ≤ 256 then some .mmat else some .lmatb
       else if dist ≤ 524288 then if len ≤ 256 then some .lmata else some .lmatb
       else if dist ≤ 16777216 then if len ≤ 256 then some .xmat1 else some .xmat2
       else none) ∧
    dist ≤ window.toNat ∧ (dist ≤ 256 → 3 ≤ len) ∧ (256 < dist → 6 ≤ len) ∧ (16384 < dist → 8 ≤ len) ∧
    (524288 < dist → 10 ≤ len)) ∧
  (∀ len dist, 1 ≤ dist → len ≤ 65536 → accept 0x40000#32 len dist = true →
    route len dist = some .smat ∨ route len dist = some .mmat ∨ route len dist = some .lmata ∨
      route len dist = some .lmatb)

/-- An accepted candidate has no class only beyond the widest distance field (R104); a match of 3 to 5 bytes at a distance
above 256 is never accepted and no short match has a distance above 256 (R107). -/
def Obligations.CandidateLimits : Prop :=
  (∀ (window : Word) (len d : Nat), accept window len d = true → len ≤ 65536 → route len d = none →
    16777216 < d ∧ 16777216 < window.toNat) ∧
  (∀ (window : Word) (len d : Nat), 3 ≤ len → len ≤ 5 → 256 < d → accept window len d = false) ∧
  (∀ len d : Nat, route len d = some .smat → d ≤ 256)

/-- The spellings R76 lists are none the engine emits. -/
def Obligations.NonCanonicalSpellings : Prop :=
  (∀ lits, lits.length ≤ 32 → canonical (.mlit lits) = false) ∧
  (∀ lits, lits.length ≤ 2048 → canonical (.llit lits) = false) ∧
  (∀ len d, len ≤ 2 → canonical (.smat len d) = false) ∧ (∀ len d, len < 6 → canonical (.mmat len d) = false) ∧
  (∀ len d, len < 8 → canonical (.lmata len d) = false) ∧ (∀ len d, len < 9 → canonical (.lmatb len d) = false) ∧
  (∀ len d, len ≤ 256 → d ≤ 524288 → canonical (.lmatb len d) = false) ∧
  (∀ len d, len < 10 → canonical (.xmat1 len d) = false ∧ canonical (.xmat2 len d) = false) ∧
  (∀ len d c, route len d = some c → c ≠ .xmat1 → c ≠ .xmat2 →
    canonical (.xmat1 len d) = false ∧ canonical (.xmat2 len d) = false) ∧
  (∀ len d, len ≤ 256 → canonical (.xmat2 len d) = false)

/-! ### Emission -/

/-- A literal run of any length is split into full blocks of `MAX_LITRUN` bytes, by default LLITs of 65536, and a remainder in
the narrowest format; the literal bytes of its tokens, in order, are the run; and the engine appends exactly the encodings of
these tokens (R79, R109, R110). -/
def Obligations.LiteralRunSplit : Prop :=
  (∀ (ps : Params) (lits : List Byte), ps.Legal →
    ((literalTokens ps lits).map tokenPayload).flatten = lits ∧
    (literalTokens ps lits).length = (lits.length + (ps.maxLitRun - 1)) / ps.maxLitRun ∧
    (∀ i ∈ literalTokens ps lits, i.wf = true ∧ canonical i = true ∧ i.literalBytes ≠ 0) ∧
    (∀ k i, (literalTokens ps lits)[k]? = some i → k + 1 < (literalTokens ps lits).length →
      (tokenPayload i).length = ps.maxLitRun ∧ (2048 < ps.maxLitRun → ∃ block, i = .llit block))) ∧
  (∀ (s : State) (p n : Nat), p + n ≤ s.inLen.toNat →
    let added := tokenBytes s.params (literalTokens s.params (inputBytes s p n))
    s.out.length + added.length ≤ s.argOutCap.toNat → emitLiterals p n s = .go { s with out := s.out ++ added })

/-! ### The checksum -/

/-- Composition: a checksum continued over more bytes is the checksum of all of them (R130). -/
def Obligations.ChecksumComposes : Prop :=
  ∀ (ps : Params) (seed : Word) (a b : List Byte), ps.Legal →
    checksum ps (checksum ps seed a) b = checksum ps seed (a ++ b)

/-- The computation that reduces after each block of at most 5552 bytes gives the same value, and no 32-bit register overflows
within a block (R128). -/
def Obligations.ChecksumBlocked : Prop :=
  (∀ (ps : Params) (seed : Word) (bs : List Byte), checksumBlocked ps seed bs = checksum ps seed bs) ∧
  (∀ (a : Nat × Nat) (bs : List Byte), a.1 ≤ 65535 → a.2 ≤ 65535 → bs.length ≤ 5552 →
    (bs.foldl sumStep a).1 ≤ (bs.foldl sumStep a).2 + 65535 ∧ (bs.foldl sumStep a).2 ≤ 4294773495)

/-- The corner cases R132 lists. -/
def Obligations.ChecksumCorners : Prop :=
  checksum Config.params 1#32 [] = 0x00000001#32 ∧ checksum Config.params 0xFFFFFFFF#32 [] = 0xFFFFFFFF#32 ∧
  checksum Config.params 0xFFFFFFFF#32 [0x00#8] = 0x001C000E#32 ∧ checksum Config.params 0xFFF0FFF0#32 [0x01#8] = 0xFFF00000#32 ∧
  checksum Config.params 1#32 [0x61#8] = 0x00620062#32 ∧
  checksum Config.params 1#32 [0x57#8, 0x69#8, 0x6B#8, 0x69#8, 0x70#8, 0x65#8, 0x64#8, 0x69#8, 0x61#8] = 0x11E60398#32

/-- A fold inside the input: the accumulator takes the checksum continued over the bytes, `CKPOS` moves past them, both halves
are below `ADLER_MOD`, and nothing else changes; a fold of no bytes changes nothing (R36, R129). -/
def Obligations.FoldAdvances : Prop :=
  ∀ (s : State) (p n : Nat), s.params.Legal → p + n ≤ s.inLen.toNat →
    ∃ t, fold p n s = .go t ∧
      t = { s with w := { s.w with s1 := t.w.s1, s2 := t.w.s2, ckpos := t.w.ckpos } } ∧
      t.w.ck = checksum s.params s.w.ck (inputBytes s p n) ∧ (n = 0 → t = s) ∧
      (0 < n → t.w.ckpos.toNat = p + n ∧ t.w.s1.toNat < s.params.adlerMod ∧ t.w.s2.toNat < s.params.adlerMod)

/-! ### The steps of the commands -/

/-- The INIT step (R135, R155), with the draw of R150 as a variable: `BadConfig` before anything (R152), entered as a fault
with nothing appended (R148, R156), then the resource-failure outcome (R150), and otherwise the cleared table, the seeded
accumulator, and an output stream that is the header (R71, R122). That the registers the spec leaves unspecified after the
first two are free values is the model's form for them (log 6, and log 23 for the working registers after the resource-failure
outcome). -/
def Obligations.InitStepOutcomes : Prop :=
  (∀ s : State, s.phase = .init → engineStep s = (initStep (Config.allocFails s.fresh) s).settle) ∧
  (∀ (s : State) (draw : Bool), s.params.winField = .three → 2 ^ 24 ≤ s.cfgWindow.toNat →
    initStep draw s = .raised (.badConfig s.cfgWindow) s) ∧
  (∀ s : State, s.phase = .init → s.params.winField = .three → 2 ^ 24 ≤ s.cfgWindow.toNat →
    ∃ u, engineStep s = u ∧
      u = { s with
            excCode := 0x03#8, excInfo := s.cfgWindow.setWidth 33, phase := .idle, status := .fault, w := u.w,
            resultLen := u.resultLen, resultChk := u.resultChk, faultMark := u.faultMark, fresh := u.fresh } ∧
      u.resultLenValid = false ∧ u.resultChkValid = false ∧ u.excValid = true ∧ u.faultMark ≠ none) ∧
  (∀ s : State, s.windowFits → s.params.allocMayFail = true →
    ∃ t, initStep true s = .go t ∧
      t = { s with
            w := t.w, resultLen := 0#33, resultChk := t.resultChk, excCode := 0x01#8, excInfo := 0#33, phase := .idle,
            status := .doneFail, fresh := t.fresh }) ∧
  (∀ (s : State) (draw : Bool), s.windowFits → s.params.allocMayFail = false ∨ draw = false →
    headerSize s.params ≤ s.argOutCap.toNat →
    ∃ t, initStep draw s = .go t ∧
      t = { s with
            w := { s.w with table := [], s1 := 1#16, s2 := 0#16, ckpos := 0#32, q := 0#32, litStart := 0#32 },
            out := headerBytes s.params s.inLen s.cfgWindow, phase := .scan, fresh := t.fresh })

/-- A SCAN step whose match finder has no usable match (R102, R104, R136), for every hash function: the cursor moves by one,
nothing is emitted, the pending run grows, its start staying where it was, and the byte goes into the checksum. -/
def Obligations.ScanTakesLiteral : Prop :=
  ∀ (hf : HashFn) (s t : State), EngineInv s → s.phase = .scan → s.atScanPosition = true → matchFinder hf s = .go t →
    t.w.best.toNat < 3 ∨ route t.w.best.toNat t.w.dist.toNat = none →
    ∃ u, engineStepWith hf s = u ∧
      u = { s with
            w := { t.w with q := u.w.q, litStart := s.w.litStart, s1 := u.w.s1, s2 := u.w.s2, ckpos := u.w.ckpos } } ∧
      u.w.q.toNat = s.w.q.toNat + 1 ∧ u.w.ckpos = u.w.q ∧
      u.w.ck = checksum s.params 1#32 (inputBytes s 0 (s.w.q.toNat + 1))

/-- A SCAN step whose match finder has a match with a class, where the sink has room (R103, R136), for every hash function:
the pending run is flushed, the cursor and the start of the pending run move past the match, the opcode of its class is
emitted, and the bytes go into the checksum. -/
def Obligations.ScanTakesMatch : Prop :=
  ∀ (hf : HashFn) (s t : State) (cls : MatchClass), EngineInv s → s.phase = .scan → s.atScanPosition = true →
    matchFinder hf s = .go t → 3 ≤ t.w.best.toNat → route t.w.best.toNat t.w.dist.toNat = some cls →
    let run := inputBytes s s.w.litStart.toNat (s.w.q.toNat - s.w.litStart.toNat)
    let added := tokenBytes s.params (literalTokens s.params run ++ [cls.token t.w.best.toNat t.w.dist.toNat])
    s.out.length + added.length ≤ s.argOutCap.toNat →
    ∃ u, engineStepWith hf s = u ∧
      u = { s with
            w := { t.w with q := u.w.q, litStart := u.w.q, s1 := u.w.s1, s2 := u.w.s2, ckpos := u.w.q },
            out := s.out ++ added } ∧
      u.w.q.toNat = s.w.q.toNat + t.w.best.toNat ∧ u.w.q.toNat ≤ s.inLen.toNat ∧
      u.w.ck = checksum s.params 1#32 (inputBytes s 0 (s.w.q.toNat + t.w.best.toNat))

/-- A SCAN step off the scan positions only moves to FLUSH (R136); the FLUSH step, where the sink has room, takes the rest of
the input: the cursor and the start of the pending run go to `IN_LEN`, the rest goes into the checksum, and the pending run is
emitted (R138). -/
def Obligations.FlushTakesTheTail : Prop :=
  (∀ s : State, s.phase = .scan → s.atScanPosition = false → engineStep s = { s with phase := .flush }) ∧
  (∀ s : State, EngineInv s → s.phase = .flush →
    let tail := inputBytes s s.w.litStart.toNat (s.inLen.toNat - s.w.litStart.toNat)
    let added := tokenBytes s.params (literalTokens s.params tail)
    s.out.length + added.length ≤ s.argOutCap.toNat →
    ∃ u, engineStep s = u ∧
      u = { s with
            w := { s.w with q := s.inLen, litStart := s.inLen, ckpos := s.inLen, s1 := u.w.s1, s2 := u.w.s2 },
            out := s.out ++ added, phase := .trailer } ∧
      u.w.ck = checksum s.params 1#32 (inputBytes s 0 s.inLen.toNat))

/-- The TRAILER step appends the 6 bytes of END, by default 05 FA and the checksum (R139, R121, R123); where the sink has no
room for them it appends the bytes that fit and enters the fault `OutputOverflow` at the first that does not (R151, R156). -/
def Obligations.TrailerStep : Prop :=
  ∀ s : State, s.phase = .trailer → s.out.length ≤ s.argOutCap.toNat →
    let trailer := [s.params.end0, s.params.end1] ++ beBytes 4 s.w.ck.toNat
    (s.out.length + 6 ≤ s.argOutCap.toNat → engineStep s = { s with out := s.out ++ trailer, phase := .done }) ∧
    (s.argOutCap.toNat < s.out.length + 6 →
      ∃ u, engineStep s = u ∧ u.status = .fault ∧ u.phase = .idle ∧ u.excCode = 0x02#8 ∧ u.excInfo = s.argOutCap ∧
        u.out = s.out ++ trailer.take (s.argOutCap.toNat - s.out.length) ∧
        u.resultLenValid = false ∧ u.resultChkValid = false ∧ u.faultMark ≠ none)

/-- The DONE step (R140): the results, then `PHASE` and `STATUS`; the output stream then holds the frame, and the working
registers are unspecified: that they are free values, drawn at the counter, is the model's form for that (log 6). -/
def Obligations.DoneStep : Prop :=
  ∀ s : State, EngineInv s → s.phase = .done →
    ∃ u, engineStep s = u ∧
      u = { s with
            resultLen := u.resultLen, resultChk := s.w.ck, phase := .idle, status := .doneOk, w := Work.free s.fresh,
            fresh := s.fresh + 1 } ∧
      u.resultLen.toNat = s.out.length ∧ u.definedSink = s.out

/-- The SUM step (R143): one step, the checksum of the input with the seed of the command; no output, no exception; and
`RESULT_LEN` holds no value. That the working registers are free values after it, as U7 allows, is the model's choice (logs 6
and 23). -/
def Obligations.SumStep : Prop :=
  ∀ s : State, EngineInv s → s.phase = .sum →
    ∃ u, engineStep s = u ∧
      u = { s with
            w := Work.free s.fresh, resultChk := u.resultChk, phase := .idle, status := .doneOk, fresh := s.fresh + 1 } ∧
      u.resultChk = checksum s.params s.argSeed (inputBytes s 0 s.inLen.toNat) ∧
      (s.inLen = 0#32 → u.resultChk = s.argSeed) ∧ hostMove .readResultLen u = .fault .registerHoldsNoValue

/-- Faults are precise with respect to the output (R151, R156): where an engine step faults for want of room, the output is
what it would have been in the largest sink, cut at the capacity, and `EXC_INFO` is the offset of the first byte that did not
fit. -/
def Obligations.FaultsArePrecise : Prop :=
  ∀ s : State, EngineInv s → s.windowFits → s.phase ≠ .idle → (engineStep s).status = .fault →
    (engineStep s).excCode = 0x02#8 ∧ (engineStep s).excInfo = s.argOutCap ∧ (engineStep s).phase = .idle ∧
    (engineStep s).out = ((engineStep { s with argOutCap := BitVec.ofNat 33 (2 ^ 33 - 1) }).out).take s.argOutCap.toNat

/-! ### Invariants and the machine as a whole -/

/-- The invariant of the machine holds after reset: the default parameters are legal, and so is the reset state (R166). -/
def Obligations.EngineInvAtReset : Prop := EngineInv State.reset

/-- Every step, of whichever agent, keeps the invariant of the machine: legal parameters, canonical stores, a legal
configuration, `STATUS` and `PHASE` in agreement, and items 1 to 3 of R142. -/
def Obligations.EngineInvKept : Prop := ∀ s t : State, EngineInv s → step s = .next t → EngineInv t

/-- Every step keeps items 4 and 5 of R142: the output is the header followed by canonical tokens that decode to the input up to
`LIT_START`. -/
def Obligations.FrameInvKept : Prop :=
  ∀ s t : State, EngineInv s → FrameInv s → step s = .next t → FrameInv t

/-- Every step keeps the tighter size bound of R144. -/
def Obligations.SizeInvKept : Prop := ∀ s t : State, EngineInv s → SizeInv s → step s = .next t → SizeInv t

/-- With a sink of `BOUND(IN_LEN)` bytes and a window that fits the header, no engine step faults (R144, R151 to R153). -/
def Obligations.NoFaultWithinBound : Prop :=
  ∀ s : State, EngineInv s → SizeInv s → s.windowFits → s.sinkSuffices → s.phase ≠ .idle →
    (engineStep s).status ≠ .fault ∧ (engineStep s).faultMark = s.faultMark

/-- Every command completes within its bound of steps of the engine, which is at most `IN_LEN + 5` (R145); and while a command is in
progress each step of the machine is such a step, where no other turn is decided (R15, R146; the agenda is the model's own, log 2). -/
def Obligations.CommandsComplete : Prop :=
  (∀ s : State, s.stepsLeft ≤ s.inLen.toNat + 5) ∧
  (∀ s : State, s.agenda = [] → s.phase ≠ .idle → step s = .next (engineStep s)) ∧
  (∀ s : State, EngineInv s → (engineRun s.stepsLeft s).phase = .idle ∧ (engineRun s.stepsLeft s).status ≠ .busy)

/-- A command does not depend on what earlier commands left, whatever ran between (R141, R168). Two machines, or one at two times,
that start the same command with the same configuration, arguments and input bytes then run the same command, if the draws of
R150 agree; and two that run the same command stay so step by step and end with the same results, for every hash function. -/
def Obligations.CommandsAreIndependent : Prop :=
  (∀ s t : State, s.status ≠ .busy → t.status ≠ .busy → s.cmd = 1#8 ∨ s.cmd = 2#8 → s.cmd = t.cmd → s.params = t.params →
    s.cfgWindow = t.cfgWindow → s.cfgHashBits = t.cfgHashBits → s.argLen = t.argLen → s.argOutCap = t.argOutCap →
    (s.cmd = 2#8 → s.argSeed = t.argSeed) → (∀ a, a < s.argLen.toNat → s.input.read a = t.input.read a) →
    ∃ u v, hostMove .start s = .next u ∧ hostMove .start t = .next v ∧ u.phase ≠ .idle ∧
      ((u.phase = .init → u.params.allocMayFail = true → Config.allocFails u.fresh = Config.allocFails v.fresh) →
        SameCommand u v)) ∧
  (∀ (hf : HashFn) (s t : State), EngineInv s → EngineInv t → SameCommand s t → s.phase ≠ .idle →
    SameCommand (engineStepWith hf s) (engineStepWith hf t) ∧ SameResults (engineStepWith hf s) (engineStepWith hf t))

/-- Whatever the hash function is (R99), a COMPRESS command with a sufficient sink ends with a frame that decodes to its
input, with the checksum of the input as its trailer and result, and within the tighter size bound; unless it ends in the
resource-failure outcome, where nothing is written (R131, R141, R144, R145, R150, R177). -/
def Obligations.CompressDeliversTheInput : Prop :=
  ∀ (hf : HashFn) (s : State), EngineInv s → s.phase = .init → s.windowFits → s.sinkSuffices →
    let u := engineRunWith hf (s.inLen.toNat + 5) s
    let whole := inputBytes s 0 s.inLen.toNat
    (u.status = .doneOk ∧ u.resultChk = checksum s.params 1#32 whole ∧ u.resultLen.toNat = u.out.length ∧
      u.definedSink = u.out ∧
      u.out.length ≤ headerSize s.params + 6 + s.inLen.toNat + s.inLen.toNat / 33 + 3 ∧
      Decodes s.params u.out whole) ∨
    (s.params.allocMayFail = true ∧ u.status = .doneFail ∧ u.resultLen = 0#33 ∧ u.out = s.out)

/-- For no input the frame is the header and the trailer, with no token between them (R125), wherever the hash table is
available (R150): without the draw, or with one that succeeds. With the default parameters it is these 22 bytes. -/
def Obligations.EmptyInputFrame : Prop :=
  (∀ s : State, EngineInv s → s.phase = .init → s.windowFits → s.sinkSuffices → s.inLen = 0#32 →
    s.params.allocMayFail = false ∨ Config.allocFails s.fresh = false →
    (engineRun 5 s).status = .doneOk ∧
    (engineRun 5 s).out = headerBytes s.params 0#32 s.cfgWindow ++ encode s.params (.endFrame 1#32)) ∧
  headerBytes Config.params 0#32 0x00040000#32 ++ encode Config.params (.endFrame 1#32) =
    [0x57#8, 0xBC#8, 0x00#8, 0x00#8, 0x00#8, 0x00#8, 0x00#8, 0x00#8, 0x00#8, 0x00#8, 0x00#8, 0x00#8, 0x00#8, 0x04#8,
     0x00#8, 0x00#8, 0x05#8, 0xFA#8, 0x00#8, 0x00#8, 0x00#8, 0x01#8]

end
end

