-- ==== Sys2Proof/Laws/Bytes.lean ====
section
/-! SUPPORT. Big-endian spelling and reading of numbers (spec/00_scope.md R12, spec/20_memory.md R45). -/

namespace Sys2Proof

@[simp] theorem beBytes_zero (v : Nat) : beBytes 0 v = [] := rfl

theorem beBytes_succ (n v : Nat) : beBytes (n + 1) v = BitVec.ofNat 8 (v / 256 ^ n) :: beBytes n v := rfl

@[simp] theorem beBytes_length (n v : Nat) : (beBytes n v).length = n := by
  induction n with
  | zero => rfl
  | succ n ih => simp [beBytes_succ, ih]

theorem beNat_foldl (bs : List Byte) (a : Nat) :
    bs.foldl (fun a b => a * 256 + b.toNat) a = a * 256 ^ bs.length + beNat bs := by
  induction bs generalizing a with
  | nil => simp [beNat]
  | cons b bs ih =>
    have h0 : beNat (b :: bs) = b.toNat * 256 ^ bs.length + beNat bs := by
      have : beNat (b :: bs) = bs.foldl (fun a b => a * 256 + b.toNat) b.toNat := by simp [beNat]
      rw [this, ih]
    simp only [List.foldl_cons, ih, h0, List.length_cons, pow_succ]
    ring

@[simp] theorem beNat_nil : beNat [] = 0 := rfl

theorem beNat_cons (b : Byte) (bs : List Byte) : beNat (b :: bs) = b.toNat * 256 ^ bs.length + beNat bs := by
  have : beNat (b :: bs) = bs.foldl (fun a b => a * 256 + b.toNat) b.toNat := by simp [beNat]
  rw [this, beNat_foldl]

/-- Reading the spelling of a number gives the number, as far as it fits. -/
theorem beNat_beBytes (n v : Nat) : beNat (beBytes n v) = v % 256 ^ n := by
  induction n with
  | zero => simp [Nat.mod_one]
  | succ n ih =>
    have h := Nat.mod_mul (x := v) (a := 256 ^ n) (b := 256)
    rw [beBytes_succ, beNat_cons, ih, beBytes_length, BitVec.toNat_ofNat, pow_succ (256 : Nat) n, h,
      show (2 : Nat) ^ 8 = 256 from rfl, Nat.add_comm, Nat.mul_comm (256 ^ n)]

/-- Bytes read as a number are below the bound of their count. -/
theorem beNat_lt (bs : List Byte) : beNat bs < 256 ^ bs.length := by
  induction bs with
  | nil => simp
  | cons b bs ih =>
    rw [beNat_cons, List.length_cons, pow_succ]
    have := b.isLt
    nlinarith

/-- Spelling the number bytes read as gives the bytes. -/
theorem beBytes_beNat (bs : List Byte) : beBytes bs.length (beNat bs) = bs := by
  have key : ∀ (n v w : Nat), v % 256 ^ n = w % 256 ^ n → beBytes n v = beBytes n w := by
    intro n
    induction n with
    | zero => intro v w _; rfl
    | succ n ih =>
      intro v w h
      rw [beBytes_succ, beBytes_succ, ih v w]
      · congr 1
        apply BitVec.eq_of_toNat_eq
        simp only [BitVec.toNat_ofNat]
        have h1 := Nat.mod_mul_right_div_self v (256 ^ n) 256
        have h2 := Nat.mod_mul_right_div_self w (256 ^ n) 256
        rw [← pow_succ] at h1 h2
        rw [show (2 : Nat) ^ 8 = 256 from rfl, ← h1, ← h2, h]
      · have h3 := Nat.mod_mod_of_dvd v (show 256 ^ n ∣ 256 ^ (n + 1) from ⟨256, by rw [pow_succ]⟩)
        have h4 := Nat.mod_mod_of_dvd w (show 256 ^ n ∣ 256 ^ (n + 1) from ⟨256, by rw [pow_succ]⟩)
        rw [← h3, ← h4, h]
  induction bs with
  | nil => rfl
  | cons b bs ih =>
    have hlt := beNat_lt bs
    rw [List.length_cons, beBytes_succ, key bs.length (beNat (b :: bs)) (beNat bs) (by rw [beNat_cons]; simp), ih]
    congr 1
    apply BitVec.eq_of_toNat_eq
    rw [beNat_cons, BitVec.toNat_ofNat, Nat.add_comm, Nat.add_mul_div_right _ _ (by positivity), Nat.div_eq_of_lt hlt]
    have := b.isLt
    omega

/-- `Instr.opcodeBytes` and `Instr.literalBytes` are what the encoding of an instruction has. -/
theorem encode_length (ps : Params) (i : Instr) : (encode ps i).length = i.opcodeBytes + i.literalBytes := by
  cases i <;> simp [encode, Instr.opcodeBytes, Instr.literalBytes]

/-! ### Fields of an opcode -/

theorem beNat_two (a b : Byte) : beNat [a, b] = a.toNat * 256 + b.toNat := by simp [beNat_cons]

theorem beNat_three (a b c : Byte) : beNat [a, b, c] = a.toNat * 65536 + (b.toNat * 256 + c.toNat) := by simp [beNat_cons]

/-- A 1-byte field, as the byte it is. -/
theorem beBytes_one_exists (v : Nat) (h : v < 256) : ∃ a : Byte, beBytes 1 v = [a] ∧ a.toNat = v := by
  refine ⟨_, rfl, ?_⟩; simp; omega

/-- A 2-byte field, as the bytes it is. -/
theorem beBytes_two_exists (v : Nat) (h : v < 256 ^ 2) :
    ∃ a b : Byte, beBytes 2 v = [a, b] ∧ a.toNat * 256 + b.toNat = v := by
  refine ⟨_, _, rfl, ?_⟩; simp; omega

/-- A 3-byte field, as the bytes it is. -/
theorem beBytes_three_exists (v : Nat) (h : v < 256 ^ 3) :
    ∃ a b c : Byte, beBytes 3 v = [a, b, c] ∧ a.toNat * 65536 + b.toNat * 256 + c.toNat = v := by
  refine ⟨_, _, _, rfl, ?_⟩; simp; omega

/-- A field `d` of `x % m` and the lower bytes `y`, below the fixed bits `k`: where `{x, y} = k * m * b + d`, the quotient and the
remainder of `x` give both back. It spares a decision procedure the large products. -/
theorem hi_field (x y d m k b : Nat) (hv : x * b + y = m * k * b + d) (hy : y < b) (hd : d < m * b) :
    x / m = k ∧ x % m * b + y = d := by
  have h1 : x / m = k := by
    apply Nat.div_eq_of_lt_le
    · by_contra hc; push Not at hc
      have : (x + 1) * b ≤ k * m * b := Nat.mul_le_mul_right _ hc
      nlinarith
    · by_contra hc; push Not at hc
      have : (k + 1) * m * b ≤ x * b := Nat.mul_le_mul_right _ hc
      nlinarith
  refine ⟨h1, ?_⟩
  have h2 := Nat.div_add_mod x m
  rw [h1] at h2
  have : x * b = m * k * b + x % m * b := by rw [← Nat.add_mul, h2]
  omega

/-- A run of literal bytes in front of a stream is taken whole. -/
theorem takeRun_append (mk : List Byte → Instr) (l r : List Byte) : takeRun mk l.length (l ++ r) = .ok (mk l, r) := by
  simp [takeRun]

end Sys2Proof
end

