-- ==== Sys2Proof/Laws/State.lean ====
section
/-! SUPPORT. What each named update leaves and writes, field by field, true by unfolding. -/

namespace Sys2Proof.Machine

/-- The default parameters are legal (R7). -/
theorem params_legal : Config.params.Legal where
  lenMax_le := by decide
  maxMatch_le := by decide
  maxLitRun_le := by decide
  maxLitRun_ge := by decide
  rsvBytes_le := by decide
  end0_free := by decide
  adlerMod_pos := by decide
  adlerMod_le := by decide

/-! ### forgetWork -/

@[simp] theorem forgetWork_params (s : State) : (forgetWork s).params = s.params := rfl
@[simp] theorem forgetWork_cfgWindow (s : State) : (forgetWork s).cfgWindow = s.cfgWindow := rfl
@[simp] theorem forgetWork_cfgHashBits (s : State) : (forgetWork s).cfgHashBits = s.cfgHashBits := rfl
@[simp] theorem forgetWork_cmd (s : State) : (forgetWork s).cmd = s.cmd := rfl
@[simp] theorem forgetWork_argLen (s : State) : (forgetWork s).argLen = s.argLen := rfl
@[simp] theorem forgetWork_argSeed (s : State) : (forgetWork s).argSeed = s.argSeed := rfl
@[simp] theorem forgetWork_argOutCap (s : State) : (forgetWork s).argOutCap = s.argOutCap := rfl
@[simp] theorem forgetWork_status (s : State) : (forgetWork s).status = s.status := rfl
@[simp] theorem forgetWork_resultLen (s : State) : (forgetWork s).resultLen = s.resultLen := rfl
@[simp] theorem forgetWork_resultChk (s : State) : (forgetWork s).resultChk = s.resultChk := rfl
@[simp] theorem forgetWork_excCode (s : State) : (forgetWork s).excCode = s.excCode := rfl
@[simp] theorem forgetWork_excInfo (s : State) : (forgetWork s).excInfo = s.excInfo := rfl
@[simp] theorem forgetWork_phase (s : State) : (forgetWork s).phase = s.phase := rfl
@[simp] theorem forgetWork_inLen (s : State) : (forgetWork s).inLen = s.inLen := rfl
@[simp] theorem forgetWork_input (s : State) : (forgetWork s).input = s.input := rfl
@[simp] theorem forgetWork_out (s : State) : (forgetWork s).out = s.out := rfl
@[simp] theorem forgetWork_lastCmd (s : State) : (forgetWork s).lastCmd = s.lastCmd := rfl
@[simp] theorem forgetWork_rd (s : State) : (forgetWork s).rd = s.rd := rfl
@[simp] theorem forgetWork_agenda (s : State) : (forgetWork s).agenda = s.agenda := rfl
@[simp] theorem forgetWork_reply (s : State) : (forgetWork s).reply = s.reply := rfl
@[simp] theorem forgetWork_refusedMark (s : State) : (forgetWork s).refusedMark = s.refusedMark := rfl
@[simp] theorem forgetWork_faultMark (s : State) : (forgetWork s).faultMark = s.faultMark := rfl

/-! ### forgetResults -/

@[simp] theorem forgetResults_params (s : State) : (forgetResults s).params = s.params := rfl
@[simp] theorem forgetResults_cfgWindow (s : State) : (forgetResults s).cfgWindow = s.cfgWindow := rfl
@[simp] theorem forgetResults_cfgHashBits (s : State) : (forgetResults s).cfgHashBits = s.cfgHashBits := rfl
@[simp] theorem forgetResults_cmd (s : State) : (forgetResults s).cmd = s.cmd := rfl
@[simp] theorem forgetResults_argLen (s : State) : (forgetResults s).argLen = s.argLen := rfl
@[simp] theorem forgetResults_argSeed (s : State) : (forgetResults s).argSeed = s.argSeed := rfl
@[simp] theorem forgetResults_argOutCap (s : State) : (forgetResults s).argOutCap = s.argOutCap := rfl
@[simp] theorem forgetResults_status (s : State) : (forgetResults s).status = s.status := rfl
@[simp] theorem forgetResults_excCode (s : State) : (forgetResults s).excCode = s.excCode := rfl
@[simp] theorem forgetResults_excInfo (s : State) : (forgetResults s).excInfo = s.excInfo := rfl
@[simp] theorem forgetResults_phase (s : State) : (forgetResults s).phase = s.phase := rfl
@[simp] theorem forgetResults_inLen (s : State) : (forgetResults s).inLen = s.inLen := rfl
@[simp] theorem forgetResults_w (s : State) : (forgetResults s).w = s.w := rfl
@[simp] theorem forgetResults_input (s : State) : (forgetResults s).input = s.input := rfl
@[simp] theorem forgetResults_out (s : State) : (forgetResults s).out = s.out := rfl
@[simp] theorem forgetResults_lastCmd (s : State) : (forgetResults s).lastCmd = s.lastCmd := rfl
@[simp] theorem forgetResults_rd (s : State) : (forgetResults s).rd = s.rd := rfl
@[simp] theorem forgetResults_agenda (s : State) : (forgetResults s).agenda = s.agenda := rfl
@[simp] theorem forgetResults_reply (s : State) : (forgetResults s).reply = s.reply := rfl
@[simp] theorem forgetResults_refusedMark (s : State) : (forgetResults s).refusedMark = s.refusedMark := rfl
@[simp] theorem forgetResults_faultMark (s : State) : (forgetResults s).faultMark = s.faultMark := rfl

/-! ### forgetExc -/

@[simp] theorem forgetExc_params (s : State) : (forgetExc s).params = s.params := rfl
@[simp] theorem forgetExc_cfgWindow (s : State) : (forgetExc s).cfgWindow = s.cfgWindow := rfl
@[simp] theorem forgetExc_cfgHashBits (s : State) : (forgetExc s).cfgHashBits = s.cfgHashBits := rfl
@[simp] theorem forgetExc_cmd (s : State) : (forgetExc s).cmd = s.cmd := rfl
@[simp] theorem forgetExc_argLen (s : State) : (forgetExc s).argLen = s.argLen := rfl
@[simp] theorem forgetExc_argSeed (s : State) : (forgetExc s).argSeed = s.argSeed := rfl
@[simp] theorem forgetExc_argOutCap (s : State) : (forgetExc s).argOutCap = s.argOutCap := rfl
@[simp] theorem forgetExc_status (s : State) : (forgetExc s).status = s.status := rfl
@[simp] theorem forgetExc_resultLen (s : State) : (forgetExc s).resultLen = s.resultLen := rfl
@[simp] theorem forgetExc_resultChk (s : State) : (forgetExc s).resultChk = s.resultChk := rfl
@[simp] theorem forgetExc_phase (s : State) : (forgetExc s).phase = s.phase := rfl
@[simp] theorem forgetExc_inLen (s : State) : (forgetExc s).inLen = s.inLen := rfl
@[simp] theorem forgetExc_w (s : State) : (forgetExc s).w = s.w := rfl
@[simp] theorem forgetExc_input (s : State) : (forgetExc s).input = s.input := rfl
@[simp] theorem forgetExc_out (s : State) : (forgetExc s).out = s.out := rfl
@[simp] theorem forgetExc_lastCmd (s : State) : (forgetExc s).lastCmd = s.lastCmd := rfl
@[simp] theorem forgetExc_rd (s : State) : (forgetExc s).rd = s.rd := rfl
@[simp] theorem forgetExc_agenda (s : State) : (forgetExc s).agenda = s.agenda := rfl
@[simp] theorem forgetExc_reply (s : State) : (forgetExc s).reply = s.reply := rfl
@[simp] theorem forgetExc_refusedMark (s : State) : (forgetExc s).refusedMark = s.refusedMark := rfl
@[simp] theorem forgetExc_faultMark (s : State) : (forgetExc s).faultMark = s.faultMark := rfl

/-! ### enterFault -/

@[simp] theorem enterFault_params (e : Exc) (s : State) : (enterFault e s).params = s.params := rfl
@[simp] theorem enterFault_cfgWindow (e : Exc) (s : State) : (enterFault e s).cfgWindow = s.cfgWindow := rfl
@[simp] theorem enterFault_cfgHashBits (e : Exc) (s : State) : (enterFault e s).cfgHashBits = s.cfgHashBits := rfl
@[simp] theorem enterFault_cmd (e : Exc) (s : State) : (enterFault e s).cmd = s.cmd := rfl
@[simp] theorem enterFault_argLen (e : Exc) (s : State) : (enterFault e s).argLen = s.argLen := rfl
@[simp] theorem enterFault_argSeed (e : Exc) (s : State) : (enterFault e s).argSeed = s.argSeed := rfl
@[simp] theorem enterFault_argOutCap (e : Exc) (s : State) : (enterFault e s).argOutCap = s.argOutCap := rfl
@[simp] theorem enterFault_status (e : Exc) (s : State) : (enterFault e s).status = .fault := rfl
@[simp] theorem enterFault_excCode (e : Exc) (s : State) : (enterFault e s).excCode = e.code := rfl
@[simp] theorem enterFault_excInfo (e : Exc) (s : State) : (enterFault e s).excInfo = e.info := rfl
@[simp] theorem enterFault_phase (e : Exc) (s : State) : (enterFault e s).phase = .idle := rfl
@[simp] theorem enterFault_inLen (e : Exc) (s : State) : (enterFault e s).inLen = s.inLen := rfl
@[simp] theorem enterFault_input (e : Exc) (s : State) : (enterFault e s).input = s.input := rfl
@[simp] theorem enterFault_out (e : Exc) (s : State) : (enterFault e s).out = s.out := rfl
@[simp] theorem enterFault_lastCmd (e : Exc) (s : State) : (enterFault e s).lastCmd = s.lastCmd := rfl
@[simp] theorem enterFault_rd (e : Exc) (s : State) : (enterFault e s).rd = s.rd := rfl
@[simp] theorem enterFault_agenda (e : Exc) (s : State) : (enterFault e s).agenda = s.agenda := rfl
@[simp] theorem enterFault_reply (e : Exc) (s : State) : (enterFault e s).reply = s.reply := rfl
@[simp] theorem enterFault_refusedMark (e : Exc) (s : State) : (enterFault e s).refusedMark = s.refusedMark := rfl

/-! ### enterResourceFailure -/

@[simp] theorem enterResourceFailure_params (s : State) : (enterResourceFailure s).params = s.params := rfl
@[simp] theorem enterResourceFailure_cfgWindow (s : State) : (enterResourceFailure s).cfgWindow = s.cfgWindow := rfl
@[simp] theorem enterResourceFailure_cfgHashBits (s : State) : (enterResourceFailure s).cfgHashBits = s.cfgHashBits := rfl
@[simp] theorem enterResourceFailure_cmd (s : State) : (enterResourceFailure s).cmd = s.cmd := rfl
@[simp] theorem enterResourceFailure_argLen (s : State) : (enterResourceFailure s).argLen = s.argLen := rfl
@[simp] theorem enterResourceFailure_argSeed (s : State) : (enterResourceFailure s).argSeed = s.argSeed := rfl
@[simp] theorem enterResourceFailure_argOutCap (s : State) : (enterResourceFailure s).argOutCap = s.argOutCap := rfl
@[simp] theorem enterResourceFailure_status (s : State) : (enterResourceFailure s).status = .doneFail := rfl
@[simp] theorem enterResourceFailure_resultLen (s : State) : (enterResourceFailure s).resultLen = 0#33 := rfl
@[simp] theorem enterResourceFailure_excCode (s : State) : (enterResourceFailure s).excCode = 0x01#8 := rfl
@[simp] theorem enterResourceFailure_excInfo (s : State) : (enterResourceFailure s).excInfo = 0#33 := rfl
@[simp] theorem enterResourceFailure_phase (s : State) : (enterResourceFailure s).phase = .idle := rfl
@[simp] theorem enterResourceFailure_inLen (s : State) : (enterResourceFailure s).inLen = s.inLen := rfl
@[simp] theorem enterResourceFailure_input (s : State) : (enterResourceFailure s).input = s.input := rfl
@[simp] theorem enterResourceFailure_out (s : State) : (enterResourceFailure s).out = s.out := rfl
@[simp] theorem enterResourceFailure_lastCmd (s : State) : (enterResourceFailure s).lastCmd = s.lastCmd := rfl
@[simp] theorem enterResourceFailure_rd (s : State) : (enterResourceFailure s).rd = s.rd := rfl
@[simp] theorem enterResourceFailure_agenda (s : State) : (enterResourceFailure s).agenda = s.agenda := rfl
@[simp] theorem enterResourceFailure_reply (s : State) : (enterResourceFailure s).reply = s.reply := rfl
@[simp] theorem enterResourceFailure_refusedMark (s : State) : (enterResourceFailure s).refusedMark = s.refusedMark := rfl
@[simp] theorem enterResourceFailure_faultMark (s : State) : (enterResourceFailure s).faultMark = s.faultMark := rfl

/-! ### appendRun -/

@[simp] theorem appendRun_params (lits : List Byte) (s : State) : (appendRun lits s).params = s.params := rfl
@[simp] theorem appendRun_cfgWindow (lits : List Byte) (s : State) : (appendRun lits s).cfgWindow = s.cfgWindow := rfl
@[simp] theorem appendRun_cfgHashBits (lits : List Byte) (s : State) : (appendRun lits s).cfgHashBits = s.cfgHashBits := rfl
@[simp] theorem appendRun_cmd (lits : List Byte) (s : State) : (appendRun lits s).cmd = s.cmd := rfl
@[simp] theorem appendRun_argLen (lits : List Byte) (s : State) : (appendRun lits s).argLen = s.argLen := rfl
@[simp] theorem appendRun_argSeed (lits : List Byte) (s : State) : (appendRun lits s).argSeed = s.argSeed := rfl
@[simp] theorem appendRun_argOutCap (lits : List Byte) (s : State) : (appendRun lits s).argOutCap = s.argOutCap := rfl
@[simp] theorem appendRun_status (lits : List Byte) (s : State) : (appendRun lits s).status = s.status := rfl
@[simp] theorem appendRun_resultLen (lits : List Byte) (s : State) : (appendRun lits s).resultLen = s.resultLen := rfl
@[simp] theorem appendRun_resultChk (lits : List Byte) (s : State) : (appendRun lits s).resultChk = s.resultChk := rfl
@[simp] theorem appendRun_excCode (lits : List Byte) (s : State) : (appendRun lits s).excCode = s.excCode := rfl
@[simp] theorem appendRun_excInfo (lits : List Byte) (s : State) : (appendRun lits s).excInfo = s.excInfo := rfl
@[simp] theorem appendRun_phase (lits : List Byte) (s : State) : (appendRun lits s).phase = s.phase := rfl
@[simp] theorem appendRun_inLen (lits : List Byte) (s : State) : (appendRun lits s).inLen = s.inLen := rfl
@[simp] theorem appendRun_w (lits : List Byte) (s : State) : (appendRun lits s).w = s.w := rfl
@[simp] theorem appendRun_input (lits : List Byte) (s : State) : (appendRun lits s).input = s.input := rfl
@[simp] theorem appendRun_out (lits : List Byte) (s : State) : (appendRun lits s).out = s.out := rfl
@[simp] theorem appendRun_lastCmd (lits : List Byte) (s : State) : (appendRun lits s).lastCmd = s.lastCmd := rfl
@[simp] theorem appendRun_agenda (lits : List Byte) (s : State) : (appendRun lits s).agenda = s.agenda := rfl
@[simp] theorem appendRun_reply (lits : List Byte) (s : State) : (appendRun lits s).reply = s.reply := rfl
@[simp] theorem appendRun_refusedMark (lits : List Byte) (s : State) : (appendRun lits s).refusedMark = s.refusedMark := rfl
@[simp] theorem appendRun_faultMark (lits : List Byte) (s : State) : (appendRun lits s).faultMark = s.faultMark := rfl
@[simp] theorem appendRun_fresh (lits : List Byte) (s : State) : (appendRun lits s).fresh = s.fresh := rfl

/-! ### setCk -/

@[simp] theorem setCk_params (v : Word) (s : State) : (setCk v s).params = s.params := rfl
@[simp] theorem setCk_cfgWindow (v : Word) (s : State) : (setCk v s).cfgWindow = s.cfgWindow := rfl
@[simp] theorem setCk_cfgHashBits (v : Word) (s : State) : (setCk v s).cfgHashBits = s.cfgHashBits := rfl
@[simp] theorem setCk_cmd (v : Word) (s : State) : (setCk v s).cmd = s.cmd := rfl
@[simp] theorem setCk_argLen (v : Word) (s : State) : (setCk v s).argLen = s.argLen := rfl
@[simp] theorem setCk_argSeed (v : Word) (s : State) : (setCk v s).argSeed = s.argSeed := rfl
@[simp] theorem setCk_argOutCap (v : Word) (s : State) : (setCk v s).argOutCap = s.argOutCap := rfl
@[simp] theorem setCk_status (v : Word) (s : State) : (setCk v s).status = s.status := rfl
@[simp] theorem setCk_resultLen (v : Word) (s : State) : (setCk v s).resultLen = s.resultLen := rfl
@[simp] theorem setCk_resultChk (v : Word) (s : State) : (setCk v s).resultChk = s.resultChk := rfl
@[simp] theorem setCk_excCode (v : Word) (s : State) : (setCk v s).excCode = s.excCode := rfl
@[simp] theorem setCk_excInfo (v : Word) (s : State) : (setCk v s).excInfo = s.excInfo := rfl
@[simp] theorem setCk_phase (v : Word) (s : State) : (setCk v s).phase = s.phase := rfl
@[simp] theorem setCk_inLen (v : Word) (s : State) : (setCk v s).inLen = s.inLen := rfl
@[simp] theorem setCk_input (v : Word) (s : State) : (setCk v s).input = s.input := rfl
@[simp] theorem setCk_out (v : Word) (s : State) : (setCk v s).out = s.out := rfl
@[simp] theorem setCk_lastCmd (v : Word) (s : State) : (setCk v s).lastCmd = s.lastCmd := rfl
@[simp] theorem setCk_rd (v : Word) (s : State) : (setCk v s).rd = s.rd := rfl
@[simp] theorem setCk_agenda (v : Word) (s : State) : (setCk v s).agenda = s.agenda := rfl
@[simp] theorem setCk_reply (v : Word) (s : State) : (setCk v s).reply = s.reply := rfl
@[simp] theorem setCk_refusedMark (v : Word) (s : State) : (setCk v s).refusedMark = s.refusedMark := rfl
@[simp] theorem setCk_faultMark (v : Word) (s : State) : (setCk v s).faultMark = s.faultMark := rfl
@[simp] theorem setCk_fresh (v : Word) (s : State) : (setCk v s).fresh = s.fresh := rfl
@[simp] theorem setCk_w_q (v : Word) (s : State) : (setCk v s).w.q = s.w.q := rfl
@[simp] theorem setCk_w_litStart (v : Word) (s : State) : (setCk v s).w.litStart = s.w.litStart := rfl
@[simp] theorem setCk_w_best (v : Word) (s : State) : (setCk v s).w.best = s.w.best := rfl
@[simp] theorem setCk_w_dist (v : Word) (s : State) : (setCk v s).w.dist = s.w.dist := rfl
@[simp] theorem setCk_w_matchMax (v : Word) (s : State) : (setCk v s).w.matchMax = s.w.matchMax := rfl
@[simp] theorem setCk_w_h (v : Word) (s : State) : (setCk v s).w.h = s.w.h := rfl
@[simp] theorem setCk_w_h1 (v : Word) (s : State) : (setCk v s).w.h1 = s.w.h1 := rfl
@[simp] theorem setCk_w_h2 (v : Word) (s : State) : (setCk v s).w.h2 = s.w.h2 := rfl
@[simp] theorem setCk_w_h3 (v : Word) (s : State) : (setCk v s).w.h3 = s.w.h3 := rfl
@[simp] theorem setCk_w_h4 (v : Word) (s : State) : (setCk v s).w.h4 = s.w.h4 := rfl
@[simp] theorem setCk_w_m (v : Word) (s : State) : (setCk v s).w.m = s.w.m := rfl
@[simp] theorem setCk_w_table (v : Word) (s : State) : (setCk v s).w.table = s.w.table := rfl
@[simp] theorem setCk_w_ckpos (v : Word) (s : State) : (setCk v s).w.ckpos = s.w.ckpos := rfl

/-! ### beginScan -/

@[simp] theorem beginScan_params (s : State) : (beginScan s).params = s.params := rfl
@[simp] theorem beginScan_cfgWindow (s : State) : (beginScan s).cfgWindow = s.cfgWindow := rfl
@[simp] theorem beginScan_cfgHashBits (s : State) : (beginScan s).cfgHashBits = s.cfgHashBits := rfl
@[simp] theorem beginScan_cmd (s : State) : (beginScan s).cmd = s.cmd := rfl
@[simp] theorem beginScan_argLen (s : State) : (beginScan s).argLen = s.argLen := rfl
@[simp] theorem beginScan_argSeed (s : State) : (beginScan s).argSeed = s.argSeed := rfl
@[simp] theorem beginScan_argOutCap (s : State) : (beginScan s).argOutCap = s.argOutCap := rfl
@[simp] theorem beginScan_status (s : State) : (beginScan s).status = s.status := rfl
@[simp] theorem beginScan_resultLen (s : State) : (beginScan s).resultLen = s.resultLen := rfl
@[simp] theorem beginScan_resultChk (s : State) : (beginScan s).resultChk = s.resultChk := rfl
@[simp] theorem beginScan_excCode (s : State) : (beginScan s).excCode = s.excCode := rfl
@[simp] theorem beginScan_excInfo (s : State) : (beginScan s).excInfo = s.excInfo := rfl
@[simp] theorem beginScan_phase (s : State) : (beginScan s).phase = s.phase := rfl
@[simp] theorem beginScan_inLen (s : State) : (beginScan s).inLen = s.inLen := rfl
@[simp] theorem beginScan_input (s : State) : (beginScan s).input = s.input := rfl
@[simp] theorem beginScan_out (s : State) : (beginScan s).out = s.out := rfl
@[simp] theorem beginScan_lastCmd (s : State) : (beginScan s).lastCmd = s.lastCmd := rfl
@[simp] theorem beginScan_rd (s : State) : (beginScan s).rd = s.rd := rfl
@[simp] theorem beginScan_agenda (s : State) : (beginScan s).agenda = s.agenda := rfl
@[simp] theorem beginScan_reply (s : State) : (beginScan s).reply = s.reply := rfl
@[simp] theorem beginScan_refusedMark (s : State) : (beginScan s).refusedMark = s.refusedMark := rfl
@[simp] theorem beginScan_faultMark (s : State) : (beginScan s).faultMark = s.faultMark := rfl
@[simp] theorem beginScan_fresh (s : State) : (beginScan s).fresh = s.fresh := rfl
@[simp] theorem beginScan_w_q (s : State) : (beginScan s).w.q = s.w.q := rfl
@[simp] theorem beginScan_w_litStart (s : State) : (beginScan s).w.litStart = s.w.litStart := rfl
@[simp] theorem beginScan_w_best (s : State) : (beginScan s).w.best = 2#17 := rfl
@[simp] theorem beginScan_w_dist (s : State) : (beginScan s).w.dist = 0#32 := rfl
@[simp] theorem beginScan_w_h (s : State) : (beginScan s).w.h = s.w.h := rfl
@[simp] theorem beginScan_w_h1 (s : State) : (beginScan s).w.h1 = s.w.h1 := rfl
@[simp] theorem beginScan_w_h2 (s : State) : (beginScan s).w.h2 = s.w.h2 := rfl
@[simp] theorem beginScan_w_h3 (s : State) : (beginScan s).w.h3 = s.w.h3 := rfl
@[simp] theorem beginScan_w_h4 (s : State) : (beginScan s).w.h4 = s.w.h4 := rfl
@[simp] theorem beginScan_w_m (s : State) : (beginScan s).w.m = s.w.m := rfl
@[simp] theorem beginScan_w_table (s : State) : (beginScan s).w.table = s.w.table := rfl
@[simp] theorem beginScan_w_s1 (s : State) : (beginScan s).w.s1 = s.w.s1 := rfl
@[simp] theorem beginScan_w_s2 (s : State) : (beginScan s).w.s2 = s.w.s2 := rfl
@[simp] theorem beginScan_w_ckpos (s : State) : (beginScan s).w.ckpos = s.w.ckpos := rfl

/-! ### updateTable -/

@[simp] theorem updateTable_params (s : State) : (updateTable s).params = s.params := rfl
@[simp] theorem updateTable_cfgWindow (s : State) : (updateTable s).cfgWindow = s.cfgWindow := rfl
@[simp] theorem updateTable_cfgHashBits (s : State) : (updateTable s).cfgHashBits = s.cfgHashBits := rfl
@[simp] theorem updateTable_cmd (s : State) : (updateTable s).cmd = s.cmd := rfl
@[simp] theorem updateTable_argLen (s : State) : (updateTable s).argLen = s.argLen := rfl
@[simp] theorem updateTable_argSeed (s : State) : (updateTable s).argSeed = s.argSeed := rfl
@[simp] theorem updateTable_argOutCap (s : State) : (updateTable s).argOutCap = s.argOutCap := rfl
@[simp] theorem updateTable_status (s : State) : (updateTable s).status = s.status := rfl
@[simp] theorem updateTable_resultLen (s : State) : (updateTable s).resultLen = s.resultLen := rfl
@[simp] theorem updateTable_resultChk (s : State) : (updateTable s).resultChk = s.resultChk := rfl
@[simp] theorem updateTable_excCode (s : State) : (updateTable s).excCode = s.excCode := rfl
@[simp] theorem updateTable_excInfo (s : State) : (updateTable s).excInfo = s.excInfo := rfl
@[simp] theorem updateTable_phase (s : State) : (updateTable s).phase = s.phase := rfl
@[simp] theorem updateTable_inLen (s : State) : (updateTable s).inLen = s.inLen := rfl
@[simp] theorem updateTable_input (s : State) : (updateTable s).input = s.input := rfl
@[simp] theorem updateTable_out (s : State) : (updateTable s).out = s.out := rfl
@[simp] theorem updateTable_lastCmd (s : State) : (updateTable s).lastCmd = s.lastCmd := rfl
@[simp] theorem updateTable_rd (s : State) : (updateTable s).rd = s.rd := rfl
@[simp] theorem updateTable_agenda (s : State) : (updateTable s).agenda = s.agenda := rfl
@[simp] theorem updateTable_reply (s : State) : (updateTable s).reply = s.reply := rfl
@[simp] theorem updateTable_refusedMark (s : State) : (updateTable s).refusedMark = s.refusedMark := rfl
@[simp] theorem updateTable_faultMark (s : State) : (updateTable s).faultMark = s.faultMark := rfl
@[simp] theorem updateTable_fresh (s : State) : (updateTable s).fresh = s.fresh := rfl
@[simp] theorem updateTable_w_q (s : State) : (updateTable s).w.q = s.w.q := rfl
@[simp] theorem updateTable_w_litStart (s : State) : (updateTable s).w.litStart = s.w.litStart := rfl
@[simp] theorem updateTable_w_best (s : State) : (updateTable s).w.best = s.w.best := rfl
@[simp] theorem updateTable_w_dist (s : State) : (updateTable s).w.dist = s.w.dist := rfl
@[simp] theorem updateTable_w_matchMax (s : State) : (updateTable s).w.matchMax = s.w.matchMax := rfl
@[simp] theorem updateTable_w_h (s : State) : (updateTable s).w.h = s.w.h := rfl
@[simp] theorem updateTable_w_h1 (s : State) : (updateTable s).w.h1 = s.w.h1 := rfl
@[simp] theorem updateTable_w_h2 (s : State) : (updateTable s).w.h2 = s.w.h2 := rfl
@[simp] theorem updateTable_w_h3 (s : State) : (updateTable s).w.h3 = s.w.h3 := rfl
@[simp] theorem updateTable_w_h4 (s : State) : (updateTable s).w.h4 = s.w.h4 := rfl
@[simp] theorem updateTable_w_m (s : State) : (updateTable s).w.m = s.w.m := rfl
@[simp] theorem updateTable_w_s1 (s : State) : (updateTable s).w.s1 = s.w.s1 := rfl
@[simp] theorem updateTable_w_s2 (s : State) : (updateTable s).w.s2 = s.w.s2 := rfl
@[simp] theorem updateTable_w_ckpos (s : State) : (updateTable s).w.ckpos = s.w.ckpos := rfl

/-! ### initCommand -/

@[simp] theorem initCommand_params (s : State) : (initCommand s).params = s.params := rfl
@[simp] theorem initCommand_cfgWindow (s : State) : (initCommand s).cfgWindow = s.cfgWindow := rfl
@[simp] theorem initCommand_cfgHashBits (s : State) : (initCommand s).cfgHashBits = s.cfgHashBits := rfl
@[simp] theorem initCommand_cmd (s : State) : (initCommand s).cmd = s.cmd := rfl
@[simp] theorem initCommand_argLen (s : State) : (initCommand s).argLen = s.argLen := rfl
@[simp] theorem initCommand_argSeed (s : State) : (initCommand s).argSeed = s.argSeed := rfl
@[simp] theorem initCommand_argOutCap (s : State) : (initCommand s).argOutCap = s.argOutCap := rfl
@[simp] theorem initCommand_status (s : State) : (initCommand s).status = s.status := rfl
@[simp] theorem initCommand_resultLen (s : State) : (initCommand s).resultLen = s.resultLen := rfl
@[simp] theorem initCommand_resultChk (s : State) : (initCommand s).resultChk = s.resultChk := rfl
@[simp] theorem initCommand_excCode (s : State) : (initCommand s).excCode = s.excCode := rfl
@[simp] theorem initCommand_excInfo (s : State) : (initCommand s).excInfo = s.excInfo := rfl
@[simp] theorem initCommand_phase (s : State) : (initCommand s).phase = s.phase := rfl
@[simp] theorem initCommand_inLen (s : State) : (initCommand s).inLen = s.inLen := rfl
@[simp] theorem initCommand_input (s : State) : (initCommand s).input = s.input := rfl
@[simp] theorem initCommand_out (s : State) : (initCommand s).out = [] := rfl
@[simp] theorem initCommand_lastCmd (s : State) : (initCommand s).lastCmd = s.lastCmd := rfl
@[simp] theorem initCommand_rd (s : State) : (initCommand s).rd = s.rd := rfl
@[simp] theorem initCommand_agenda (s : State) : (initCommand s).agenda = s.agenda := rfl
@[simp] theorem initCommand_reply (s : State) : (initCommand s).reply = s.reply := rfl
@[simp] theorem initCommand_refusedMark (s : State) : (initCommand s).refusedMark = s.refusedMark := rfl
@[simp] theorem initCommand_faultMark (s : State) : (initCommand s).faultMark = s.faultMark := rfl
@[simp] theorem initCommand_fresh (s : State) : (initCommand s).fresh = s.fresh := rfl
@[simp] theorem initCommand_w_q (s : State) : (initCommand s).w.q = 0#32 := rfl
@[simp] theorem initCommand_w_litStart (s : State) : (initCommand s).w.litStart = 0#32 := rfl
@[simp] theorem initCommand_w_best (s : State) : (initCommand s).w.best = s.w.best := rfl
@[simp] theorem initCommand_w_dist (s : State) : (initCommand s).w.dist = s.w.dist := rfl
@[simp] theorem initCommand_w_matchMax (s : State) : (initCommand s).w.matchMax = s.w.matchMax := rfl
@[simp] theorem initCommand_w_h (s : State) : (initCommand s).w.h = s.w.h := rfl
@[simp] theorem initCommand_w_h1 (s : State) : (initCommand s).w.h1 = s.w.h1 := rfl
@[simp] theorem initCommand_w_h2 (s : State) : (initCommand s).w.h2 = s.w.h2 := rfl
@[simp] theorem initCommand_w_h3 (s : State) : (initCommand s).w.h3 = s.w.h3 := rfl
@[simp] theorem initCommand_w_h4 (s : State) : (initCommand s).w.h4 = s.w.h4 := rfl
@[simp] theorem initCommand_w_m (s : State) : (initCommand s).w.m = s.w.m := rfl
@[simp] theorem initCommand_w_table (s : State) : (initCommand s).w.table = [] := rfl
@[simp] theorem initCommand_w_s1 (s : State) : (initCommand s).w.s1 = 1#16 := rfl
@[simp] theorem initCommand_w_s2 (s : State) : (initCommand s).w.s2 = 0#16 := rfl
@[simp] theorem initCommand_w_ckpos (s : State) : (initCommand s).w.ckpos = 0#32 := rfl

/-! ### literalByte -/

@[simp] theorem literalByte_params (s : State) : (literalByte s).params = s.params := rfl
@[simp] theorem literalByte_cfgWindow (s : State) : (literalByte s).cfgWindow = s.cfgWindow := rfl
@[simp] theorem literalByte_cfgHashBits (s : State) : (literalByte s).cfgHashBits = s.cfgHashBits := rfl
@[simp] theorem literalByte_cmd (s : State) : (literalByte s).cmd = s.cmd := rfl
@[simp] theorem literalByte_argLen (s : State) : (literalByte s).argLen = s.argLen := rfl
@[simp] theorem literalByte_argSeed (s : State) : (literalByte s).argSeed = s.argSeed := rfl
@[simp] theorem literalByte_argOutCap (s : State) : (literalByte s).argOutCap = s.argOutCap := rfl
@[simp] theorem literalByte_status (s : State) : (literalByte s).status = s.status := rfl
@[simp] theorem literalByte_resultLen (s : State) : (literalByte s).resultLen = s.resultLen := rfl
@[simp] theorem literalByte_resultChk (s : State) : (literalByte s).resultChk = s.resultChk := rfl
@[simp] theorem literalByte_excCode (s : State) : (literalByte s).excCode = s.excCode := rfl
@[simp] theorem literalByte_excInfo (s : State) : (literalByte s).excInfo = s.excInfo := rfl
@[simp] theorem literalByte_phase (s : State) : (literalByte s).phase = s.phase := rfl
@[simp] theorem literalByte_inLen (s : State) : (literalByte s).inLen = s.inLen := rfl
@[simp] theorem literalByte_input (s : State) : (literalByte s).input = s.input := rfl
@[simp] theorem literalByte_out (s : State) : (literalByte s).out = s.out := rfl
@[simp] theorem literalByte_lastCmd (s : State) : (literalByte s).lastCmd = s.lastCmd := rfl
@[simp] theorem literalByte_rd (s : State) : (literalByte s).rd = s.rd := rfl
@[simp] theorem literalByte_agenda (s : State) : (literalByte s).agenda = s.agenda := rfl
@[simp] theorem literalByte_reply (s : State) : (literalByte s).reply = s.reply := rfl
@[simp] theorem literalByte_refusedMark (s : State) : (literalByte s).refusedMark = s.refusedMark := rfl
@[simp] theorem literalByte_faultMark (s : State) : (literalByte s).faultMark = s.faultMark := rfl
@[simp] theorem literalByte_fresh (s : State) : (literalByte s).fresh = s.fresh := rfl
@[simp] theorem literalByte_w_q (s : State) : (literalByte s).w.q = s.w.q + 1#32 := rfl
@[simp] theorem literalByte_w_litStart (s : State) : (literalByte s).w.litStart = s.w.litStart := rfl
@[simp] theorem literalByte_w_best (s : State) : (literalByte s).w.best = s.w.best := rfl
@[simp] theorem literalByte_w_dist (s : State) : (literalByte s).w.dist = s.w.dist := rfl
@[simp] theorem literalByte_w_matchMax (s : State) : (literalByte s).w.matchMax = s.w.matchMax := rfl
@[simp] theorem literalByte_w_h (s : State) : (literalByte s).w.h = s.w.h := rfl
@[simp] theorem literalByte_w_h1 (s : State) : (literalByte s).w.h1 = s.w.h1 := rfl
@[simp] theorem literalByte_w_h2 (s : State) : (literalByte s).w.h2 = s.w.h2 := rfl
@[simp] theorem literalByte_w_h3 (s : State) : (literalByte s).w.h3 = s.w.h3 := rfl
@[simp] theorem literalByte_w_h4 (s : State) : (literalByte s).w.h4 = s.w.h4 := rfl
@[simp] theorem literalByte_w_m (s : State) : (literalByte s).w.m = s.w.m := rfl
@[simp] theorem literalByte_w_table (s : State) : (literalByte s).w.table = s.w.table := rfl
@[simp] theorem literalByte_w_s1 (s : State) : (literalByte s).w.s1 = s.w.s1 := rfl
@[simp] theorem literalByte_w_s2 (s : State) : (literalByte s).w.s2 = s.w.s2 := rfl
@[simp] theorem literalByte_w_ckpos (s : State) : (literalByte s).w.ckpos = s.w.ckpos := rfl

/-! ### advanceMatch -/

@[simp] theorem advanceMatch_params (s : State) : (advanceMatch s).params = s.params := rfl
@[simp] theorem advanceMatch_cfgWindow (s : State) : (advanceMatch s).cfgWindow = s.cfgWindow := rfl
@[simp] theorem advanceMatch_cfgHashBits (s : State) : (advanceMatch s).cfgHashBits = s.cfgHashBits := rfl
@[simp] theorem advanceMatch_cmd (s : State) : (advanceMatch s).cmd = s.cmd := rfl
@[simp] theorem advanceMatch_argLen (s : State) : (advanceMatch s).argLen = s.argLen := rfl
@[simp] theorem advanceMatch_argSeed (s : State) : (advanceMatch s).argSeed = s.argSeed := rfl
@[simp] theorem advanceMatch_argOutCap (s : State) : (advanceMatch s).argOutCap = s.argOutCap := rfl
@[simp] theorem advanceMatch_status (s : State) : (advanceMatch s).status = s.status := rfl
@[simp] theorem advanceMatch_resultLen (s : State) : (advanceMatch s).resultLen = s.resultLen := rfl
@[simp] theorem advanceMatch_resultChk (s : State) : (advanceMatch s).resultChk = s.resultChk := rfl
@[simp] theorem advanceMatch_excCode (s : State) : (advanceMatch s).excCode = s.excCode := rfl
@[simp] theorem advanceMatch_excInfo (s : State) : (advanceMatch s).excInfo = s.excInfo := rfl
@[simp] theorem advanceMatch_phase (s : State) : (advanceMatch s).phase = s.phase := rfl
@[simp] theorem advanceMatch_inLen (s : State) : (advanceMatch s).inLen = s.inLen := rfl
@[simp] theorem advanceMatch_input (s : State) : (advanceMatch s).input = s.input := rfl
@[simp] theorem advanceMatch_out (s : State) : (advanceMatch s).out = s.out := rfl
@[simp] theorem advanceMatch_lastCmd (s : State) : (advanceMatch s).lastCmd = s.lastCmd := rfl
@[simp] theorem advanceMatch_rd (s : State) : (advanceMatch s).rd = s.rd := rfl
@[simp] theorem advanceMatch_agenda (s : State) : (advanceMatch s).agenda = s.agenda := rfl
@[simp] theorem advanceMatch_reply (s : State) : (advanceMatch s).reply = s.reply := rfl
@[simp] theorem advanceMatch_refusedMark (s : State) : (advanceMatch s).refusedMark = s.refusedMark := rfl
@[simp] theorem advanceMatch_faultMark (s : State) : (advanceMatch s).faultMark = s.faultMark := rfl
@[simp] theorem advanceMatch_fresh (s : State) : (advanceMatch s).fresh = s.fresh := rfl
@[simp] theorem advanceMatch_w_q (s : State) : (advanceMatch s).w.q = s.w.q + s.w.best.setWidth 32 := rfl
@[simp] theorem advanceMatch_w_litStart (s : State) : (advanceMatch s).w.litStart = s.w.q + s.w.best.setWidth 32 := rfl
@[simp] theorem advanceMatch_w_best (s : State) : (advanceMatch s).w.best = s.w.best := rfl
@[simp] theorem advanceMatch_w_dist (s : State) : (advanceMatch s).w.dist = s.w.dist := rfl
@[simp] theorem advanceMatch_w_matchMax (s : State) : (advanceMatch s).w.matchMax = s.w.matchMax := rfl
@[simp] theorem advanceMatch_w_h (s : State) : (advanceMatch s).w.h = s.w.h := rfl
@[simp] theorem advanceMatch_w_h1 (s : State) : (advanceMatch s).w.h1 = s.w.h1 := rfl
@[simp] theorem advanceMatch_w_h2 (s : State) : (advanceMatch s).w.h2 = s.w.h2 := rfl
@[simp] theorem advanceMatch_w_h3 (s : State) : (advanceMatch s).w.h3 = s.w.h3 := rfl
@[simp] theorem advanceMatch_w_h4 (s : State) : (advanceMatch s).w.h4 = s.w.h4 := rfl
@[simp] theorem advanceMatch_w_m (s : State) : (advanceMatch s).w.m = s.w.m := rfl
@[simp] theorem advanceMatch_w_table (s : State) : (advanceMatch s).w.table = s.w.table := rfl
@[simp] theorem advanceMatch_w_s1 (s : State) : (advanceMatch s).w.s1 = s.w.s1 := rfl
@[simp] theorem advanceMatch_w_s2 (s : State) : (advanceMatch s).w.s2 = s.w.s2 := rfl
@[simp] theorem advanceMatch_w_ckpos (s : State) : (advanceMatch s).w.ckpos = s.w.ckpos := rfl

/-! ### doneStep -/

@[simp] theorem doneStep_params (s : State) : (doneStep s).params = s.params := rfl
@[simp] theorem doneStep_cfgWindow (s : State) : (doneStep s).cfgWindow = s.cfgWindow := rfl
@[simp] theorem doneStep_cfgHashBits (s : State) : (doneStep s).cfgHashBits = s.cfgHashBits := rfl
@[simp] theorem doneStep_cmd (s : State) : (doneStep s).cmd = s.cmd := rfl
@[simp] theorem doneStep_argLen (s : State) : (doneStep s).argLen = s.argLen := rfl
@[simp] theorem doneStep_argSeed (s : State) : (doneStep s).argSeed = s.argSeed := rfl
@[simp] theorem doneStep_argOutCap (s : State) : (doneStep s).argOutCap = s.argOutCap := rfl
@[simp] theorem doneStep_status (s : State) : (doneStep s).status = .doneOk := rfl
@[simp] theorem doneStep_resultLen (s : State) : (doneStep s).resultLen = s.outLen := rfl
@[simp] theorem doneStep_resultChk (s : State) : (doneStep s).resultChk = s.w.ck := rfl
@[simp] theorem doneStep_excCode (s : State) : (doneStep s).excCode = s.excCode := rfl
@[simp] theorem doneStep_excInfo (s : State) : (doneStep s).excInfo = s.excInfo := rfl
@[simp] theorem doneStep_phase (s : State) : (doneStep s).phase = .idle := rfl
@[simp] theorem doneStep_inLen (s : State) : (doneStep s).inLen = s.inLen := rfl
@[simp] theorem doneStep_input (s : State) : (doneStep s).input = s.input := rfl
@[simp] theorem doneStep_out (s : State) : (doneStep s).out = s.out := rfl
@[simp] theorem doneStep_lastCmd (s : State) : (doneStep s).lastCmd = s.lastCmd := rfl
@[simp] theorem doneStep_rd (s : State) : (doneStep s).rd = s.rd := rfl
@[simp] theorem doneStep_agenda (s : State) : (doneStep s).agenda = s.agenda := rfl
@[simp] theorem doneStep_reply (s : State) : (doneStep s).reply = s.reply := rfl
@[simp] theorem doneStep_refusedMark (s : State) : (doneStep s).refusedMark = s.refusedMark := rfl
@[simp] theorem doneStep_faultMark (s : State) : (doneStep s).faultMark = s.faultMark := rfl

/-! ### refuse -/

@[simp] theorem refuse_params (why : HostRefusal) (s : State) : (refuse why s).params = s.params := rfl
@[simp] theorem refuse_cfgWindow (why : HostRefusal) (s : State) : (refuse why s).cfgWindow = s.cfgWindow := rfl
@[simp] theorem refuse_cfgHashBits (why : HostRefusal) (s : State) : (refuse why s).cfgHashBits = s.cfgHashBits := rfl
@[simp] theorem refuse_cmd (why : HostRefusal) (s : State) : (refuse why s).cmd = s.cmd := rfl
@[simp] theorem refuse_argLen (why : HostRefusal) (s : State) : (refuse why s).argLen = s.argLen := rfl
@[simp] theorem refuse_argSeed (why : HostRefusal) (s : State) : (refuse why s).argSeed = s.argSeed := rfl
@[simp] theorem refuse_argOutCap (why : HostRefusal) (s : State) : (refuse why s).argOutCap = s.argOutCap := rfl
@[simp] theorem refuse_status (why : HostRefusal) (s : State) : (refuse why s).status = s.status := rfl
@[simp] theorem refuse_resultLen (why : HostRefusal) (s : State) : (refuse why s).resultLen = s.resultLen := rfl
@[simp] theorem refuse_resultChk (why : HostRefusal) (s : State) : (refuse why s).resultChk = s.resultChk := rfl
@[simp] theorem refuse_excCode (why : HostRefusal) (s : State) : (refuse why s).excCode = s.excCode := rfl
@[simp] theorem refuse_excInfo (why : HostRefusal) (s : State) : (refuse why s).excInfo = s.excInfo := rfl
@[simp] theorem refuse_phase (why : HostRefusal) (s : State) : (refuse why s).phase = s.phase := rfl
@[simp] theorem refuse_inLen (why : HostRefusal) (s : State) : (refuse why s).inLen = s.inLen := rfl
@[simp] theorem refuse_w (why : HostRefusal) (s : State) : (refuse why s).w = s.w := rfl
@[simp] theorem refuse_input (why : HostRefusal) (s : State) : (refuse why s).input = s.input := rfl
@[simp] theorem refuse_out (why : HostRefusal) (s : State) : (refuse why s).out = s.out := rfl
@[simp] theorem refuse_lastCmd (why : HostRefusal) (s : State) : (refuse why s).lastCmd = s.lastCmd := rfl
@[simp] theorem refuse_rd (why : HostRefusal) (s : State) : (refuse why s).rd = s.rd := rfl
@[simp] theorem refuse_agenda (why : HostRefusal) (s : State) : (refuse why s).agenda = s.agenda := rfl
@[simp] theorem refuse_reply (why : HostRefusal) (s : State) : (refuse why s).reply = .nothing := rfl
@[simp] theorem refuse_faultMark (why : HostRefusal) (s : State) : (refuse why s).faultMark = s.faultMark := rfl
@[simp] theorem refuse_fresh (why : HostRefusal) (s : State) : (refuse why s).fresh = s.fresh := rfl

/-! ### giveFrame -/

@[simp] theorem giveFrame_params (bs : List Byte) (s : State) : (giveFrame bs s).params = s.params := rfl
@[simp] theorem giveFrame_cfgWindow (bs : List Byte) (s : State) : (giveFrame bs s).cfgWindow = s.cfgWindow := rfl
@[simp] theorem giveFrame_cfgHashBits (bs : List Byte) (s : State) : (giveFrame bs s).cfgHashBits = s.cfgHashBits := rfl
@[simp] theorem giveFrame_cmd (bs : List Byte) (s : State) : (giveFrame bs s).cmd = s.cmd := rfl
@[simp] theorem giveFrame_argLen (bs : List Byte) (s : State) : (giveFrame bs s).argLen = s.argLen := rfl
@[simp] theorem giveFrame_argSeed (bs : List Byte) (s : State) : (giveFrame bs s).argSeed = s.argSeed := rfl
@[simp] theorem giveFrame_argOutCap (bs : List Byte) (s : State) : (giveFrame bs s).argOutCap = s.argOutCap := rfl
@[simp] theorem giveFrame_status (bs : List Byte) (s : State) : (giveFrame bs s).status = s.status := rfl
@[simp] theorem giveFrame_resultLen (bs : List Byte) (s : State) : (giveFrame bs s).resultLen = s.resultLen := rfl
@[simp] theorem giveFrame_resultChk (bs : List Byte) (s : State) : (giveFrame bs s).resultChk = s.resultChk := rfl
@[simp] theorem giveFrame_excCode (bs : List Byte) (s : State) : (giveFrame bs s).excCode = s.excCode := rfl
@[simp] theorem giveFrame_excInfo (bs : List Byte) (s : State) : (giveFrame bs s).excInfo = s.excInfo := rfl
@[simp] theorem giveFrame_phase (bs : List Byte) (s : State) : (giveFrame bs s).phase = s.phase := rfl
@[simp] theorem giveFrame_inLen (bs : List Byte) (s : State) : (giveFrame bs s).inLen = s.inLen := rfl
@[simp] theorem giveFrame_w (bs : List Byte) (s : State) : (giveFrame bs s).w = s.w := rfl
@[simp] theorem giveFrame_input (bs : List Byte) (s : State) : (giveFrame bs s).input = s.input := rfl
@[simp] theorem giveFrame_out (bs : List Byte) (s : State) : (giveFrame bs s).out = s.out := rfl
@[simp] theorem giveFrame_lastCmd (bs : List Byte) (s : State) : (giveFrame bs s).lastCmd = s.lastCmd := rfl
@[simp] theorem giveFrame_agenda (bs : List Byte) (s : State) : (giveFrame bs s).agenda = s.agenda := rfl
@[simp] theorem giveFrame_refusedMark (bs : List Byte) (s : State) : (giveFrame bs s).refusedMark = s.refusedMark := rfl
@[simp] theorem giveFrame_faultMark (bs : List Byte) (s : State) : (giveFrame bs s).faultMark = s.faultMark := rfl
@[simp] theorem giveFrame_fresh (bs : List Byte) (s : State) : (giveFrame bs s).fresh = s.fresh := rfl

/-! ### dropTurn -/

@[simp] theorem dropTurn_params (s : State) : (dropTurn s).params = s.params := rfl
@[simp] theorem dropTurn_cfgWindow (s : State) : (dropTurn s).cfgWindow = s.cfgWindow := rfl
@[simp] theorem dropTurn_cfgHashBits (s : State) : (dropTurn s).cfgHashBits = s.cfgHashBits := rfl
@[simp] theorem dropTurn_cmd (s : State) : (dropTurn s).cmd = s.cmd := rfl
@[simp] theorem dropTurn_argLen (s : State) : (dropTurn s).argLen = s.argLen := rfl
@[simp] theorem dropTurn_argSeed (s : State) : (dropTurn s).argSeed = s.argSeed := rfl
@[simp] theorem dropTurn_argOutCap (s : State) : (dropTurn s).argOutCap = s.argOutCap := rfl
@[simp] theorem dropTurn_status (s : State) : (dropTurn s).status = s.status := rfl
@[simp] theorem dropTurn_resultLen (s : State) : (dropTurn s).resultLen = s.resultLen := rfl
@[simp] theorem dropTurn_resultChk (s : State) : (dropTurn s).resultChk = s.resultChk := rfl
@[simp] theorem dropTurn_excCode (s : State) : (dropTurn s).excCode = s.excCode := rfl
@[simp] theorem dropTurn_excInfo (s : State) : (dropTurn s).excInfo = s.excInfo := rfl
@[simp] theorem dropTurn_phase (s : State) : (dropTurn s).phase = s.phase := rfl
@[simp] theorem dropTurn_inLen (s : State) : (dropTurn s).inLen = s.inLen := rfl
@[simp] theorem dropTurn_w (s : State) : (dropTurn s).w = s.w := rfl
@[simp] theorem dropTurn_input (s : State) : (dropTurn s).input = s.input := rfl
@[simp] theorem dropTurn_out (s : State) : (dropTurn s).out = s.out := rfl
@[simp] theorem dropTurn_lastCmd (s : State) : (dropTurn s).lastCmd = s.lastCmd := rfl
@[simp] theorem dropTurn_rd (s : State) : (dropTurn s).rd = s.rd := rfl
@[simp] theorem dropTurn_agenda (s : State) : (dropTurn s).agenda = s.agenda.tail := rfl
@[simp] theorem dropTurn_reply (s : State) : (dropTurn s).reply = s.reply := rfl
@[simp] theorem dropTurn_refusedMark (s : State) : (dropTurn s).refusedMark = s.refusedMark := rfl
@[simp] theorem dropTurn_faultMark (s : State) : (dropTurn s).faultMark = s.faultMark := rfl
@[simp] theorem dropTurn_fresh (s : State) : (dropTurn s).fresh = s.fresh := rfl

/-! ### withNextToken -/

@[simp] theorem withNextToken_params (bs : List Byte) (s : State) : (withNextToken bs s).params = s.params := rfl
@[simp] theorem withNextToken_cfgWindow (bs : List Byte) (s : State) : (withNextToken bs s).cfgWindow = s.cfgWindow := rfl
@[simp] theorem withNextToken_cfgHashBits (bs : List Byte) (s : State) : (withNextToken bs s).cfgHashBits = s.cfgHashBits := rfl
@[simp] theorem withNextToken_cmd (bs : List Byte) (s : State) : (withNextToken bs s).cmd = s.cmd := rfl
@[simp] theorem withNextToken_argLen (bs : List Byte) (s : State) : (withNextToken bs s).argLen = s.argLen := rfl
@[simp] theorem withNextToken_argSeed (bs : List Byte) (s : State) : (withNextToken bs s).argSeed = s.argSeed := rfl
@[simp] theorem withNextToken_argOutCap (bs : List Byte) (s : State) : (withNextToken bs s).argOutCap = s.argOutCap := rfl
@[simp] theorem withNextToken_status (bs : List Byte) (s : State) : (withNextToken bs s).status = s.status := rfl
@[simp] theorem withNextToken_resultLen (bs : List Byte) (s : State) : (withNextToken bs s).resultLen = s.resultLen := rfl
@[simp] theorem withNextToken_resultChk (bs : List Byte) (s : State) : (withNextToken bs s).resultChk = s.resultChk := rfl
@[simp] theorem withNextToken_excCode (bs : List Byte) (s : State) : (withNextToken bs s).excCode = s.excCode := rfl
@[simp] theorem withNextToken_excInfo (bs : List Byte) (s : State) : (withNextToken bs s).excInfo = s.excInfo := rfl
@[simp] theorem withNextToken_phase (bs : List Byte) (s : State) : (withNextToken bs s).phase = s.phase := rfl
@[simp] theorem withNextToken_inLen (bs : List Byte) (s : State) : (withNextToken bs s).inLen = s.inLen := rfl
@[simp] theorem withNextToken_w (bs : List Byte) (s : State) : (withNextToken bs s).w = s.w := rfl
@[simp] theorem withNextToken_input (bs : List Byte) (s : State) : (withNextToken bs s).input = s.input := rfl
@[simp] theorem withNextToken_out (bs : List Byte) (s : State) : (withNextToken bs s).out = s.out := rfl
@[simp] theorem withNextToken_lastCmd (bs : List Byte) (s : State) : (withNextToken bs s).lastCmd = s.lastCmd := rfl
@[simp] theorem withNextToken_agenda (bs : List Byte) (s : State) : (withNextToken bs s).agenda = .reader :: s.agenda := rfl
@[simp] theorem withNextToken_reply (bs : List Byte) (s : State) : (withNextToken bs s).reply = s.reply := rfl
@[simp] theorem withNextToken_refusedMark (bs : List Byte) (s : State) : (withNextToken bs s).refusedMark = s.refusedMark := rfl
@[simp] theorem withNextToken_faultMark (bs : List Byte) (s : State) : (withNextToken bs s).faultMark = s.faultMark := rfl
@[simp] theorem withNextToken_fresh (bs : List Byte) (s : State) : (withNextToken bs s).fresh = s.fresh := rfl

end Sys2Proof.Machine
end

