-- ==== Sys2Proof/Laws/Streams.lean ====
section
/-! SUPPORT. What reading the input and appending to the output do, said once: each of `readBytes`, `emitAll`, `emitBytes` and the
emissions built from them (spec/20_memory.md R42, R43, spec/42_opcode_encoder.md R109 to R121). -/

namespace Sys2Proof.Machine

@[simp] theorem andThen_go (s : State) (f : State → Ran) : (Ran.go s).andThen f = f s := rfl

@[simp] theorem andThen_raised (e : Exc) (s : State) (f : State → Ran) : (Ran.raised e s).andThen f = .raised e s := rfl

theorem andThen_assoc (r : Ran) (f g : State → Ran) : (r.andThen f).andThen g = r.andThen fun s => (f s).andThen g := by
  cases r <;> rfl

/-- What a part of a step that goes on consists of. -/
theorem andThen_eq_go {r : Ran} {f : State → Ran} {t : State} : r.andThen f = .go t ↔ ∃ s, r = .go s ∧ f s = .go t := by
  cases r <;> simp

/-! ### The input -/

@[simp] theorem inputBytes_length (s : State) (p n : Nat) : (inputBytes s p n).length = n := by simp [inputBytes]

@[simp] theorem inputBytes_zero (s : State) (p : Nat) : inputBytes s p 0 = [] := rfl

theorem inputBytes_succ (s : State) (p n : Nat) :
    inputBytes s p (n + 1) = s.input.read p :: inputBytes s (p + 1) n := by
  simp only [inputBytes, List.range_succ_eq_map, List.map_cons, List.map_map, Nat.add_zero]
  congr 1
  refine List.map_congr_left fun i _ => ?_
  simp [Nat.add_comm, Nat.add_left_comm]

theorem inputBytes_add (s : State) (p n m : Nat) : inputBytes s p (n + m) = inputBytes s p n ++ inputBytes s (p + n) m := by
  induction n generalizing p with
  | zero => simp
  | succ n ih =>
    rw [Nat.add_right_comm, inputBytes_succ, inputBytes_succ, ih, List.cons_append, Nat.add_right_comm, Nat.add_assoc p n 1]

/-- Input bytes depend on the input space alone. -/
theorem inputBytes_congr {s t : State} (h : s.input = t.input) (p n : Nat) : inputBytes s p n = inputBytes t p n := by
  simp [inputBytes, h]

theorem inputBytes_getElem (s : State) (p n i : Nat) (h : i < n) :
    (inputBytes s p n)[i]'(by simpa using h) = s.input.read (p + i) := by simp [inputBytes]

theorem memRead_ok (s : State) (a : Nat) (h : a < s.inLen.toNat) : memRead s a = .ok (s.input.read a) := by
  simp [memRead, h]

/-- `MemRead` is the same of two inputs that agree below `IN_LEN`. -/
theorem memRead_congr {s t : State} (hl : s.inLen = t.inLen)
    (hi : ∀ a, a < s.inLen.toNat → s.input.read a = t.input.read a) (a : Nat) : memRead s a = memRead t a := by
  unfold memRead
  rw [← hl]
  split
  · rename_i h; rw [hi a h]
  · rfl

/-- Bytes read are the same where every `MemRead` is. -/
theorem readBytes_congr {s t : State} (h : ∀ a, memRead s a = memRead t a) (p n : Nat) :
    readBytes s p n = readBytes t p n := by
  induction n generalizing p with
  | zero => rfl
  | succ n ih => simp only [readBytes, h, ih]

/-- Input bytes below `IN_LEN` depend on the input below it alone. -/
theorem inputBytes_congr_of_lt {s t : State} (hi : ∀ a, a < s.inLen.toNat → s.input.read a = t.input.read a) (p n : Nat)
    (h : p + n ≤ s.inLen.toNat) : inputBytes s p n = inputBytes t p n := by
  unfold inputBytes
  exact List.map_congr_left fun i hin => hi _ (by have := List.mem_range.1 hin; omega)

/-- Reading inside the input gives its bytes. -/
theorem readBytes_ok (s : State) (p n : Nat) (h : p + n ≤ s.inLen.toNat) : readBytes s p n = .ok (inputBytes s p n) := by
  induction n generalizing p with
  | zero => rfl
  | succ n ih =>
    simp only [readBytes, memRead_ok s p (by omega), ih (p + 1) (by omega), inputBytes_succ]

/-! ### Appending -/

theorem emitAll_append (a b : List Byte) (s : State) : emitAll (a ++ b) s = (emitAll a s).andThen (emitAll b) := by
  induction a generalizing s with
  | nil => rfl
  | cons x a ih =>
    simp only [List.cons_append, emitAll, andThen_assoc]
    cases emitByte x s with
    | go t => simp [ih]
    | raised e t => rfl

/-- Bytes that fit are appended, and nothing else changes. -/
theorem emitAll_fits (bs : List Byte) (s : State) (h : s.out.length + bs.length ≤ s.argOutCap.toNat) :
    emitAll bs s = .go { s with out := s.out ++ bs } := by
  induction bs generalizing s with
  | nil => simp [emitAll]
  | cons b bs ih =>
    simp only [List.length_cons] at h
    simp only [emitAll, emitByte]
    rw [if_neg (by omega)]
    simp only [andThen_go]
    rw [ih _ (by simp; omega)]
    simp

/-- Bytes that do not fit: those before the capacity are appended, and `OutputOverflow` is raised at the capacity. -/
theorem emitAll_overflow (bs : List Byte) (s : State) (h0 : s.out.length ≤ s.argOutCap.toNat)
    (h : s.argOutCap.toNat < s.out.length + bs.length) :
    emitAll bs s =
      .raised (.outputOverflow s.argOutCap) { s with out := s.out ++ bs.take (s.argOutCap.toNat - s.out.length) } := by
  induction bs generalizing s with
  | nil => simp at h; omega
  | cons b bs ih =>
    simp only [List.length_cons] at h
    simp only [emitAll, emitByte]
    by_cases hc : s.argOutCap.toNat ≤ s.out.length
    · have he : s.out.length = s.argOutCap.toNat := by omega
      rw [if_pos hc]
      simp [State.outLen, he]
    · rw [if_neg hc]
      simp only [andThen_go]
      rw [ih _ (by simp; omega) (by simp; omega)]
      have : s.argOutCap.toNat - s.out.length = (s.argOutCap.toNat - (s.out ++ [b]).length) + 1 := by simp; omega
      rw [this]
      simp

/-- Appending ends in one of two ways, and changes nothing but the output stream. -/
theorem emitAll_cases (bs : List Byte) (s : State) :
    emitAll bs s = .go { s with out := s.out ++ bs } ∨
      ∃ n c, emitAll bs s = .raised (.outputOverflow c) { s with out := s.out ++ bs.take n } := by
  induction bs generalizing s with
  | nil => exact .inl (by simp [emitAll])
  | cons b bs ih =>
    simp only [emitAll, emitByte]
    split
    · exact .inr ⟨0, s.outLen, by simp⟩
    · rcases ih { s with out := s.out ++ [b] } with h | ⟨n, c, h⟩
      · exact .inl (by simp [h])
      · exact .inr ⟨n + 1, c, by simp [h]⟩

/-- Where appending goes on, the bytes are appended and fit. -/
theorem emitAll_eq_go {bs : List Byte} {s t : State} (h : emitAll bs s = .go t) : t = { s with out := s.out ++ bs } := by
  rcases emitAll_cases bs s with h' | ⟨n, c, h'⟩
  · rw [h'] at h; exact (Ran.go.inj h).symm
  · rw [h'] at h; exact absurd h (by simp)

theorem emit_eq (n v : Nat) (s : State) : emit n v s = emitAll (beBytes n v) s := rfl

/-- Copying input bytes to the output is appending them. -/
theorem emitBytes_eq (p n : Nat) (s : State) (h : p + n ≤ s.inLen.toNat) :
    emitBytes p n s = emitAll (inputBytes s p n) s := by
  induction n generalizing p s with
  | zero => rfl
  | succ n ih =>
    rw [inputBytes_succ]
    simp only [emitBytes, memRead_ok s p (by omega), emitAll]
    cases hb : emitByte (s.input.read p) s with
    | raised e t => rfl
    | go t =>
      have ht : t = { s with out := s.out ++ [s.input.read p] } := by
        unfold emitByte at hb; split at hb
        · exact absurd hb (by simp)
        · exact (Ran.go.inj hb).symm
      subst ht
      simp only [andThen_go]
      rw [ih (p + 1) _ (by simp only; omega)]
      rfl

end Sys2Proof.Machine
end

