-- ==== Sys2Proof/Laws/Accumulator.lean ====
section
/-! SUPPORT. What a fold can do, and the two halves of the accumulator. -/

namespace Sys2Proof.Machine

/-- The two residues joined fit 32 bits. -/
theorem joinSums_lt {m : Nat} (h0 : 1 ≤ m) (hm : m ≤ 65536) (a : Nat × Nat) : a.2 % m * 65536 + a.1 % m < 2 ^ 32 := by
  have h1 := Nat.mod_lt a.2 h0
  have h2 := Nat.mod_lt a.1 h0
  generalize a.1 % m = x at *
  generalize a.2 % m = y at *
  omega

/-- The halves of the joined sums are the residues. -/
theorem splitSums_joinSums {m : Nat} (h0 : 1 ≤ m) (hm : m ≤ 65536) (a : Nat × Nat) :
    splitSums (joinSums m a) = (a.1 % m, a.2 % m) := by
  have h1 := Nat.mod_lt a.2 h0
  have h2 := Nat.mod_lt a.1 h0
  have h3 := joinSums_lt h0 hm a
  simp only [splitSums, joinSums, BitVec.toNat_ofNat, Nat.mod_eq_of_lt h3]
  generalize a.1 % m = x at *
  generalize a.2 % m = y at *
  ext <;> simp only <;> omega

/-- Only the residues of the sums matter. -/
theorem joinSums_congr (m : Nat) (a c : Nat × Nat) (h1 : a.1 % m = c.1 % m) (h2 : a.2 % m = c.2 % m) :
    joinSums m a = joinSums m c := by
  simp [joinSums, h1, h2]

/-- The accumulator holds what was put into it. -/
theorem ck_setCk (v : Word) (s : State) : (setCk v s).w.ck = v := by
  apply BitVec.eq_of_toNat_eq
  have := v.isLt
  simp [Work.ck, setCk]
  omega

/-- A fold of bytes inside the input goes on, and writes only the accumulator and `CKPOS` (R129). -/
theorem fold_ok (p n : Nat) (s : State) (h : p + n ≤ s.inLen.toNat) :
    ∃ t, fold p n s = .go t ∧ t = { s with w := { s.w with s1 := t.w.s1, s2 := t.w.s2, ckpos := t.w.ckpos } } ∧
      t.w.ck = checksum s.params s.w.ck (inputBytes s p n) ∧ (t.w.ckpos = if n = 0 then s.w.ckpos else BitVec.ofNat 32 (p + n)) := by
  unfold fold
  split
  · rename_i hn; subst hn; exact ⟨s, rfl, rfl, by simp [checksum], by simp⟩
  · rename_i hn
    rw [readBytes_ok s p n h]
    refine ⟨_, rfl, rfl, ?_, ?_⟩
    · exact ck_setCk _ s
    · simp

end Sys2Proof.Machine
end

