-- ==== Sys2Proof/Laws/Cells.lean ====
section
/-! SUPPORT. The laws of the stores kept as cells in canonical form: read after write, and that every operation keeps the form. -/

namespace Sys2Proof.Machine

variable {α : Type}

/-- In rising cells nothing is listed at an address below all of them. -/
theorem cellGet_of_forall_gt (l : List (Nat × α)) (a : Nat) (h : ∀ c ∈ l, a < c.1) : cellGet l a = none := by
  induction l with
  | nil => rfl
  | cons c r ih =>
    have hc : a < c.1 := h c (by simp)
    simp only [cellGet]
    rw [if_neg (by omega)]
    exact ih fun d hd => h d (by simp [hd])

theorem rising_cons (c : Nat × α) (r : List (Nat × α)) : Rising (c :: r) ↔ (∀ d ∈ r, c.1 < d.1) ∧ Rising r :=
  List.pairwise_cons

/-- The addresses listed after a put. -/
theorem mem_cellPut (l : List (Nat × α)) (a : Nat) (x : α) (c : Nat × α) :
    c ∈ cellPut l a x → c = (a, x) ∨ c ∈ l := by
  induction l with
  | nil => intro h; simpa [cellPut] using h
  | cons d r ih =>
    simp only [cellPut]
    split
    · intro h; simpa using h
    · split
      · intro h
        rcases List.mem_cons.1 h with h | h
        · exact .inl h
        · exact .inr (by simp [h])
      · intro h
        rcases List.mem_cons.1 h with h | h
        · exact .inr (by simp [h])
        · rcases ih h with h | h
          · exact .inl h
          · exact .inr (by simp [h])

theorem mem_cellDel (l : List (Nat × α)) (a : Nat) (c : Nat × α) : c ∈ cellDel l a → c ∈ l := by
  induction l with
  | nil => intro h; simp [cellDel] at h
  | cons d r ih =>
    simp only [cellDel]
    split
    · intro h; exact List.mem_cons_of_mem _ h
    · intro h
      rcases List.mem_cons.1 h with h | h
      · simp [h]
      · exact List.mem_cons_of_mem _ (ih h)

/-- Putting keeps the addresses rising. -/
theorem cellPut_rising (l : List (Nat × α)) (a : Nat) (x : α) (h : Rising l) : Rising (cellPut l a x) := by
  induction l with
  | nil => simp [cellPut, Rising]
  | cons c r ih =>
    obtain ⟨h1, h2⟩ := (rising_cons c r).1 h
    simp only [cellPut]
    split
    · rename_i hlt
      refine (rising_cons _ _).2 ⟨fun d hd => ?_, h⟩
      rcases List.mem_cons.1 hd with hd | hd
      · subst hd; exact hlt
      · have := h1 d hd; simp only; omega
    · split
      · rename_i heq
        refine (rising_cons _ _).2 ⟨fun d hd => ?_, h2⟩
        have := h1 d hd; simp only; omega
      · rename_i h3 h4
        refine (rising_cons _ _).2 ⟨fun d hd => ?_, ih h2⟩
        rcases mem_cellPut r a x d hd with hd | hd
        · subst hd; simp only; omega
        · exact h1 d hd

/-- Deleting keeps the addresses rising. -/
theorem cellDel_rising (l : List (Nat × α)) (a : Nat) (h : Rising l) : Rising (cellDel l a) := by
  induction l with
  | nil => exact h
  | cons c r ih =>
    obtain ⟨h1, h2⟩ := (rising_cons c r).1 h
    simp only [cellDel]
    split
    · exact h2
    · exact (rising_cons _ _).2 ⟨fun d hd => h1 d (mem_cellDel r a d hd), ih h2⟩

/-- Read after put, at the same and at any other address. -/
theorem cellGet_cellPut (l : List (Nat × α)) (a b : Nat) (x : α) :
    cellGet (cellPut l a x) b = if b = a then some x else cellGet l b := by
  induction l with
  | nil => simp [cellPut, cellGet]
  | cons c r ih =>
    obtain ⟨k, v⟩ := c
    simp only [cellPut]
    split
    · simp only [cellGet]
    · split
      · rename_i h; subst h
        simp only [cellGet]
        split <;> simp_all
      · simp only [cellGet, ih]
        split
        · subst_vars; rw [if_neg (by omega)]
        · rfl

/-- Read after delete. -/
theorem cellGet_cellDel (l : List (Nat × α)) (a b : Nat) (h : Rising l) :
    cellGet (cellDel l a) b = if b = a then none else cellGet l b := by
  induction l with
  | nil => simp [cellDel, cellGet]
  | cons c r ih =>
    obtain ⟨h1, h2⟩ := (rising_cons c r).1 h
    obtain ⟨k, v⟩ := c
    simp only [cellDel]
    split
    · rename_i hk
      split
      · rename_i hb
        exact cellGet_of_forall_gt r b fun d hd => by have := h1 d hd; simp only at this; omega
      · simp only [cellGet]; rw [if_neg (by omega)]
    · simp only [cellGet, ih h2]
      split
      · subst_vars; rw [if_neg (by omega)]
      · rfl

/-- Two rising lists of cells that read alike everywhere are equal: the form is canonical. -/
theorem rising_ext (l m : List (Nat × α)) (hl : Rising l) (hm : Rising m) (h : ∀ a, cellGet l a = cellGet m a) : l = m := by
  induction l generalizing m with
  | nil =>
    cases m with
    | nil => rfl
    | cons c r => have := h c.1; simp [cellGet] at this
  | cons c r ih =>
    obtain ⟨k, v⟩ := c
    obtain ⟨hl1, hl2⟩ := (rising_cons _ _).1 hl
    cases m with
    | nil => have := h k; simp [cellGet] at this
    | cons d t =>
      obtain ⟨k', v'⟩ := d
      obtain ⟨hm1, hm2⟩ := (rising_cons _ _).1 hm
      have hk : k = k' := by
        by_contra hne
        rcases Nat.lt_or_gt_of_ne hne with hlt | hlt
        · have hh := h k
          have hnone : cellGet t k = none := cellGet_of_forall_gt t k fun d hd => by have := hm1 d hd; simp only at this; omega
          rw [cellGet, if_pos rfl, cellGet, if_neg hne, hnone] at hh
          exact absurd hh (by simp)
        · have hh := h k'
          have hnone : cellGet r k' = none := cellGet_of_forall_gt r k' fun d hd => by have := hl1 d hd; simp only at this; omega
          rw [cellGet, if_neg (fun e => hne e.symm), hnone, cellGet, if_pos rfl] at hh
          exact absurd hh (by simp)
      subst hk
      have hv : v = v' := by have := h k; simpa [cellGet] using this
      subst hv
      congr 1
      refine ih t hl2 hm2 fun a => ?_
      have := h a
      simp only [cellGet] at this
      by_cases ha : a = k
      · subst ha
        rw [cellGet_of_forall_gt r a fun d hd => by have := hl1 d hd; simpa using this,
          cellGet_of_forall_gt t a fun d hd => by have := hm1 d hd; simpa using this]
      · simpa [ha] using this

/-! ### The input space -/

/-- Read after write. -/
theorem Mem.read_write (mem : Mem) (a b : Nat) (x : Byte) (h : Rising mem) :
    (mem.write a x).read b = if b = a then x else mem.read b := by
  unfold Mem.write Mem.read
  split
  · rename_i hx
    rw [cellGet_cellDel mem a b h]
    split <;> simp_all
  · rw [cellGet_cellPut]
    split <;> simp

/-- A write keeps the canonical form. -/
theorem Mem.write_wf {lenMax : Nat} (mem : Mem) (a : Nat) (x : Byte) (h : mem.wf lenMax) (ha : a < lenMax) :
    (mem.write a x).wf lenMax := by
  unfold Mem.write
  split
  · exact ⟨cellDel_rising mem a h.1, fun c hc => h.2 c (mem_cellDel mem a c hc)⟩
  · rename_i hx
    refine ⟨cellPut_rising mem a x h.1, fun c hc => ?_⟩
    rcases mem_cellPut mem a x c hc with hc | hc
    · subst hc; exact ⟨ha, hx⟩
    · exact h.2 c hc

/-- Writing bytes in a row keeps the canonical form. -/
theorem Mem.writeAll_wf {lenMax : Nat} (bs : List Byte) (mem : Mem) (a : Nat) (h : mem.wf lenMax)
    (ha : a + bs.length ≤ lenMax) : (mem.writeAll a bs).wf lenMax := by
  induction bs generalizing mem a with
  | nil => exact h
  | cons b bs ih =>
    simp only [List.length_cons] at ha
    exact ih (mem.write a b) (a + 1) (mem.write_wf a b h (by omega)) (by omega)

/-- Read after writing bytes in a row. -/
theorem Mem.read_writeAll (bs : List Byte) (mem : Mem) (a b : Nat) (h : Rising mem) :
    (mem.writeAll a bs).read b = if a ≤ b ∧ b < a + bs.length then bs.getD (b - a) 0#8 else mem.read b := by
  induction bs generalizing mem a with
  | nil => simp [Mem.writeAll]
  | cons x bs ih =>
    have hw : Rising (mem.write a x) := by
      unfold Mem.write
      split
      · exact cellDel_rising mem a h
      · exact cellPut_rising mem a x h
    simp only [Mem.writeAll, ih (mem.write a x) (a + 1) hw, Mem.read_write mem a b x h, List.length_cons]
    by_cases hb : b = a
    · subst hb; simp
    · by_cases hlt : a + 1 ≤ b ∧ b < a + 1 + bs.length
      · rw [if_pos hlt, if_pos (by omega)]
        obtain ⟨n, rfl⟩ : ∃ n, b = a + 1 + n := ⟨b - (a + 1), by omega⟩
        have h1 : a + 1 + n - (a + 1) = n := by omega
        have h2 : a + 1 + n - a = n + 1 := by omega
        simp [h1, h2]
      · rw [if_neg hlt, if_neg hb, if_neg (by omega)]

/-! ### The hash table -/

theorem Table.read_write (t : Table) (i j : Nat) (p : Word) :
    (t.write i p).read j = if j = i then some p else t.read j := cellGet_cellPut t i j p

theorem Table.write_rising (t : Table) (i : Nat) (p : Word) (h : Rising t) : Rising (t.write i p) := cellPut_rising t i p h

/-- A stored position is not beyond the position. -/
theorem storedPos_le (k : Nat) (p : Word) : (storedPos k p).toNat ≤ p.toNat := by
  have := Nat.mod_le p.toNat (2 ^ k)
  have := p.isLt
  simp only [storedPos, BitVec.toNat_ofNat]
  exact le_trans (Nat.mod_le _ _) (by assumption)

/-- With `POS_BITS` of 32 or more, the default among them, a position is stored as it is. -/
theorem storedPos_wide {k : Nat} (h : 32 ≤ k) (p : Word) : storedPos k p = p := by
  have h2 : p.toNat < 2 ^ k := lt_of_lt_of_le p.isLt (Nat.pow_le_pow_right (by decide) h)
  simp [storedPos, Nat.mod_eq_of_lt h2]

/-- A table made from entries in any order is in canonical form. -/
theorem Table.ofEntries_rising (l : List (Nat × Word)) : Rising (Table.ofEntries l) := by
  have key : ∀ (l : List (Nat × Word)) (t : Table), Rising t → Rising (l.foldl (fun t c => Table.write t c.1 c.2) t) := by
    intro l
    induction l with
    | nil => intro t h; exact h
    | cons c r ih => intro t h; exact ih _ (cellPut_rising t c.1 c.2 h)
  exact key l Table.empty (by simp [Table.empty, Rising])

/-- A listed entry is what a read finds, in canonical form. -/
theorem cellGet_eq_some_of_mem (l : List (Nat × α)) (c : Nat × α) (h : Rising l) (hc : c ∈ l) : cellGet l c.1 = some c.2 := by
  induction l with
  | nil => simp at hc
  | cons d r ih =>
    obtain ⟨h1, h2⟩ := (rising_cons d r).1 h
    rcases List.mem_cons.1 hc with hc | hc
    · subst hc; simp [cellGet]
    · have := h1 c hc
      simp only [cellGet]; rw [if_neg (by omega)]
      exact ih h2 hc

/-- What a read finds is listed. -/
theorem mem_of_cellGet_eq_some (l : List (Nat × α)) (a : Nat) (x : α) (h : cellGet l a = some x) : (a, x) ∈ l := by
  induction l with
  | nil => simp [cellGet] at h
  | cons d r ih =>
    simp only [cellGet] at h
    split at h
    · rename_i ha; simp at h; subst h; subst ha; simp
    · exact List.mem_cons_of_mem _ (ih h)

end Sys2Proof.Machine
end

