-- ==== Sys2Proof/Laws/Emission.lean ====
section
/-! SUPPORT. What the engine appends for a token is the token's encoding. -/

namespace Sys2Proof.Machine

/-- The header is appended byte by byte. -/
theorem emitHeader_eq (s : State) : emitHeader s = emitAll (headerBytes s.params s.inLen s.cfgWindow) s := by
  have e : headerBytes s.params s.inLen s.cfgWindow =
      (((beBytes 1 s.params.sig0.toNat ++ beBytes 1 s.params.sig1.toNat) ++ beBytes s.params.rsvBytes 0) ++
        beBytes 4 s.inLen.toNat) ++ beBytes s.params.winField.bytes s.cfgWindow.toNat := by
    simp [headerBytes, beBytes_succ]
  rw [e]; simp only [emitAll_append]; rfl

/-- The trailer is appended byte by byte. -/
theorem emitEnd_eq (ck : Word) (s : State) : emitEnd ck s = emitAll (encode s.params (.endFrame ck)) s := by
  have e : encode s.params (.endFrame ck) =
      (beBytes 1 s.params.end0.toNat ++ beBytes 1 s.params.end1.toNat) ++ beBytes 4 ck.toNat := by
    simp [encode, beBytes_succ]
  rw [e]; simp only [emitAll_append]; rfl

/-- The opcode of a class is the encoding of its token. -/
theorem emitMatch_eq (ps : Params) (cls : MatchClass) (len dist : Nat) (s : State) :
    emitMatch cls len dist s = emitAll (encode ps (cls.token len dist)) s := by
  cases cls <;> simp only [MatchClass.token, encode, emitAll_append] <;> rfl

/-- An opcode and the literal bytes after it, in one append. -/
theorem emit_emitBytes (p n w v : Nat) (s : State) (h : p + n ≤ s.inLen.toNat) :
    (emit w v s).andThen (emitBytes p n) = emitAll (beBytes w v ++ inputBytes s p n) s := by
  rw [emitAll_append]
  show (emitAll _ s).andThen _ = _
  cases hr : emitAll (beBytes w v) s with
  | raised e t => rfl
  | go t =>
    have := emitAll_eq_go hr
    subst this
    simp only [andThen_go]
    rw [emitBytes_eq _ _ _ (by exact h)]; rfl

/-- A literal token inside the input is the encoding of the token of its bytes. -/
theorem emitLiteralToken_eq (ps : Params) (p n : Nat) (s : State) (h : p + n ≤ s.inLen.toNat) :
    emitLiteralToken p n s = emitAll (encode ps (literalToken (inputBytes s p n))) s := by
  unfold emitLiteralToken literalToken
  rw [inputBytes_length]
  split
  · rw [emitSlit, emit_emitBytes _ _ _ _ _ h]; simp [encode]
  split
  · rw [emitMlit, emit_emitBytes _ _ _ _ _ h]; simp [encode]
  · rw [emitLlit, emit_emitBytes _ _ _ _ _ h]; simp [encode]

/-- The blocks of a run are the encodings of their tokens. -/
theorem emitBlocks_eq (ps : Params) (k p n : Nat) (s : State) (h : p + n ≤ s.inLen.toNat) (hk : k * ps.maxLitRun ≤ n) :
    emitBlocks ps.maxLitRun k p n s = emitAll (tokenBytes ps (literalBlocks ps k (inputBytes s p n))) s := by
  induction k generalizing p n s with
  | zero =>
    simp only [emitBlocks, literalBlocks]
    by_cases hn : n = 0
    · subst hn; simp [tokenBytes, emitAll]
    · rw [if_neg hn, if_neg, emitLiteralToken_eq ps _ _ _ h]
      · simp [tokenBytes]
      · intro hh; have := congrArg List.length hh; simp at this; omega
  | succ k ih =>
    generalize hR : ps.maxLitRun = R at *
    have h65 : R ≤ n := le_trans (Nat.le_mul_of_pos_left R (Nat.succ_pos k)) hk
    have hk2 : k * R ≤ n - R := by rw [Nat.succ_mul] at hk; exact Nat.le_sub_of_add_le hk
    have hsplit : n = R + (n - R) := (Nat.add_sub_cancel' h65).symm
    have hp65 : p + R + (n - R) ≤ s.inLen.toNat := by rw [Nat.add_assoc, ← hsplit]; exact h
    have hp66 : p + R ≤ s.inLen.toNat := le_trans (Nat.le_add_right _ _) hp65
    have e1 : (inputBytes s p n).take R = inputBytes s p R := by
      rw [hsplit, inputBytes_add]; exact List.take_left' (by simp)
    have e2 : (inputBytes s p n).drop R = inputBytes s (p + R) (n - R) := by
      conv_lhs => rw [hsplit, inputBytes_add]
      exact List.drop_left' (by simp)
    simp only [emitBlocks, literalBlocks, tokenBytes, hR, List.map_cons, List.flatten_cons, e1, e2, emitAll_append]
    rw [emitLiteralToken_eq ps _ _ _ hp66]
    cases hr : emitAll (encode ps (literalToken (inputBytes s p R))) s with
    | raised e t => rfl
    | go t =>
      have := emitAll_eq_go hr; subst this
      simp only [andThen_go]
      rw [ih _ _ _ (by exact hp65) hk2]
      rfl

/-- A run inside the input is appended as the encodings of its literal tokens. -/
theorem emitLiterals_eq (p n : Nat) (s : State) (h : p + n ≤ s.inLen.toNat) :
    emitLiterals p n s = emitAll (tokenBytes s.params (literalTokens s.params (inputBytes s p n))) s := by
  unfold emitLiterals literalTokens
  rw [inputBytes_length]
  exact emitBlocks_eq _ _ _ _ _ h (le_trans (Nat.div_mul_le_self (n - 1) _) (Nat.sub_le n 1))

/-- An append that goes on keeps within the capacity. -/
theorem emitAll_go_le {bs : List Byte} {s t : State} (h : emitAll bs s = .go t)
    (h0 : s.out.length ≤ s.argOutCap.toNat) : t.out.length ≤ s.argOutCap.toNat := by
  by_cases hf : s.out.length + bs.length ≤ s.argOutCap.toNat
  · rw [emitAll_eq_go h]; simpa using hf
  · rw [emitAll_overflow _ _ h0 (by omega)] at h; exact absurd h (by simp)

end Sys2Proof.Machine
end

