-- ==== Sys2Proof/Laws/Finder.lean ====
section
/-! SUPPORT. What the match finder and its parts can do. -/

namespace Sys2Proof.Machine

/-- A comparison inside the input goes on, and counts the agreeing bytes up to the first that differs or to the bound. -/
theorem matchLen_ok (s : State) (t q max : Nat) (ht : t + max ≤ s.inLen.toNat) (hq : q + max ≤ s.inLen.toNat) :
    ∃ m, matchLen s t q max = .ok m ∧ m ≤ max ∧ (∀ i, i < m → s.input.read (t + i) = s.input.read (q + i)) ∧
      (m < max → s.input.read (t + m) ≠ s.input.read (q + m)) := by
  induction max generalizing t q with
  | zero => exact ⟨0, rfl, le_refl _, by simp, by simp⟩
  | succ max ih =>
    simp only [matchLen, memRead_ok s t (by omega), memRead_ok s q (by omega)]
    split
    · rename_i he
      obtain ⟨m, h1, h2, h3, h4⟩ := ih (t+1) (q+1) (by omega) (by omega)
      simp only [h1]
      refine ⟨m+1, rfl, by omega, fun i hi => ?_, fun hm => ?_⟩
      · cases i with
        | zero => simpa using he
        | succ i => have := h3 i (by omega); simpa [Nat.add_assoc, Nat.add_comm 1] using this
      · have := h4 (by omega); simpa [Nat.add_assoc, Nat.add_comm 1] using this
    · rename_i he
      exact ⟨0, rfl, by omega, by simp, fun _ => by simpa using he⟩

/-- The candidate in `BEST` and `DIST`: none yet, or an acceptable match that the input bears out (R94, R97). -/
def Cand (s : State) : Prop :=
  (s.w.best = 2#17 ∧ s.w.dist = 0#32) ∨
  (3 ≤ s.w.best.toNat ∧ s.w.best.toNat ≤ s.w.matchMax.toNat ∧ accept s.cfgWindow s.w.best.toNat s.w.dist.toNat = true ∧
   1 ≤ s.w.dist.toNat ∧ s.w.dist.toNat ≤ s.w.q.toNat ∧ 
   ∀ i, i < s.w.best.toNat → s.input.read (s.w.q.toNat - s.w.dist.toNat + i) = s.input.read (s.w.q.toNat + i))

/-- A probe writes only `BEST`, `DIST` and `M` (R91). -/
def ProbeFrame (s t : State) : Prop := t = { s with w := { s.w with best := t.w.best, dist := t.w.dist, m := t.w.m } }

/-- What a probe needs: entries that are earlier scan positions (R92), and a bound that stays inside the input (R81). -/
structure ProbePre (s : State) : Prop where
  tl : ∀ c ∈ s.w.table, c.2.toNat < s.w.q.toNat ∧ c.2.toNat + (s.params.lookahead - 1) < s.inLen.toNat
  mm : s.w.q.toNat + s.w.matchMax.toNat ≤ s.inLen.toNat
  mm2 : s.w.matchMax.toNat ≤ 65536
  cand : Cand s

/-- What one probe can do. -/
theorem probe_ok (i : Word) (s : State) (h : ProbePre s) : ∃ t, probe i s = .go t ∧ ProbeFrame s t ∧ ProbePre t := by
  unfold probe
  cases hr : s.w.table.read i.toNat with
  | none => exact ⟨s, rfl, rfl, h⟩
  | some p =>
    have hp := h.tl _ (mem_of_cellGet_eq_some _ _ _ hr)
    simp only at hp
    obtain ⟨m, h1, h2, h3, h4⟩ := matchLen_ok s p.toNat s.w.q.toNat s.w.matchMax.toNat (by have := h.mm; omega) h.mm
    simp only [h1]
    refine ⟨_, rfl, ?_, ?_⟩
    · unfold keepBest ProbeFrame; split <;> rfl
    · have hm : (BitVec.ofNat 17 m).toNat = m := by
        rw [BitVec.toNat_ofNat, Nat.mod_eq_of_lt]; have := h.mm2; omega
      have hd : (s.w.q - p).toNat = s.w.q.toNat - p.toNat := by rw [BitVec.toNat_sub_of_le]; exact BitVec.le_def.2 (by omega)
      unfold keepBest
      split
      · rename_i hk
        simp only at hk
        obtain ⟨hk1, hk2⟩ := hk
        rw [hm, hd] at hk2
        have hb : 3 ≤ m := by
          have : s.w.best.toNat < m := by have := BitVec.lt_def.1 hk1; rwa [hm] at this
          rcases h.cand with ⟨hb, _⟩ | ⟨hb, _⟩
          · rw [hb] at this; simp at this; omega
          · omega
        refine ⟨h.tl, h.mm, h.mm2, .inr ?_⟩
        simp only [hm, hd]
        refine ⟨hb, h2, hk2, by omega, by omega, fun i hi => ?_⟩
        have := h3 i hi
        rwa [show s.w.q.toNat - (s.w.q.toNat - p.toNat) = p.toNat by omega]
      · exact ⟨h.tl, h.mm, h.mm2, h.cand⟩

theorem ProbeFrame.trans {s t u : State} (h1 : ProbeFrame s t) (h2 : ProbeFrame t u) : ProbeFrame s u := by
  unfold ProbeFrame at *; rw [h2, h1]

/-- What the four probes can do. -/
theorem probes_ok (s : State) (h : ProbePre s) : ∃ t, probes s = .go t ∧ ProbeFrame s t ∧ ProbePre t := by
  unfold probes
  obtain ⟨t1, e1, f1, p1⟩ := probe_ok s.w.h1 s h
  obtain ⟨t2, e2, f2, p2⟩ := probe_ok s.w.h2 t1 p1
  obtain ⟨t3, e3, f3, p3⟩ := probe_ok s.w.h3 t2 p2
  obtain ⟨t4, e4, f4, p4⟩ := probe_ok s.w.h4 t3 p3
  exact ⟨t4, by simp [e1, e2, e3, e4], ((f1.trans f2).trans f3).trans f4, p4⟩

/-- A comparison reads the input alone. -/
theorem matchLen_congr {s t : State} (h : ∀ a, memRead s a = memRead t a) (p q max : Nat) :
    matchLen s p q max = matchLen t p q max := by
  induction max generalizing p q with
  | zero => rfl
  | succ max ih => simp only [matchLen, h, ih]

/-- A candidate depends on the table, the cursor, the window and the input alone. -/
theorem candidate_congr {s t : State} (h : ∀ a, memRead s a = memRead t a) (ht : s.w.table = t.w.table) (hq : s.w.q = t.w.q)
    (hw : s.cfgWindow = t.cfgWindow) (max : Nat) (i p : Word) (m : Nat) :
    Candidate s max i p m ↔ Candidate t max i p m := by
  unfold Candidate
  rw [matchLen_congr h, ht, hq, hw]

/-- So does the best candidate. -/
theorem bestOf_congr {s t : State} (h : ∀ a, memRead s a = memRead t a) (ht : s.w.table = t.w.table) (hq : s.w.q = t.w.q)
    (hw : s.cfgWindow = t.cfgWindow) (max : Nat) (is : List Word) (b : LenWord) (d : Word) :
    BestOf s max is b d ↔ BestOf t max is b d := by
  unfold BestOf
  simp only [candidate_congr h ht hq hw, hq]

/-- The best candidate is one: two that are best over the same indices are equal. -/
theorem bestOf_unique {s : State} {max : Nat} {is : List Word} {b b' : LenWord} {d d' : Word}
    (h : BestOf s max is b d) (h' : BestOf s max is b' d') : b = b' ∧ d = d' := by
  rcases h with ⟨hb, hd, hn⟩ | ⟨k, i, p, hk, hc, hd, hm⟩ <;>
    rcases h' with ⟨hb', hd', hn'⟩ | ⟨k', i', p', hk', hc', hd', hm'⟩
  · exact ⟨hb.trans hb'.symm, hd.trans hd'.symm⟩
  · exact absurd hc' (hn _ (List.mem_of_getElem? hk') _ _)
  · exact absurd hc (hn' _ (List.mem_of_getElem? hk) _ _)
  · have h1 := hm _ _ _ _ hk' hc'
    have h2 := hm' _ _ _ _ hk hc
    have hkk : k = k' := by omega
    subst hkk
    obtain rfl : i = i' := Option.some.inj (hk.symm.trans hk')
    obtain rfl : p = p' := Option.some.inj (hc.1.symm.trans hc'.1)
    exact ⟨BitVec.eq_of_toNat_eq (by omega), hd.trans hd'.symm⟩

/-- One more probe that finds nothing longer leaves the best candidate. -/
theorem bestOf_append_none {s : State} {max : Nat} {is : List Word} {b : LenWord} {d : Word} (i : Word)
    (h : BestOf s max is b d) (hb : 2 ≤ b.toNat) (hi : ∀ p m, Candidate s max i p m → m ≤ b.toNat)
    (h3 : ∀ p m, Candidate s max i p m → 3 ≤ m) : BestOf s max (is ++ [i]) b d := by
  rcases h with ⟨rfl, hd, hn⟩ | ⟨k, i0, p, hk, hc, hd, hm⟩
  · refine .inl ⟨rfl, hd, fun j hj p m hc => ?_⟩
    rcases List.mem_append.1 hj with hj | hj
    · exact hn j hj p m hc
    · obtain rfl := List.mem_singleton.1 hj
      have := hi p m hc; have := h3 p m hc; simp at *; omega
  · have hlt := (List.getElem?_eq_some_iff.1 hk).1
    refine .inr ⟨k, i0, p, by rw [List.getElem?_append_left hlt]; exact hk, hc, hd, fun j i' p' m hj hc' => ?_⟩
    rcases Nat.lt_or_ge j is.length with hjl | hjl
    · rw [List.getElem?_append_left hjl] at hj; exact hm j i' p' m hj hc'
    · rw [List.getElem?_append_right hjl] at hj
      obtain rfl := List.mem_singleton.1 (List.mem_of_getElem? hj)
      exact ⟨hi p' m hc', by omega⟩

/-- One more probe that finds a longer acceptable candidate makes it the best. -/
theorem bestOf_append_some {s : State} {max : Nat} {is : List Word} {b : LenWord} {d : Word} (i p : Word) (m : LenWord)
    (h : BestOf s max is b d) (hc : Candidate s max i p m.toNat) (hm : b < m) :
    BestOf s max (is ++ [i]) m (s.w.q - p) := by
  have hm := BitVec.lt_def.1 hm
  refine .inr ⟨is.length, i, p, by simp, hc, rfl, fun j i' p' m' hj hc' => ?_⟩
  rcases Nat.lt_or_ge j is.length with hjl | hjl
  · rw [List.getElem?_append_left hjl] at hj
    rcases h with ⟨-, -, hn⟩ | ⟨k, i0, p0, hk, hc0, hd, hmax⟩
    · exact absurd hc' (hn _ (List.mem_of_getElem? hj) _ _)
    · have := (hmax j i' p' m' hj hc').1; omega
  · rw [List.getElem?_append_right hjl] at hj
    obtain rfl := List.mem_singleton.1 (List.mem_of_getElem? hj)
    obtain rfl : p = p' := Option.some.inj (hc.1.symm.trans hc'.1)
    have : m.toNat = m' := by have := hc.2.1.symm.trans hc'.2.1; simpa using this
    exact ⟨by omega, by omega⟩

/-- Nothing shorter than 3 is accepted (R100). -/
theorem accept_ge (w : Word) (m d : Nat) (h : accept w m d = true) : 3 ≤ m := by
  unfold accept at h; simp at h; omega

/-- After one more probe `BEST` and `DIST` are the best over one more index. -/
theorem probe_best (i : Word) (s : State) (is : List Word) (h : ProbePre s)
    (hb : BestOf s s.w.matchMax.toNat is s.w.best s.w.dist) {t : State} (e : probe i s = .go t) :
    BestOf s s.w.matchMax.toNat (is ++ [i]) t.w.best t.w.dist := by
  have h2 : 2 ≤ s.w.best.toNat := by
    rcases h.cand with ⟨hb, _⟩ | ⟨hb, _⟩
    · rw [hb]; decide
    · omega
  have h3 : ∀ p m, Candidate s s.w.matchMax.toNat i p m → 3 ≤ m := fun p m hc => accept_ge _ _ _ hc.2.2
  unfold probe at e
  cases hr : s.w.table.read i.toNat with
  | none =>
    simp only [hr] at e
    obtain rfl : s = t := by simpa using e
    exact bestOf_append_none i hb h2 (fun p m hc => by rw [hc.1] at hr; cases hr) h3
  | some p =>
    have hp := h.tl _ (mem_of_cellGet_eq_some _ _ _ hr)
    simp only at hp
    obtain ⟨m, h1, hm, -, -⟩ := matchLen_ok s p.toNat s.w.q.toNat s.w.matchMax.toNat (by have := h.mm; omega) h.mm
    simp only [hr, h1] at e
    have hmn : (BitVec.ofNat 17 m).toNat = m := by
      rw [BitVec.toNat_ofNat, Nat.mod_eq_of_lt]; have := h.mm2; omega
    have hd : (s.w.q - p).toNat = s.w.q.toNat - p.toNat := by rw [BitVec.toNat_sub_of_le]; exact BitVec.le_def.2 (by omega)
    have only : ∀ p' m', Candidate s s.w.matchMax.toNat i p' m' → m' = m ∧ accept s.cfgWindow m (s.w.q.toNat - p.toNat) = true := by
      intro p' m' hc
      obtain rfl : p = p' := Option.some.inj (hr.symm.trans hc.1)
      obtain rfl : m = m' := by have := h1.symm.trans hc.2.1; simpa using this
      exact ⟨rfl, hc.2.2⟩
    unfold keepBest at e
    split at e
    · rename_i hk
      simp only [Ran.go.injEq] at e; subst e
      exact bestOf_append_some i p _ hb ⟨hr, by rw [hmn]; exact h1, by have := hk.2; rwa [hd] at this⟩ hk.1
    · rename_i hk
      simp only [Ran.go.injEq] at e; subst e
      refine bestOf_append_none i hb h2 (fun p' m' hc => ?_) h3
      obtain ⟨rfl, ha⟩ := only p' m' hc
      by_contra hlt
      exact hk ⟨BitVec.lt_def.2 (by rw [hmn]; simpa using hlt), by rw [hmn, hd]; exact ha⟩

/-- A probe changes nothing a candidate depends on. -/
theorem ProbeFrame.bestOf {s t : State} (f : ProbeFrame s t) {max : Nat} {is : List Word} {b : LenWord} {d : Word} :
    BestOf s max is b d ↔ BestOf t max is b d :=
  bestOf_congr (fun a => by rw [f]; rfl) (by rw [f]) (by rw [f]) (by rw [f]) _ _ _ _

/-- After the four probes `BEST` and `DIST` are the best over the four indices, in the order of R91. -/
theorem probes_best (s : State) (h : ProbePre s) (hb : s.w.best = 2#17 ∧ s.w.dist = 0#32) {t : State}
    (e : probes s = .go t) :
    BestOf s s.w.matchMax.toNat [s.w.h1, s.w.h2, s.w.h3, s.w.h4] t.w.best t.w.dist := by
  obtain ⟨t1, e1, f1, p1⟩ := probe_ok s.w.h1 s h
  obtain ⟨t2, e2, f2, p2⟩ := probe_ok s.w.h2 t1 p1
  obtain ⟨t3, e3, f3, p3⟩ := probe_ok s.w.h3 t2 p2
  obtain ⟨t4, e4, f4, p4⟩ := probe_ok s.w.h4 t3 p3
  obtain rfl : t4 = t := by simpa [probes, e1, e2, e3, e4] using e
  have m1 : t1.w.matchMax = s.w.matchMax := by rw [f1]
  have m2 : t2.w.matchMax = s.w.matchMax := by rw [f2]; exact m1
  have m3 : t3.w.matchMax = s.w.matchMax := by rw [f3]; exact m2
  have b1 := probe_best _ _ [] h (.inl ⟨hb.1, hb.2, by simp⟩) e1
  have b2 := probe_best _ _ _ p1 (by rw [m1]; exact f1.bestOf.1 b1) e2
  rw [m1, ← f1.bestOf] at b2
  have b3 := probe_best _ _ _ p2 (by rw [m2]; exact (f1.trans f2).bestOf.1 b2) e3
  rw [m2, ← (f1.trans f2).bestOf] at b3
  have b4 := probe_best _ _ _ p3 (by rw [m3]; exact ((f1.trans f2).trans f3).bestOf.1 b3) e4
  rw [m3, ← ((f1.trans f2).trans f3).bestOf] at b4
  exact b4

/-- The match finder leaves all but its own registers and the table as they were. -/
def FinderFrame (s t : State) : Prop :=
  t = { s with
        w := { t.w with q := s.w.q, litStart := s.w.litStart, s1 := s.w.s1, s2 := s.w.s2, ckpos := s.w.ckpos } }

/-- An entry of a written table is the one written or was there. -/
theorem mem_table_write (t : Table) (i : Nat) (p : Word) (c) (h : c ∈ t.write i p) : c = (i, p) ∨ c ∈ t :=
  mem_cellPut t i p c h

/-- What the match finder can do at a scan position: it goes on, whatever the hash function is; the hash registers are the hash of
the bytes at the cursor, `BEST` and `DIST` the best candidate over the four indices, and these take the scan position. -/
theorem matchFinder_ok (hf : HashFn) (s : State) (hp : s.params.Legal) (hs : s.atScanPosition = true)
   (htl : ∀ c ∈ s.w.table, c.2.toNat < s.w.q.toNat ∧ c.2.toNat + (s.params.lookahead - 1) < s.inLen.toNat) :
   ∃ t, matchFinder hf s = .go t ∧ FinderFrame s t ∧ Cand t ∧
     t.w.matchMax.toNat = min s.params.maxMatch (s.inLen.toNat - s.w.q.toNat) ∧
     (∀ c ∈ t.w.table, c.2.toNat < s.w.q.toNat + 1 ∧ c.2.toNat + (s.params.lookahead - 1) < s.inLen.toNat) ∧
     (Rising s.w.table → Rising t.w.table) ∧
     t.w.table = [t.w.h1, t.w.h2, t.w.h3, t.w.h4].foldl
       (fun T i => Table.write T i.toNat (storedPos s.params.posBits s.w.q)) s.w.table ∧
     (let c := hf s.cfgHashBits (inputBytes s s.w.q.toNat s.params.lookahead)
      t.w.h = c.h ∧ t.w.h1 = c.h1 ∧ t.w.h2 = c.h2 ∧ t.w.h3 = c.h3 ∧ t.w.h4 = c.h4 ∧
      BestOf s t.w.matchMax.toNat [c.h1, c.h2, c.h3, c.h4] t.w.best t.w.dist) := by
  simp [State.atScanPosition] at hs
  unfold matchFinder computeHashes
  rw [readBytes_ok _ _ _ (by show s.w.q.toNat + s.params.lookahead ≤ s.inLen.toNat; omega)]
  simp only [andThen_go]
  set c := hf _ _ with hc
  have hlt := s.inLen.isLt
  have hmax := hp.maxMatch_le
  have hmm : (BitVec.ofNat 17 (min s.params.maxMatch (s.inLen.toNat - s.w.q.toNat))).toNat =
      min s.params.maxMatch (s.inLen.toNat - s.w.q.toNat) := by
    rw [BitVec.toNat_ofNat, Nat.mod_eq_of_lt]; omega
  set s1 : State := { beginScan s with
    w := { (beginScan s).w with h := c.h, h1 := c.h1, h2 := c.h2, h3 := c.h3, h4 := c.h4 } } with hs1
  have hpre : ProbePre s1 :=
    ⟨htl, by show s.w.q.toNat + (BitVec.ofNat 17 _).toNat ≤ s.inLen.toNat; rw [hmm]; omega,
      by show (BitVec.ofNat 17 _).toNat ≤ _; rw [hmm]; omega, .inl ⟨rfl, rfl⟩⟩
  obtain ⟨t, e, f, p⟩ := probes_ok s1 hpre
  have best := probes_best s1 hpre ⟨rfl, rfl⟩ e
  rw [e]
  simp only [andThen_go]
  have hq : t.w.q = s.w.q := by rw [f]; rfl
  have htab : t.w.table = s.w.table := by rw [f]; rfl
  have hil : t.inLen = s.inLen := by rw [f]; rfl
  have hpar : t.params = s.params := by rw [f]; rfl
  have hsp := storedPos_le s.params.posBits s.w.q
  refine ⟨_, rfl, ?_, ?_, ?_, ?_, ?_, ?_, ?_⟩
  · unfold FinderFrame; unfold ProbeFrame at f; rw [f]; rfl
  · exact p.cand
  · show t.w.matchMax.toNat = _; rw [f]; exact hmm
  · intro c hc
    have := hq
    simp only [updateTable] at hc
    rcases mem_table_write _ _ _ _ hc with rfl | hc
    · simp only [hq, hpar]; omega
    rcases mem_table_write _ _ _ _ hc with rfl | hc
    · simp only [hq, hpar]; omega
    rcases mem_table_write _ _ _ _ hc with rfl | hc
    · simp only [hq, hpar]; omega
    rcases mem_table_write _ _ _ _ hc with rfl | hc
    · simp only [hq, hpar]; omega
    have := htl c (by rwa [htab] at hc); omega
  · intro hr; simp only [updateTable]
    iterate 4 apply Table.write_rising
    rwa [htab]
  · simp only [updateTable, htab, hq, hpar]; rfl
  · have w1 : (updateTable t).w.matchMax = s1.w.matchMax := by show t.w.matchMax = _; rw [f]
    refine ⟨by show t.w.h = _; rw [f]; rfl, by show t.w.h1 = _; rw [f]; rfl, by show t.w.h2 = _; rw [f]; rfl,
      by show t.w.h3 = _; rw [f]; rfl, by show t.w.h4 = _; rw [f]; rfl, ?_⟩
    rw [w1]
    exact (bestOf_congr (s := s1) (t := s) (fun _ => rfl) rfl rfl rfl _ _ _ _).1 best

end Sys2Proof.Machine
end

