-- ==== Sys2Proof/Laws/PerInstr.lean ====
section
/-! SUPPORT. Statements about every instruction as syntax, one lemma per constructor. -/

namespace Sys2Proof.Laws

/-- The size of an encoding: a whole number of bytes, 1 to 6 for the opcode (R59), and exactly the literal bytes after it
(R73, R74). -/
def EncodedSize.Statement (i : Instr) : Prop :=
  i.wf = true → ∀ ps : Params,
    (encode ps i).length = i.opcodeBytes + i.literalBytes ∧ 1 ≤ i.opcodeBytes ∧ i.opcodeBytes ≤ 6 ∧
      i.literalBytes ≤ 65536

theorem EncodedSize.slit (lits : List Byte) : EncodedSize.Statement (.slit lits) := by
  intro h ps
  refine ⟨encode_length _ _, by simp [Instr.opcodeBytes], by simp [Instr.opcodeBytes], ?_⟩
  have := h
  simp only [Instr.wf, fitsField, Bool.and_eq_true, decide_eq_true_eq] at this
  simp only [Instr.literalBytes]
  omega

theorem EncodedSize.mlit (lits : List Byte) : EncodedSize.Statement (.mlit lits) := by
  intro h ps
  refine ⟨encode_length _ _, by simp [Instr.opcodeBytes], by simp [Instr.opcodeBytes], ?_⟩
  have := h
  simp only [Instr.wf, fitsField, Bool.and_eq_true, decide_eq_true_eq] at this
  simp only [Instr.literalBytes]
  omega

theorem EncodedSize.llit (lits : List Byte) : EncodedSize.Statement (.llit lits) := by
  intro h ps
  refine ⟨encode_length _ _, by simp [Instr.opcodeBytes], by simp [Instr.opcodeBytes], ?_⟩
  have := h
  simp only [Instr.wf, fitsField, Bool.and_eq_true, decide_eq_true_eq] at this
  simp only [Instr.literalBytes]
  omega

theorem EncodedSize.smat (len dist : Nat) : EncodedSize.Statement (.smat len dist) := fun _ _ =>
  ⟨encode_length _ _, by simp [Instr.opcodeBytes], by simp [Instr.opcodeBytes], Nat.zero_le _⟩

theorem EncodedSize.mmat (len dist : Nat) : EncodedSize.Statement (.mmat len dist) := fun _ _ =>
  ⟨encode_length _ _, by simp [Instr.opcodeBytes], by simp [Instr.opcodeBytes], Nat.zero_le _⟩

theorem EncodedSize.lmata (len dist : Nat) : EncodedSize.Statement (.lmata len dist) := fun _ _ =>
  ⟨encode_length _ _, by simp [Instr.opcodeBytes], by simp [Instr.opcodeBytes], Nat.zero_le _⟩

theorem EncodedSize.lmatb (len dist : Nat) : EncodedSize.Statement (.lmatb len dist) := fun _ _ =>
  ⟨encode_length _ _, by simp [Instr.opcodeBytes], by simp [Instr.opcodeBytes], Nat.zero_le _⟩

theorem EncodedSize.xmat1 (len dist : Nat) : EncodedSize.Statement (.xmat1 len dist) := fun _ _ =>
  ⟨encode_length _ _, by simp [Instr.opcodeBytes], by simp [Instr.opcodeBytes], Nat.zero_le _⟩

theorem EncodedSize.xmat2 (len dist : Nat) : EncodedSize.Statement (.xmat2 len dist) := fun _ _ =>
  ⟨encode_length _ _, by simp [Instr.opcodeBytes], by simp [Instr.opcodeBytes], Nat.zero_le _⟩

theorem EncodedSize.endFrame (chk : Word) : EncodedSize.Statement (.endFrame chk) := fun _ _ =>
  ⟨encode_length _ _, by simp [Instr.opcodeBytes], by simp [Instr.opcodeBytes], Nat.zero_le _⟩

end Sys2Proof.Laws
end

