-- ==== Sys2Proof/Laws/Steps.lean ====
section
/-! SUPPORT. What each engine step can do, said once: every way a step can end, with what it leaves. -/

namespace Sys2Proof.Machine

/-- An append of these bytes overflowed: those that fit are in the output, and only working registers may differ besides
(R151). -/
def Overflowed (s : State) (added : List Byte) (e : Exc) (u : State) : Prop :=
  e = .outputOverflow s.argOutCap ∧
  u = { s with w := u.w, out := s.out ++ added.take (s.argOutCap.toNat - s.out.length) } ∧
  s.argOutCap.toNat < s.out.length + added.length

/-- What the SCAN step appends for a match: the pending run and the match token. -/
def matchBytes (s : State) (cls : MatchClass) (len dist : Nat) : List Byte :=
  tokenBytes s.params
    (literalTokens s.params (inputBytes s s.w.litStart.toNat (s.w.q.toNat - s.w.litStart.toNat)) ++ [cls.token len dist])

/-- What the FLUSH step appends. -/
def tailBytes (s : State) : List Byte :=
  tokenBytes s.params (literalTokens s.params (inputBytes s s.w.litStart.toNat (s.inLen.toNat - s.w.litStart.toNat)))

theorem headerBytes_length (ps : Params) (len window : Word) : (headerBytes ps len window).length = headerSize ps := by
  simp [headerBytes, headerSize]; omega

/-- A class whose bounds hold has a well-formed, canonical token. -/
theorem route_bounds {len dist : Nat} {c : MatchClass} (h : route len dist = some c) (h1 : 1 ≤ dist) (h2 : len ≤ 65536) :
    (c.token len dist).wf = true ∧ canonical (c.token len dist) = true := by
  have hc : canonical (c.token len dist) = true := by cases c <;> simp [MatchClass.token, canonical, h]
  refine ⟨?_, hc⟩
  unfold route at h
  split at h
  · simp at h; subst h; simp [MatchClass.token, Instr.wf, fitsField]; omega
  split at h
  · simp at h; subst h; simp [MatchClass.token, Instr.wf, fitsField]; omega
  split at h
  · simp at h; subst h; simp [MatchClass.token, Instr.wf, fitsField]; omega
  split at h
  · simp at h; subst h; simp [MatchClass.token, Instr.wf, fitsField]; omega
  split at h
  · split at h <;> (simp at h; subst h; simp [MatchClass.token, Instr.wf, fitsField]; omega)
  · simp at h

/-- The INIT step: a raise, the resource-failure outcome, or the header written. -/
theorem init_cases (draw : Bool) (s : State) :
    (∃ e u, initStep draw s = .raised e u ∧
      ((e = .badConfig s.cfgWindow ∧ u = s ∧ s.params.winField = .three ∧ 2 ^ 24 ≤ s.cfgWindow.toNat) ∨
       Overflowed (initCommand s) (headerBytes s.params s.inLen s.cfgWindow) e u)) ∨
    (initStep draw s = .go (enterResourceFailure s) ∧ (s.params.allocMayFail && draw) = true) ∨
    (initStep draw s =
        .go { initCommand s with
              out := headerBytes s.params s.inLen s.cfgWindow, phase := .scan, fresh := s.fresh + 1 } ∧
      headerSize s.params ≤ s.argOutCap.toNat ∧ s.cfgWindow.toNat < 256 ^ s.params.winField.bytes) := by
  unfold initStep
  split
  · rename_i h; exact .inl ⟨_, _, rfl, .inl ⟨rfl, rfl, h.1, h.2⟩⟩
  · rename_i h
    split
    · rename_i h2; exact .inr (.inl ⟨rfl, h2⟩)
    · rw [emitHeader_eq]
      have hl := headerBytes_length s.params s.inLen s.cfgWindow
      by_cases hf : (initCommand s).out.length + (headerBytes (initCommand s).params (initCommand s).inLen
          (initCommand s).cfgWindow).length ≤ (initCommand s).argOutCap.toNat
      · rw [emitAll_fits _ _ hf]
        right; right
        refine ⟨by simp [initCommand], ?_, ?_⟩
        · simpa [hl] using hf
        · have := s.cfgWindow.isLt
          cases hw : s.params.winField
          · simpa [WinField.bytes] using this
          · simp [hw] at h; simpa [WinField.bytes] using h
      · rw [emitAll_overflow _ _ (by simp) (by omega)]
        left
        exact ⟨_, _, rfl, .inr ⟨rfl, rfl, by simpa using hf⟩⟩

/-- The SCAN step at a scan position: the match finder goes on, and then the position is a literal, or a match is emitted, or
the sink has no room for it. -/
theorem scan_cases (hf : HashFn) (s : State) (hp : s.params.Legal)
    (hs : s.atScanPosition = true) (hi : CursorInv s) (hr : Rising s.w.table) :
    ∃ t, matchFinder hf s = .go t ∧ FinderFrame s t ∧ Cand t ∧
      t.w.matchMax.toNat = min s.params.maxMatch (s.inLen.toNat - s.w.q.toNat) ∧
      (∀ c ∈ t.w.table, c.2.toNat < s.w.q.toNat + 1 ∧ c.2.toNat + (s.params.lookahead - 1) < s.inLen.toNat) ∧
      Rising t.w.table ∧
      ((∃ u, scanStepWith hf s = .go u ∧
          u = { t with
                w := { t.w with q := s.w.q + 1#32, s1 := u.w.s1, s2 := u.w.s2, ckpos := s.w.q + 1#32 } } ∧
          u.w.ck = checksum s.params s.w.ck (inputBytes s s.w.q.toNat 1) ∧
          (t.w.best.toNat < 3 ∨ route t.w.best.toNat t.w.dist.toNat = none)) ∨
       (∃ cls, route t.w.best.toNat t.w.dist.toNat = some cls ∧ 3 ≤ t.w.best.toNat ∧
          ((∃ u, scanStepWith hf s = .go u ∧
              u = { t with
                    out := s.out ++ matchBytes s cls t.w.best.toNat t.w.dist.toNat,
                    w := { t.w with
                      q := s.w.q + t.w.best.setWidth 32, litStart := s.w.q + t.w.best.setWidth 32, s1 := u.w.s1,
                      s2 := u.w.s2, ckpos := s.w.q + t.w.best.setWidth 32 } } ∧
              (s.w.q + t.w.best.setWidth 32).toNat = s.w.q.toNat + t.w.best.toNat ∧
              s.w.q.toNat + t.w.best.toNat ≤ s.inLen.toNat ∧
              u.w.ck = checksum s.params s.w.ck (inputBytes s s.w.q.toNat t.w.best.toNat) ∧
              u.out.length ≤ s.argOutCap.toNat) ∨
           (∃ e u, scanStepWith hf s = .raised e u ∧
              Overflowed s (matchBytes s cls t.w.best.toNat t.w.dist.toNat) e u)))) := by
  obtain ⟨t, e, f, cand, mm, tl, ri, -⟩ := matchFinder_ok hf s hp hs hi.table_lt
  refine ⟨t, e, f, cand, mm, tl, ri hr, ?_⟩
  have hs' : s.w.q.toNat + (s.params.lookahead - 1) < s.inLen.toNat := by simpa [State.atScanPosition] using hs
  have hlt := s.inLen.isLt
  have tq : t.w.q = s.w.q := by rw [f]
  have tl' : t.w.litStart = s.w.litStart := by rw [f]
  have tck : t.w.ckpos = s.w.ckpos := by rw [f]
  have tin : t.inLen = s.inLen := by rw [f]
  have tpar : t.params = s.params := by rw [f]
  have tinp : t.input = s.input := by rw [f]
  have tout : t.out = s.out := by rw [f]
  have tcap : t.argOutCap = s.argOutCap := by rw [f]
  have tckv : t.w.ck = s.w.ck := by rw [f]; rfl
  unfold scanStepWith
  rw [if_pos hs, e]
  simp only [andThen_go]
  have litcase : ∃ u, foldToCursor (literalByte t) = .go u ∧
      u = { t with w := { t.w with q := s.w.q + 1#32, s1 := u.w.s1, s2 := u.w.s2, ckpos := s.w.q + 1#32 } } ∧
      u.w.ck = checksum s.params s.w.ck (inputBytes s s.w.q.toNat 1) := by
    have hq1 : (s.w.q + 1#32).toNat = s.w.q.toNat + 1 := by rw [BitVec.toNat_add]; simp; omega
    have q0 : (literalByte t).w.q = s.w.q + 1#32 := by simp [tq]
    have c0 : (literalByte t).w.ckpos = s.w.q := by simp [tck, hi.ckpos_eq]
    have i0 : (literalByte t).inLen = s.inLen := by simp [tin]
    have in0 : (literalByte t).input = s.input := by simp [tinp]
    have ck0 : (literalByte t).w.ck = s.w.ck := by rw [← tckv]; rfl
    obtain ⟨u, e1, e2, e3, e4⟩ := fold_ok (literalByte t).w.ckpos.toNat
      ((literalByte t).w.q.toNat - (literalByte t).w.ckpos.toNat) (literalByte t) (by rw [q0, c0, i0, hq1]; omega)
    refine ⟨u, e1, ?_, ?_⟩
    · have : u.w.ckpos = s.w.q + 1#32 := by
        rw [e4, q0, c0, hq1, if_neg (by omega)]
        apply BitVec.eq_of_toNat_eq; rw [hq1]; simp; omega
      rw [e2, this]
      simp [literalByte, tq]
    · rw [e3, ck0, q0, c0, hq1, inputBytes_congr in0, show (literalByte t).params = s.params from tpar]
      congr 2; omega
  unfold select
  split
  · rename_i hb
    left
    simp only [andThen_go]
    obtain ⟨u, a, b, c⟩ := litcase
    exact ⟨u, a, b, c, .inl hb⟩
  · rename_i hb
    cases hroute : route t.w.best.toNat t.w.dist.toNat with
    | none =>
      left
      simp only [andThen_go]
      obtain ⟨u, a, b, c⟩ := litcase
      exact ⟨u, a, b, c, .inr trivial⟩
    | some cls =>
      right
      refine ⟨cls, rfl, by omega, ?_⟩
      have hbm : t.w.best.toNat ≤ t.w.matchMax.toNat := by
        rcases cand with ⟨h, _⟩ | ⟨_, h, _⟩
        · rw [h] at hb; simp at hb
        · exact h
      have hcl : clampLen t.params cls t.w.best.toNat = t.w.best.toNat := by
        unfold clampLen; cases cls <;> simp only [tpar] <;> omega
      have hbest : BitVec.ofNat 17 (clampLen t.params cls t.w.best.toNat) = t.w.best := by rw [hcl]; simp
      have hqb : (s.w.q + t.w.best.setWidth 32).toNat = s.w.q.toNat + t.w.best.toNat := by
        rw [BitVec.toNat_add]; simp; omega
      have hle : s.w.q.toNat + t.w.best.toNat ≤ s.inLen.toNat := by omega
      have hlit := hi.lit_le
      simp only [takeMatch, hbest]
      rw [emitLiterals_eq _ _ _ (by simp only [tl', tq, tin]; omega)]
      have hib : inputBytes { t with w := { t.w with best := t.w.best } } t.w.litStart.toNat
          (t.w.q.toNat - t.w.litStart.toNat) =
          inputBytes s s.w.litStart.toNat (s.w.q.toNat - s.w.litStart.toNat) := by
        rw [tl', tq]; exact inputBytes_congr tinp _ _
      rw [hib]
      set run := tokenBytes s.params (literalTokens s.params
          (inputBytes s s.w.litStart.toNat (s.w.q.toNat - s.w.litStart.toNat))) with hrun
      set tok := encode s.params (cls.token t.w.best.toNat t.w.dist.toNat) with htok
      have hrun2 : tokenBytes t.params (literalTokens t.params
          (inputBytes s s.w.litStart.toNat (s.w.q.toNat - s.w.litStart.toNat))) = run := by rw [tpar]
      rw [hrun2]
      have hbo : matchBytes s cls t.w.best.toNat t.w.dist.toNat = run ++ tok := by
        simp [matchBytes, tokenBytes, hrun, htok]
      rw [hbo]
      have h3 := hi.out_le
      by_cases hfit : s.out.length + (run ++ tok).length ≤ s.argOutCap.toNat
      · left
        simp only [List.length_append] at hfit
        rw [emitAll_fits _ _ (by simp only [tout, tcap]; omega)]
        simp only [andThen_go]
        rw [emitMatch_eq s.params, ← htok, emitAll_fits _ _ (by simp only [advanceMatch, tout, tcap, List.length_append]; omega)]
        simp only [andThen_go]
        unfold foldToCursor
        simp only [advanceMatch]
        obtain ⟨u, e1, e2, e3, e4⟩ := fold_ok t.w.ckpos.toNat ((t.w.q + t.w.best.setWidth 32).toNat - t.w.ckpos.toNat)
          { t with
            out := t.out ++ run ++ tok,
            w := { t.w with q := t.w.q + t.w.best.setWidth 32, litStart := t.w.q + t.w.best.setWidth 32 } }
          (by simp only [tq, tck, tin, hi.ckpos_eq, hqb]; omega)
        refine ⟨u, e1, ?_, hqb, hle, ?_, ?_⟩
        · have : u.w.ckpos = s.w.q + t.w.best.setWidth 32 := by
            rw [e4]; simp only [tq, tck, hi.ckpos_eq, hqb]
            rw [if_neg (by omega)]
            apply BitVec.eq_of_toNat_eq; rw [hqb]; simp; omega
          rw [e2, this]; simp [tq, tout]
        · rw [e3]
          have ck1 : ({ t.w with
              q := t.w.q + t.w.best.setWidth 32, litStart := t.w.q + t.w.best.setWidth 32 } : Work).ck = s.w.ck := by
            rw [← tckv]; rfl
          rw [ck1]
          congr 1
          simp only [tq, tck, hi.ckpos_eq, hqb]
          rw [show s.w.q.toNat + t.w.best.toNat - s.w.q.toNat = t.w.best.toNat by omega]
          exact inputBytes_congr tinp _ _
        · rw [e2]; simp [tout]; omega
      · right
        push Not at hfit
        by_cases hrf : s.out.length + run.length ≤ s.argOutCap.toNat
        · rw [emitAll_fits _ _ (by simp only [tout, tcap]; exact hrf)]
          simp only [andThen_go]
          simp only [List.length_append] at hfit
          have hlist : s.out ++ run ++ tok.take (s.argOutCap.toNat - (s.out ++ run).length) =
              s.out ++ (run ++ tok).take (s.argOutCap.toNat - s.out.length) := by
            have e1 : run.take (s.argOutCap.toNat - s.out.length) = run := List.take_of_length_le (by omega)
            have e2 : s.argOutCap.toNat - (s.out ++ run).length = s.argOutCap.toNat - s.out.length - run.length := by
              rw [List.length_append]; omega
            rw [List.take_append, e1, e2, List.append_assoc]
          rw [emitMatch_eq s.params, ← htok, emitAll_overflow _ _ (by simp only [advanceMatch, tout, tcap, List.length_append]; omega)
            (by simp only [advanceMatch, tout, tcap, List.length_append]; omega)]
          refine ⟨_, _, rfl, by simp [advanceMatch, tcap], ?_, by simp only [List.length_append]; omega⟩
          simp only [advanceMatch, tout, tcap, hlist]
          unfold FinderFrame at f
          rw [f]
        · rw [emitAll_overflow _ _ (by simp only [tout, tcap]; exact h3) (by simp only [tout, tcap]; omega)]
          refine ⟨_, _, rfl, by simp [tcap], ?_, hfit⟩
          unfold FinderFrame at f
          rw [List.take_append_of_le_length (by omega)]
          simp only [tout, tcap]
          rw [f]

/-- The SCAN step off the scan positions. -/
theorem scan_ends (hf : HashFn) (s : State) (hs : ¬ s.atScanPosition = true) :
    scanStepWith hf s = .go { s with phase := .flush } := by
  unfold scanStepWith; rw [if_neg hs]

/-- The FLUSH step: the rest of the input is taken and emitted, or the sink has no room for it. -/
theorem flush_cases (s : State) (hi : CursorInv s) :
    (∃ u, flushStep s = .go u ∧
      u = { s with
            out := s.out ++ tailBytes s,
            w := { s.w with q := s.inLen, litStart := s.inLen, s1 := u.w.s1, s2 := u.w.s2, ckpos := s.inLen },
            phase := .trailer } ∧
      u.w.ck = checksum s.params s.w.ck (inputBytes s s.w.q.toNat (s.inLen.toNat - s.w.q.toNat)) ∧
      u.out.length ≤ s.argOutCap.toNat) ∨
    (∃ e u, flushStep s = .raised e u ∧ Overflowed s (tailBytes s) e u) := by
  unfold flushStep
  have hq := hi.q_le
  have hl := hi.lit_le
  set s0 : State := { s with w := { s.w with q := s.inLen } } with hs0
  have ck0 : s0.w.ck = s.w.ck := rfl
  obtain ⟨u, e1, e2, e3, e4⟩ := fold_ok s0.w.ckpos.toNat (s0.w.q.toNat - s0.w.ckpos.toNat) s0
    (by show s.w.ckpos.toNat + (s.inLen.toNat - s.w.ckpos.toNat) ≤ s.inLen.toNat; rw [hi.ckpos_eq]; omega)
  have hck : u.w.ck = checksum s.params s.w.ck (inputBytes s s.w.q.toNat (s.inLen.toNat - s.w.q.toNat)) := by
    rw [e3, ck0, ← hi.ckpos_eq]; rfl
  have hpos : u.w.ckpos = s.inLen := by
    rw [e4]
    show (if s.inLen.toNat - s.w.ckpos.toNat = 0 then s.w.ckpos
      else BitVec.ofNat 32 (s.w.ckpos.toNat + (s.inLen.toNat - s.w.ckpos.toNat))) = _
    rw [hi.ckpos_eq]
    split
    · apply BitVec.eq_of_toNat_eq; omega
    · rw [Nat.add_sub_cancel' hq]; simp
  unfold foldToCursor
  rw [e1]
  simp only [andThen_go]
  have ul : u.w.litStart = s.w.litStart := by rw [e2]
  have ui : u.inLen = s.inLen := by rw [e2]
  have uin : u.input = s.input := by rw [e2]
  have uo : u.out = s.out := by rw [e2]
  have uc : u.argOutCap = s.argOutCap := by rw [e2]
  rw [emitLiterals_eq _ _ _ (by rw [ul, ui]; omega), ul, ui, inputBytes_congr uin]
  have upar : u.params = s.params := by rw [e2]
  rw [show tokenBytes u.params (literalTokens u.params
    (inputBytes s s.w.litStart.toNat (s.inLen.toNat - s.w.litStart.toNat))) = tailBytes s by rw [upar]; rfl]
  show (∃ v, ((emitAll (tailBytes s) u).andThen _) = .go v ∧ _) ∨ _
  by_cases hf : s.out.length + (tailBytes s).length ≤ s.argOutCap.toNat
  · left
    rw [emitAll_fits _ _ (by rw [uo, uc]; exact hf)]
    simp only [andThen_go]
    refine ⟨_, rfl, ?_, hck, by simpa [uo] using hf⟩
    rw [e2, hpos]
  · right
    have hover : s.argOutCap.toNat < s.out.length + (tailBytes s).length := Nat.lt_of_not_le hf
    rw [emitAll_overflow _ _ (by rw [uo, uc]; exact hi.out_le) (by rw [uo, uc]; exact hover)]
    refine ⟨_, _, rfl, by rw [uc], ?_, hover⟩
    rw [uo, uc]
    have hu : u = { s with w := u.w } := by rw [e2]
    exact congrArg (fun v : State =>
      { v with
        argOutCap := s.argOutCap, out := s.out ++ (tailBytes s).take (s.argOutCap.toNat - s.out.length) }) hu

/-- The TRAILER step: END is appended, or the sink has no room for it. -/
theorem trailer_cases (s : State) (h0 : s.out.length ≤ s.argOutCap.toNat) :
    (trailerStep s = .go { s with out := s.out ++ encode s.params (.endFrame s.w.ck), phase := .done } ∧
      s.out.length + 6 ≤ s.argOutCap.toNat) ∨
    (∃ e u, trailerStep s = .raised e u ∧ Overflowed s (encode s.params (.endFrame s.w.ck)) e u) := by
  unfold trailerStep
  rw [emitEnd_eq]
  have hlen : (encode s.params (.endFrame s.w.ck)).length = 6 := by simp [encode]
  by_cases hf : s.out.length + (encode s.params (.endFrame s.w.ck)).length ≤ s.argOutCap.toNat
  · left; rw [emitAll_fits _ _ hf]; exact ⟨rfl, by omega⟩
  · right; rw [emitAll_overflow _ _ h0 (by omega)]; exact ⟨_, _, rfl, rfl, rfl, by omega⟩

/-- The SUM step: it goes on. -/
theorem sum_ok (s : State) :
    sumStepCommand s =
      .go { s with
            w := Work.free s.fresh, resultChk := checksum s.params s.argSeed (inputBytes s 0 s.inLen.toNat),
            phase := .idle, status := .doneOk, fresh := s.fresh + 1 } := by
  obtain ⟨u, e1, e2, e3, -⟩ := fold_ok 0 s.inLen.toNat
    { setCk s.argSeed s with w := { (setCk s.argSeed s).w with ckpos := 0#32 } }
    (by show 0 + s.inLen.toNat ≤ s.inLen.toNat; omega)
  have e3' : u.w.ck = checksum s.params s.argSeed (inputBytes s 0 s.inLen.toNat) := by
    rw [e3]; exact congrArg (fun v => checksum s.params v (inputBytes s 0 s.inLen.toNat)) (ck_setCk s.argSeed s)
  have e0 : sumStepCommand s =
      (fold 0 s.inLen.toNat { setCk s.argSeed s with w := { (setCk s.argSeed s).w with ckpos := 0#32 } }).andThen
        fun t => .go { forgetWork t with resultChk := t.w.ck, phase := .idle, status := .doneOk } := rfl
  rw [e1, andThen_go, e3'] at e0
  rw [e0, e2]; rfl

end Sys2Proof.Machine
end

