-- ==== Sys2Proof/Laws/Tokens.lean ====
section
/-! SUPPORT. Running tokens on a reader, and how many bytes tokens take. -/

namespace Sys2Proof.Machine

/-- What a token other than END does depends on the decoded sequence alone. -/
theorem exec_move (i : Instr) (hi : ∀ c, i ≠ .endFrame c) (s t u : State) (o : List Byte)
    (h : exec i (s.withDecoded o) = .next u) :
    ∃ o', u = s.withDecoded o' ∧ exec i (t.withDecoded o) = .next (t.withDecoded o') := by
  cases i with
  | slit l => exact ⟨o ++ l, by cases h; rfl, rfl⟩
  | mlit l => exact ⟨o ++ l, by cases h; rfl, rfl⟩
  | llit l => exact ⟨o ++ l, by cases h; rfl, rfl⟩
  | endFrame c => exact absurd rfl (hi c)
  | _ len dist =>
    simp only [exec, execSmat, execMmat, execLmata, execLmatb, execXmat1, execXmat2, copyMatch] at h ⊢
    by_cases hd : 1 ≤ dist ∧ dist ≤ o.length
    · have h1 : 1 ≤ dist ∧ dist ≤ (s.withDecoded o).rd.o.length := hd
      have h2 : 1 ≤ dist ∧ dist ≤ (t.withDecoded o).rd.o.length := hd
      rw [if_pos h1] at h; rw [if_pos h2]
      exact ⟨copyBack dist len o, by cases h; rfl, rfl⟩
    · have h1 : ¬ (1 ≤ dist ∧ dist ≤ (s.withDecoded o).rd.o.length) := hd
      rw [if_neg h1] at h; cases h

/-- Tokens other than END do the same on every machine with the same decoded sequence. -/
theorem run_move (toks : List Instr) (ht : ∀ i ∈ toks, ∀ c, i ≠ .endFrame c) (s t u : State) (o : List Byte)
    (h : runTokens toks (s.withDecoded o) = .next u) :
    ∃ o', u = s.withDecoded o' ∧ runTokens toks (t.withDecoded o) = .next (t.withDecoded o') := by
  induction toks generalizing o with
  | nil => exact ⟨o, by cases h; rfl, rfl⟩
  | cons i is ih =>
    simp only [runTokens] at h ⊢
    cases he : exec i (s.withDecoded o) with
    | next v =>
      rw [he] at h
      obtain ⟨o', rfl, e2⟩ := exec_move i (ht i (by simp)) s t v o he
      rw [e2]
      exact ih (fun j hj => ht j (by simp [hj])) o' h
    | fault f => rw [he] at h; cases h
    | refused f => rw [he] at h; cases h

/-- Tokens run one list after another. -/
theorem run_append (a b : List Instr) (s t : State) (h : runTokens a s = .next t) :
    runTokens (a ++ b) s = runTokens b t := by
  induction a generalizing s with
  | nil => cases h; rfl
  | cons i is ih =>
    simp only [List.cons_append, runTokens] at h ⊢
    cases he : exec i s with
    | next v => rw [he] at h; simp only at h ⊢; exact ih v h
    | fault f => rw [he] at h; cases h
    | refused f => rw [he] at h; cases h

/-- The literal token of a run appends the run. -/
theorem exec_literalToken (l : List Byte) (s : State) (o : List Byte) :
    exec (literalToken l) (s.withDecoded o) = .next (s.withDecoded (o ++ l)) := by
  unfold literalToken; split; rfl; split <;> rfl

/-- The literal tokens of a run append the run. -/
theorem run_literalBlocks (ps : Params) (k : Nat) (l : List Byte) (s : State) (o : List Byte) :
    runTokens (literalBlocks ps k l) (s.withDecoded o) = .next (s.withDecoded (o ++ l)) := by
  induction k generalizing l o with
  | zero =>
    simp only [literalBlocks]
    split
    · rename_i h; subst h; simp [runTokens]
    · simp [runTokens, exec_literalToken]
  | succ k ih =>
    simp only [literalBlocks, runTokens, exec_literalToken]
    rw [ih]; simp [List.append_assoc]

/-- The literal token of a run of 1 to 65536 bytes is well-formed and canonical, and is not END. -/
theorem literalToken_ok (l : List Byte) (hl : l ≠ []) (h2 : l.length ≤ 65536) :
    (literalToken l).wf = true ∧ canonical (literalToken l) = true ∧ ∀ c, literalToken l ≠ .endFrame c := by
  have : l.length ≠ 0 := by simpa using hl
  unfold literalToken; split
  · simp [Instr.wf, fitsField, canonical]; omega
  split
  · simp [Instr.wf, fitsField, canonical]; omega
  · simp [Instr.wf, fitsField, canonical]; omega

/-- The literal tokens of a run are well-formed and canonical, and none is END. -/
theorem literalBlocks_ok (ps : Params) (hp : ps.Legal) (k : Nat) (l : List Byte) (h1 : k * ps.maxLitRun ≤ l.length)
    (h2 : l.length ≤ (k + 1) * ps.maxLitRun) :
    ∀ i ∈ literalBlocks ps k l, i.wf = true ∧ canonical i = true ∧ ∀ c, i ≠ .endFrame c := by
  have hR1 := hp.maxLitRun_ge
  have hR2 := hp.maxLitRun_le
  generalize hR : ps.maxLitRun = R at *
  induction k generalizing l with
  | zero =>
    simp only [literalBlocks]; split
    · simp
    · rename_i hl; intro i hi; simp at hi; subst hi
      exact literalToken_ok l hl (le_trans (by simpa using h2) hR2)
  | succ k ih =>
    have h65 : R ≤ l.length := le_trans (Nat.le_mul_of_pos_left R (Nat.succ_pos k)) h1
    have e1 : (l.take R).length = R := by rw [List.length_take]; exact Nat.min_eq_left h65
    have e2 : (l.drop R).length = l.length - R := List.length_drop
    intro i hi
    simp only [literalBlocks, hR, List.mem_cons] at hi
    rcases hi with rfl | hi
    · exact literalToken_ok _ (by intro hh; rw [hh] at e1; simp at e1; omega) (by rw [e1]; exact hR2)
    · refine ih _ ?_ ?_ i hi
      · rw [e2]; rw [Nat.succ_mul] at h1; exact Nat.le_sub_of_add_le h1
      · rw [e2]; rw [Nat.succ_mul] at h2; exact Nat.sub_le_of_le_add h2

/-- The literal tokens of a run are well-formed and canonical, and none is END. -/
theorem literalTokens_ok (ps : Params) (hp : ps.Legal) (l : List Byte) :
    ∀ i ∈ literalTokens ps l, i.wf = true ∧ canonical i = true ∧ ∀ c, i ≠ .endFrame c := by
  have hR : 0 < ps.maxLitRun := by have := hp.maxLitRun_ge; omega
  have h1 : (l.length - 1) / ps.maxLitRun * ps.maxLitRun ≤ l.length - 1 := Nat.div_mul_le_self _ _
  have h2 : l.length - 1 < ps.maxLitRun * ((l.length - 1) / ps.maxLitRun + 1) := Nat.lt_mul_div_succ _ hR
  exact literalBlocks_ok _ hp _ _ (le_trans h1 (Nat.sub_le _ _))
    (by rw [Nat.mul_comm] at h2; exact Nat.le_of_pred_lt h2)

/-- A match token whose distance reaches a decoded byte appends its copy. -/
theorem exec_token (c : MatchClass) (len d : Nat) (s : State) (o : List Byte) (h1 : 1 ≤ d) (h2 : d ≤ o.length) :
    exec (c.token len d) (s.withDecoded o) = .next (s.withDecoded (copyBack d len o)) := by
  have : 1 ≤ d ∧ d ≤ (s.withDecoded o).rd.o.length := ⟨h1, h2⟩
  cases c <;> simp only [MatchClass.token, exec, execSmat, execMmat, execLmata, execLmatb, execXmat1, execXmat2, copyMatch] <;>
    rw [if_pos this] <;> rfl

/-- The opcode bytes of the literal token of `r` bytes, or none for no bytes. -/
def lastOver (r : Nat) : Nat := if r = 0 then 0 else if r ≤ 32 then 1 else if r ≤ 2048 then 2 else 3

/-- The size of a literal token. -/
theorem literalToken_size (ps : Params) (l : List Byte) (h : l ≠ []) :
    (encode ps (literalToken l)).length = l.length + lastOver l.length := by
  have : l.length ≠ 0 := by simpa using h
  unfold literalToken lastOver
  rw [if_neg this]
  split
  · simp [encode]; omega
  split
  · simp [encode]; omega
  · simp [encode]; omega

/-- A literal token costs at most one byte more than a 33rd of its run beside it. -/
theorem lastOver_le (r : Nat) : lastOver r ≤ r / 33 + 1 := by
  unfold lastOver; split <;> (try split) <;> (try split) <;> omega

/-- The literal tokens of a run cost at most one byte more than a 33rd of it beside it. -/
theorem literalBlocks_size (ps : Params) (hp : ps.Legal) (k : Nat) (l : List Byte) :
    k * ps.maxLitRun ≤ l.length → (tokenBytes ps (literalBlocks ps k l)).length ≤ l.length + l.length / 33 + 1 := by
  have hR1 := hp.maxLitRun_ge
  generalize hR : ps.maxLitRun = R at *
  induction k generalizing l with
  | zero =>
    intro _
    simp only [literalBlocks]
    split
    · rename_i h; subst h; simp [tokenBytes]
    · rename_i h
      have := lastOver_le l.length
      simp [tokenBytes, literalToken_size ps _ h]; omega
  | succ k ih =>
    intro h
    have h65 : R ≤ l.length := le_trans (Nat.le_mul_of_pos_left R (Nat.succ_pos k)) h
    have e1 : (l.take R).length = R := by rw [List.length_take]; exact Nat.min_eq_left h65
    have e2 : (l.drop R).length = l.length - R := List.length_drop
    have := ih (l.drop R) (by rw [e2]; rw [Nat.succ_mul] at h; exact Nat.le_sub_of_add_le h)
    have ne : l.take R ≠ [] := by intro hh; rw [hh] at e1; simp at e1; omega
    simp only [literalBlocks, tokenBytes, List.map_cons, List.flatten_cons, List.length_append, hR] at *
    rw [literalToken_size ps _ ne, e1]
    have hb : lastOver R ≤ R / 33 := by unfold lastOver; split <;> (try split) <;> (try split) <;> omega
    rw [e2] at this
    omega

/-- The literal tokens of a run cost at most one byte more than a 33rd of it beside it, and those of no run nothing. -/
theorem literalTokens_size (ps : Params) (hp : ps.Legal) (l : List Byte) :
    (tokenBytes ps (literalTokens ps l)).length ≤ l.length + l.length / 33 + 1 ∧
      (l = [] → tokenBytes ps (literalTokens ps l) = []) := by
  refine ⟨literalBlocks_size ps hp _ l (le_trans (Nat.div_mul_le_self _ _) (Nat.sub_le _ _)), ?_⟩
  rintro rfl; simp [literalTokens, literalBlocks, tokenBytes]

/-- A match token is shorter than the match. -/
theorem token_size (ps : Params) {len dist : Nat} {c : MatchClass} (h : route len dist = some c) :
    (encode ps (c.token len dist)).length + 1 ≤ len := by
  unfold route at h
  (repeat' split at h) <;> simp at h <;> subst h <;> simp [MatchClass.token, encode] <;> omega

end Sys2Proof.Machine
end

