-- ==== Sys2Proof/Machine/Spelling.lean ====
section
/-! DEFINITION. The textual spelling of tokens (spec/30_encoding.md R78). No step uses it. -/

namespace Sys2Proof.Machine

/-- A hexadecimal digit, in capitals. -/
def hexDigit (n : Nat) : Char := if n < 10 then Char.ofNat (48 + n) else Char.ofNat (55 + n)

/-- A byte as a hexadecimal pair (R78). -/
def hexPair (b : Byte) : String := String.ofList [hexDigit (b.toNat / 16), hexDigit (b.toNat % 16)]

/-- A literal token: `n, [bytes]`, `n` decimal and the literal bytes as hexadecimal pairs (R78). -/
def runText (lits : List Byte) : String :=
  toString lits.length ++ ", [" ++ String.intercalate " " (lits.map hexPair) ++ "]"

/-- The operands of a token in its textual spelling: a match has length then distance, decimal; END has its checksum as 0x and 8
digits (R78). -/
def operandText : Instr → String
  | .slit lits => runText lits
  | .mlit lits => runText lits
  | .llit lits => runText lits
  | .smat len dist => toString len ++ ", " ++ toString dist
  | .mmat len dist => toString len ++ ", " ++ toString dist
  | .lmata len dist => toString len ++ ", " ++ toString dist
  | .lmatb len dist => toString len ++ ", " ++ toString dist
  | .xmat1 len dist => toString len ++ ", " ++ toString dist
  | .xmat2 len dist => toString len ++ ", " ++ toString dist
  | .endFrame chk => "0x" ++ String.join ((beBytes 4 chk.toNat).map hexPair)

/-- A token in its textual spelling (R78). -/
def tokenText (i : Instr) : String := i.mnemonic ++ " " ++ operandText i

/-- The directive for a header (R78). -/
def headerText (len window : Word) : String := "HEADER " ++ toString len.toNat ++ ", " ++ toString window.toNat

end Sys2Proof.Machine
end

