-- ==== Sys2Proof/Tests/Slice0.lean ====
section
/-! SUPPORT. The model's own tests: ill-formed terms, words written out from the formats, one-step tests against the vectors of
spec/95_test_vectors.md, and for every statement with hypotheses a witness that meets them. -/

namespace Sys2Proof.Tests

open Sys2Proof Sys2Proof.Machine

/-! ### Helpers -/

/-- The parameters this hardware takes. -/
abbrev std : Params := Config.params

/-- Another choice of the parameters. -/
abbrev other : Params := { std with end0 := 0x00#8, end1 := 0x11#8, adlerMod := 251, maxLitRun := 66, rsvBytes := 2 }

/-- It is legal. -/
theorem other_legal : other.Legal where
  lenMax_le := by decide
  maxMatch_le := by decide
  maxLitRun_le := by decide
  maxLitRun_ge := by decide
  rsvBytes_le := by decide
  end0_free := by decide
  adlerMod_pos := by decide
  adlerMod_le := by decide

/-- The outcome is a next state with this property. -/
def goesOn (o : Host.Outcome State Fault Refusal) (p : State → Bool) : Bool :=
  match o with
  | .next t => p t
  | .fault _ => false
  | .refused _ => false

/-- The outcome is this fault. -/
def faultsWith (o : Host.Outcome State Fault Refusal) (f : Fault) : Bool :=
  match o with
  | .next _ => false
  | .fault g => g == f
  | .refused _ => false

/-- The state a part of a step ends in. -/
def ranState : Ran → State
  | .go s => s
  | .raised _ s => s

/-- So many bytes `a`. -/
def aBytes (n : Nat) : List Byte := List.replicate n 0x61#8

/-- The bytes `ABCD`. -/
def abcd : List Byte := [0x41#8, 0x42#8, 0x43#8, 0x44#8]

/-- A reader whose stream is `src`, and that has decoded `o`. -/
def reading (src o : List Byte) : State := { State.reset with rd := { Reader.reset with phase := .tokens, src := src, o := o } }

/-- COMPRESS of `a` times 14 with a sink of 600 bytes, before its INIT step. -/
def init14 : State :=
  { State.reset with
    argOutCap := 600#33, status := .busy, phase := .init, inLen := 14#32, lastCmd := some .compress,
    input := (List.range 14).map fun k => (k, 0x61#8) }

/-- After its INIT step. -/
def scan0 : State :=
  { init14 with phase := .scan, out := headerBytes std 14#32 0x40000#32, w := { Work.reset with s1 := 1#16 } }

/-- After its first SCAN step: the indices are those of V1. -/
def scan1 : State :=
  { scan0 with
    w := { Work.reset with
      q := 1#32, ckpos := 1#32, s1 := 0x62#16, s2 := 0x62#16,
      table := [(0x0D1F, 0#32), (0x3478, 0#32), (0x70F9, 0#32), (0x75EA, 0#32)] } }

/-- COMPRESS of one byte, before its FLUSH step. -/
def flush1 : State :=
  { scan0 with inLen := 1#32, phase := .flush, out := headerBytes std 1#32 0x40000#32 }

/-- Before its TRAILER step. -/
def trailer1 : State :=
  { flush1 with
    phase := .trailer, out := headerBytes std 1#32 0x40000#32 ++ [0x20#8, 0x61#8],
    w := { Work.reset with q := 1#32, litStart := 1#32, ckpos := 1#32, s1 := 0x62#16, s2 := 0x62#16 } }

/-- Before its DONE step. -/
def done1 : State :=
  { trailer1 with
    phase := .done, out := headerBytes std 1#32 0x40000#32 ++ [0x20#8, 0x61#8, 0x05#8, 0xFA#8, 0x00#8, 0x62#8, 0x00#8, 0x62#8] }

/-- CHECKSUM of `a` times 14, before its step. -/
def sum14 : State := { init14 with argSeed := 1#32, phase := .sum, lastCmd := some .checksum }

/-! ### Well-formedness: what each check refuses -/

theorem test_wf_slit_empty : Instr.wf (.slit []) = false := by decide
theorem test_wf_slit_long : Instr.wf (.slit (aBytes 33)) = false := by decide
theorem test_wf_mlit_empty : Instr.wf (.mlit []) = false := by decide
theorem test_wf_llit_empty : Instr.wf (.llit []) = false := by decide
theorem test_wf_smat_len : Instr.wf (.smat 129 1) = false ∧ Instr.wf (.smat 0 1) = false := by decide
theorem test_wf_smat_dist : Instr.wf (.smat 3 257) = false ∧ Instr.wf (.smat 3 0) = false := by decide
theorem test_wf_mmat : Instr.wf (.mmat 257 1) = false ∧ Instr.wf (.mmat 6 16385) = false := by decide
theorem test_wf_lmata : Instr.wf (.lmata 257 1) = false ∧ Instr.wf (.lmata 8 524289) = false := by decide
theorem test_wf_lmatb : Instr.wf (.lmatb 65537 1) = false ∧ Instr.wf (.lmatb 9 524289) = false := by decide
theorem test_wf_xmat1 : Instr.wf (.xmat1 257 1) = false ∧ Instr.wf (.xmat1 10 16777217) = false := by decide
theorem test_wf_xmat2 : Instr.wf (.xmat2 65537 1) = false ∧ Instr.wf (.xmat2 10 16777217) = false := by decide
theorem test_wf_ends : Instr.wf (.xmat2 65536 16777216) = true ∧ Instr.wf (.smat 128 256) = true := by decide

/-! ### Decoding: words written out bit by bit from the formats (R61 to R70), and V5 -/

theorem test_decode_slit :
    decode std [0b00100011#8, 0x41#8, 0x42#8, 0x43#8, 0x44#8] = .ok (.slit abcd, []) := by decide
theorem test_decode_mlit :
    decode std ([0b00001000#8, 0b00100000#8] ++ aBytes 33) = .ok (.mlit (aBytes 33), []) := by decide
theorem test_decode_llit :
    decode std [0b00000111#8, 0b00000000#8, 0b00000001#8, 0x61#8, 0x62#8, 0x63#8] = .ok (.llit [0x61#8, 0x62#8], [0x63#8]) := by
  decide
theorem test_decode_smat : decode std [0b10000010#8, 0b00000000#8] = .ok (.smat 3 1, []) := by decide
theorem test_decode_smat_ends : decode std [0xFF#8, 0xFF#8] = .ok (.smat 128 256, []) := by decide
theorem test_decode_mmat : decode std [0b01000001#8, 0b00101011#8, 0b00000101#8] = .ok (.mmat 6 300, []) := by decide
theorem test_decode_mmat_ends : decode std [0x7F#8, 0xFF#8, 0xFF#8] = .ok (.mmat 256 16384, []) := by decide
theorem test_decode_lmata :
    decode std [0b00011000#8, 0b01001110#8, 0b00011111#8, 0b00100110#8] = .ok (.lmata 39 20000, []) := by decide
theorem test_decode_lmata_ends : decode std [0x1F#8, 0xFF#8, 0xFF#8, 0xFF#8] = .ok (.lmata 256 524288, []) := by decide
theorem test_decode_lmatb :
    decode std [0b00010000#8, 0b11111111#8, 0b11111111#8, 0b00010001#8, 0b01101110#8] = .ok (.lmatb 4463 65536, []) := by
  decide
theorem test_decode_lmatb_ends :
    decode std [0x17#8, 0xFF#8, 0xFF#8, 0xFF#8, 0xFF#8] = .ok (.lmatb 65536 524288, []) := by decide
theorem test_decode_xmat1 :
    decode std [0b00000110#8, 0b00001000#8, 0x00#8, 0x00#8, 0b00001001#8] = .ok (.xmat1 10 524289, []) := by decide
theorem test_decode_xmat2 :
    decode std [0b00000100#8, 0b00001000#8, 0x00#8, 0x00#8, 0b00000001#8, 0x00#8] = .ok (.xmat2 257 524289, []) := by decide
theorem test_decode_end :
    decode std [0b00000101#8, 0b11111010#8, 0x61#8, 0x76#8, 0x11#8, 0xAB#8] = .ok (.endFrame 0x617611AB#32, []) := by decide
theorem test_decode_reserved :
    decode std [0x03#8, 0x00#8] = .error (.reserved 0x03#8) ∧ decode std [0x05#8, 0xFB#8] = .error (.reserved 0x05#8) := by decide
theorem test_decode_truncated : decode std [0x23#8, 0x41#8] = .error .truncated ∧ decode std [] = .error .truncated := by decide

/-- V4 and V5: what the encoder spells. -/
theorem test_encode :
    encode std (.smat 64 4) = [0xBF#8, 0x03#8] ∧ encode std (.mmat 129 1) = [0x40#8, 0x00#8, 0x80#8] ∧
    encode std (.lmata 8 16385) = [0x18#8, 0x40#8, 0x00#8, 0x07#8] ∧
    encode std (.lmatb 257 1) = [0x10#8, 0x00#8, 0x00#8, 0x01#8, 0x00#8] ∧
    encode std (.xmat1 256 16777216) = [0x06#8, 0xFF#8, 0xFF#8, 0xFF#8, 0xFF#8] ∧
    encode std (.xmat2 65536 16777216) = [0x04#8, 0xFF#8, 0xFF#8, 0xFF#8, 0xFF#8, 0xFF#8] := by decide

/-- The table's own numbering: the first byte is the low one, and END's row gives its two bytes high first. -/
theorem test_decodeTableWord :
    decodeTableWord 16 0x03BF = some (.smat 64 4) ∧ decodeTableWord 48 0x05FA = some (.endFrame 0#32) ∧
    decodeTableWord 8 0x21 = some (.slit [0#8, 0#8]) ∧ decodeTableWord 24 0x052B41 = some (.mmat 6 300) := by decide

/-- The notation of R78. -/
theorem test_spelling :
    tokenText (.smat 64 4) = "SMAT 64, 4" ∧ tokenText (.slit [0x41#8, 0xBC#8]) = "SLIT 2, [41 BC]" ∧
    tokenText (.endFrame 0x617611AB#32) = "END 0x617611AB" := by decide

/-! ### Tokens -/

theorem test_step_slit : goesOn (step (State.reset.withFetchWord 8 0x20)) (fun t => t.rd.o == [0#8]) = true := by decide

/-- A match longer than its distance (E7). -/
theorem test_smat_overlap :
    goesOn (exec (.smat 6 4) (reading [] abcd)) (fun t => t.rd.o == abcd ++ abcd ++ [0x41#8, 0x42#8]) = true := by decide

theorem test_match_distance : faultsWith (exec (.xmat2 257 5) (reading [] abcd)) .distanceBeyondOutput = true := by decide

theorem test_end_checks :
    faultsWith (exec (.endFrame 1#32) (reading [] abcd)) .frameLengthMismatch = true ∧
    goesOn (exec (.endFrame 1#32) (reading [] [])) (fun t => t.rd.phase == .ended) = true ∧
    faultsWith (exec (.endFrame 2#32) (reading [] [])) .frameChecksumMismatch = true ∧
    faultsWith (exec (.endFrame 1#32) (reading [0#8] [])) .trailingBytes = true := by decide

/-! ### The match finder and the selector -/

/-- V1: the row `FF` x 13, where the shift loses bits. -/
theorem test_hash_wrap :
    hashCascade 32#6 (List.replicate 13 0xFF#8) =
      { h := 0xA13264C7#32, h1 := 0x004040BF#32, h2 := 0x102050AF#32, h3 := 0x112255AA#32, h4 := 0xA13305F9#32 } := by decide

/-- V1: the row `abcdefghijklm`. -/
theorem test_hash_alphabet :
    hashCascade 15#6 ((List.range 13).map fun k => BitVec.ofNat 8 (0x61 + k)) =
      { h := 0x0944EEA6#32, h1 := 0x717B#32, h2 := 0x0EC3#32, h3 := 0x422E#32, h4 := 0x77EA#32 } := by decide

/-- V3: a longer candidate that is not acceptable does not displace. -/
theorem test_keepBest :
    (keepBest 3#17 200#32 (keepBest 5#17 300#32 { scan0 with w := { scan0.w with best := 2#17 } })).w.best = 3#17 := by decide

/-- V4: the routing rows where an earlier class fails. -/
theorem test_route :
    route 129 1 = some .mmat ∧ route 257 16384 = some .lmatb ∧ route 256 524289 = some .xmat1 ∧
    route 257 524289 = some .xmat2 ∧ route 10 16777217 = none := by decide

/-! ### The commands: `a` times 14, worked out by hand from R82 to R139 -/

theorem test_scan_literal : (engineStep scan0).w.q = 1#32 ∧ (engineStep scan0).w.table = scan1.w.table := by decide

theorem test_scan_match :
    (engineStep scan1).out = headerBytes std 14#32 0x40000#32 ++ [0x20#8, 0x61#8, 0x8C#8, 0x00#8] ∧
    (engineStep scan1).w.q = 14#32 := by decide

theorem test_flush : (engineStep flush1).out = trailer1.out ∧ (engineStep flush1).w.ck = 0x00620062#32 := by decide

theorem test_trailer : (engineStep trailer1).out = done1.out := by decide

theorem test_done : (engineStep done1).resultLen = 24#33 ∧ (engineStep done1).status = .doneOk := by decide

theorem test_sum_wikipedia :
    checksum std 1#32 [0x57#8, 0x69#8, 0x6B#8, 0x69#8, 0x70#8, 0x65#8, 0x64#8, 0x69#8, 0x61#8] = 0x11E60398#32 := by decide

/-- V10: a sink of 16 bytes has room for the header alone. -/
theorem test_overflow :
    (engineStep { scan1 with argOutCap := 17#33 }).excInfo = 17#33 ∧
    (engineStep { scan1 with argOutCap := 17#33 }).out = scan1.out ++ [0x20#8] ∧
    (engineStep { scan1 with argOutCap := 17#33 }).status = .fault := by decide

theorem test_start_refused : (startCommand init14).refusedMark = some .startWhileBusy := by decide

theorem test_checksumBlocked : checksumBlocked std 1#32 (aBytes 3) = checksum std 1#32 (aBytes 3) := by decide

/-- Without a frame in the sink the read goes on, with the bytes of a free count (U8). -/
theorem test_readFrame_without_frame :
    goesOn (hostMove .readFrame { State.reset with status := .doneFail }) (fun t => t.reply == .bytes []) = true ∧
    goesOn (hostMove .readFrame { done1 with status := .doneOk, resultLen := 2#33 })
      (fun t => t.reply == .bytes [0x57#8, 0xBC#8]) = true := by decide

/-- After an overflow the sink holds what was appended (R151, R173). -/
theorem test_readSinkByte_after_overflow :
    goesOn (hostMove (.readSinkByte 16#33) (engineStep { scan1 with argOutCap := 17#33 })) (fun t => t.reply == .bytes [0x20#8]) =
      true := by decide

/-- The parameters reach the decoder, the header, the checksum, the run split and the table (R7). -/
theorem test_parameters :
    decode other [0x00#8, 0x11#8, 0x00#8, 0x00#8, 0x00#8, 0x01#8] = .ok (.endFrame 1#32, []) ∧
    decode other [0x05#8, 0xFA#8] = .error (.reserved 0x05#8) ∧ headerSize other = 12 ∧
    checksum other 1#32 [0xFF#8] = 0x00050005#32 ∧ (literalTokens other (aBytes 67)).length = 2 ∧
    storedPos 8 0x00012345#32 = 0x45#32 := by decide

theorem test_literal_run :
    literalTokens std (aBytes 33) = [.mlit (aBytes 33)] ∧ literalTokens std [] = [] ∧ matchToken 64 4 = some (.smat 64 4) := by
  decide

/-! ### Witnesses: the invariants hold of the states above -/

theorem witness_inv_init : EngineInv init14 where
  params_legal := params_legal
  input_wf := by decide
  table_rising := by decide
  hash_bits_le := by decide
  busy_iff := by decide
  command := fun _ => rfl
  command_sum := by decide
  cursor := fun h => absurd h (by unfold State.afterInit; decide)

theorem witness_inv_scan0 : EngineInv scan0 where
  params_legal := params_legal
  input_wf := by decide
  table_rising := by decide
  hash_bits_le := by decide
  busy_iff := by decide
  command := fun _ => rfl
  command_sum := by decide
  cursor := fun _ =>
    { lit_le := by decide, q_le := by decide, ckpos_eq := by decide, ck_eq := by decide, table_lt := by decide,
      out_le := by decide, flush_tail := by decide, at_end := by decide }

theorem witness_inv_scan1 : EngineInv scan1 where
  params_legal := params_legal
  input_wf := by decide
  table_rising := by decide
  hash_bits_le := by decide
  busy_iff := by decide
  command := fun _ => rfl
  command_sum := by decide
  cursor := fun _ =>
    { lit_le := by decide, q_le := by decide, ckpos_eq := by decide, ck_eq := by decide, table_lt := by decide,
      out_le := by decide, flush_tail := by decide, at_end := by decide }

theorem witness_inv_flush : EngineInv flush1 where
  params_legal := params_legal
  input_wf := by decide
  table_rising := by decide
  hash_bits_le := by decide
  busy_iff := by decide
  command := fun _ => rfl
  command_sum := by decide
  cursor := fun _ =>
    { lit_le := by decide, q_le := by decide, ckpos_eq := by decide, ck_eq := by decide, table_lt := by decide,
      out_le := by decide, flush_tail := by decide, at_end := by decide }

theorem witness_inv_done : EngineInv done1 where
  params_legal := params_legal
  input_wf := by decide
  table_rising := by decide
  hash_bits_le := by decide
  busy_iff := by decide
  command := fun _ => rfl
  command_sum := by decide
  cursor := fun _ =>
    { lit_le := by decide, q_le := by decide, ckpos_eq := by decide, ck_eq := by decide, table_lt := by decide,
      out_le := by decide, flush_tail := by decide, at_end := by decide }

theorem witness_inv_sum : EngineInv sum14 where
  params_legal := params_legal
  input_wf := by decide
  table_rising := by decide
  hash_bits_le := by decide
  busy_iff := by decide
  command := fun h => absurd h (by unfold State.afterInit; decide)
  command_sum := by decide
  cursor := fun h => absurd h (by unfold State.afterInit; decide)

theorem witness_inv_overflow : EngineInv { scan1 with argOutCap := 17#33 } where
  params_legal := params_legal
  input_wf := by decide
  table_rising := by decide
  hash_bits_le := by decide
  busy_iff := by decide
  command := fun _ => rfl
  command_sum := by decide
  cursor := fun _ =>
    { lit_le := by decide, q_le := by decide, ckpos_eq := by decide, ck_eq := by decide, table_lt := by decide,
      out_le := by decide, flush_tail := by decide, at_end := by decide }

theorem witness_frame_scan1 : FrameInv scan1 := fun _ =>
  ⟨[], { window_fits := by decide, out_eq := by decide, tokens_ok := by decide, decodes := rfl }⟩

theorem witness_size_scan1 : SizeInv scan1 := by unfold SizeInv; decide

/-! ### Witnesses, statement by statement -/

theorem witness_DecodeFollowsOpcodeTable :
    ∃ row ∈ opcodeRows, row.matches 0x05#8 0xFA#8 = true ∧ row.mnemonic = "END" := by decide

theorem witness_DecodeEncodeRoundTrip : Instr.wf (.lmatb 65536 524288) = true ∧ Instr.wf (.slit (aBytes 32)) = true := by decide

theorem witness_EncodeDecodeRoundTrip : decode std [0xBF#8, 0x03#8, 0x05#8] = .ok (.smat 64 4, [0x05#8]) := by decide

theorem witness_TokenSizeFromOpcode :
    decode std [0x08#8, 0x00#8, 0x61#8] = .ok (.mlit [0x61#8], []) ∧ announcedRun [0x08#8, 0x00#8, 0x61#8] = 1 := by decide

theorem witness_StepRunsDecodedToken :
    nextTurn (reading [0xBF#8, 0x03#8] abcd) = .reader ∧ (reading [0xBF#8, 0x03#8] abcd).rd.phase = .tokens ∧
    decode std (reading [0xBF#8, 0x03#8] abcd).rd.src = .ok (.smat 64 4, []) ∧
    (reading [0xBF#8, 0x03#8] abcd).params.acceptNoncanonical = true := by decide

theorem witness_StepRunsDecodedToken_turns :
    nextTurn scan0 = .engine ∧ nextTurn { scan0 with agenda := [.host .readStatus] } = .host .readStatus := by decide

theorem witness_StepRunsDecodedToken_refused :
    let s := { reading [0x80#8, 0x00#8] abcd with params := { std with acceptNoncanonical := false } }
    nextTurn s = .reader ∧ s.rd.phase = .tokens ∧ decode s.params s.rd.src = .ok (.smat 1 1, []) ∧
    s.params.acceptNoncanonical = false ∧ canonical (.smat 1 1) = false := by decide

theorem witness_StepStopsOnUndecodable :
    nextTurn (reading [0x03#8] []) = .reader ∧ (reading [0x03#8] []).rd.phase = .tokens ∧
    ((0x03#8 : Byte).toNat < 6 ∧ 0x03#8 ≠ 0x04#8 ∧ 0x03#8 ≠ (reading [0x03#8] []).params.end0) ∧
    decode std (reading [0x03#8] []).rd.src = .error (.reserved 0x03#8) ∧
    decode std (reading [0x05#8, 0x00#8] []).rd.src = .error (.reserved 0x05#8) ∧
    decode std (reading [0x05#8] []).rd.src = .error .truncated := by decide

theorem witness_MatchTokensCopy : 1 ≤ 4 ∧ 4 ≤ (reading [] abcd).rd.o.length := by decide

theorem witness_CopyBackBytes : 1 ≤ 4 ∧ 4 ≤ abcd.length := by decide

theorem witness_MatchTokensRejectDistance : (reading [] abcd).rd.o.length < 5 := by decide

theorem witness_EndEndsTheFrame :
    (reading [] []).rd.o.length = (reading [] []).rd.len.toNat ∧ checksum std 1#32 (reading [] []).rd.o = 1#32 ∧
    (reading [] []).rd.src = [] := by decide

theorem witness_EndRejectsBadFrame :
    (reading [] abcd).rd.o.length ≠ (reading [] abcd).rd.len.toNat ∧ checksum std 1#32 (reading [] []).rd.o ≠ 2#32 ∧
    (reading [0#8] []).rd.src ≠ [] := by decide

theorem witness_TokensLeaveEngineAlone :
    goesOn (exec (.lmata 2 4) (reading [] abcd)) (fun t => t == { reading [] abcd with rd := t.rd }) = true := by decide

/-- A reader whose frame is these bytes. -/
def atHeader (src : List Byte) : State := { State.reset with rd := { Reader.reset with phase := .header, src := src } }

theorem witness_HeaderReadBack :
    (atHeader (headerBytes std 68#32 0xFFFFFFFF#32)).rd.phase = .header ∧
    (atHeader (headerBytes std 68#32 0xFFFFFFFF#32)).rd.src =
      headerBytes (atHeader []).params 68#32 0xFFFFFFFF#32 ++ [] ∧
    (0xFFFFFFFF#32 : Word).toNat < 256 ^ (atHeader []).params.winField.bytes := by decide

theorem witness_HeaderReadBack_short :
    (atHeader (aBytes 15)).rd.phase = .header ∧
    (atHeader (aBytes 15)).rd.src.length < headerSize (atHeader (aBytes 15)).params := by decide

theorem witness_HeaderReadBack_bad :
    headerSize (atHeader (aBytes 16)).params ≤ (atHeader (aBytes 16)).rd.src.length ∧
    ∀ len window, (atHeader (aBytes 16)).rd.src.take (headerSize (atHeader (aBytes 16)).params) ≠
      headerBytes (atHeader (aBytes 16)).params len window :=
  ⟨by decide, fun _ _ h => absurd (congrArg (fun l => l.head?) h) (show ¬ (some 0x61#8 = some 0x57#8) by decide)⟩

theorem witness_HostPlacesInput_refused :
    init14.status = .busy ∧ State.reset.status ≠ .busy ∧
    State.reset.params.lenMax < (0xFFFFFFFE#32 : Word).toNat + [0x61#8, 0x62#8].length := by decide

theorem witness_HostPlacesInput :
    State.reset.input.wf State.reset.params.lenMax ∧ State.reset.status ≠ .busy ∧
    (0xFFFFFFFE#32 : Word).toNat + [0x61#8].length ≤ State.reset.params.lenMax := by decide

theorem witness_RegisterWrites : State.reset.status ≠ .busy ∧ (32#6 : BitVec 6).toNat ≤ 32 := by decide

theorem witness_StartTakesCommand :
    ({ State.reset with cmd := 1#8 } : State).status ≠ .busy ∧ ({ State.reset with cmd := 2#8 } : State).cmd = 2#8 := by decide

theorem witness_HostActionsRefused :
    init14.status = .busy ∧ State.reset.status ≠ .busy ∧ State.reset.cmd ≠ 1#8 ∧ State.reset.cmd ≠ 2#8 ∧
    32 < (33#6 : BitVec 6).toNat := by decide

theorem witness_ResultReads :
    ({ done1 with status := .doneOk } : State).lastCmd = some .compress ∧
    ({ sum14 with status := .doneOk } : State).lastCmd = some .checksum ∧
    ({ done1 with status := .doneFail } : State).status = .doneFail ∧
    ({ done1 with status := .fault } : State).status = .fault ∧ State.reset.status = .idle := by decide

theorem witness_ResultReads_sink :
    let s := { done1 with status := .fault, phase := .idle, excCode := 0x02#8, excInfo := 17#33 }
    s.status ≠ .busy ∧ s.frameValid = false ∧ s.definedSink = s.out.take 17 ∧ s.definedSink.length ≤ (17#33 : CountWord).toNat ∧
    s.definedSink[(16#33 : CountWord).toNat]? = some 0x20#8 ∧ init14.status = .busy := by decide

theorem witness_MarksKept :
    goesOn (step { scan0 with refusedMark := some .startWhileBusy, faultMark := some (.internalError 0) })
      (fun t => t.refusedMark == some .startWhileBusy) = true := by decide

theorem witness_OutputAppendOnly : scan1.phase ≠ .init ∧ scan1.out.length ≤ scan1.argOutCap.toNat := by decide

theorem witness_ScanHashes :
    13 ≤ scan1.params.lookahead ∧ scan1.atScanPosition = true ∧ scan1.w.q.toNat + 13 = scan1.inLen.toNat := by decide

theorem witness_MatchLenIsLongest : 0 + 13 ≤ scan1.inLen.toNat ∧ 1 + 13 ≤ scan1.inLen.toNat := by decide

theorem witness_KeepBestFirstLongest :
    ({ scan0 with w := { scan0.w with best := 2#17 } } : State).w.best = 2#17 ∧ scan0.w.dist = 0#32 ∧
    accept scan0.cfgWindow 3 256 = true ∧ accept scan0.cfgWindow 3 257 = false := by decide

theorem witness_TableTakesScanPosition :
    matchFinder hashCascade scan1 = .go (ranState (matchFinder hashCascade scan1)) := by decide

theorem witness_MatchFinderResult :
    scan1.atScanPosition = true ∧
    ∀ c ∈ scan1.w.table,
      c.2.toNat < scan1.w.q.toNat ∧ c.2.toNat + (scan1.params.lookahead - 1) < scan1.inLen.toNat := by decide

theorem witness_RouteTable : 1 ≤ 16777216 ∧ 256 ≤ 65536 ∧ accept 0xFFFFFFFF#32 256 16777216 = true := by decide

theorem witness_CandidateLimits :
    accept 0xFFFFFFFF#32 10 16777217 = true ∧ route 10 16777217 = none ∧ route 128 256 = some .smat := by decide

theorem witness_NonCanonicalSpellings : route 10 524288 = some .lmata ∧ route 257 524288 = some .lmatb := by decide

theorem witness_LiteralRunSplit :
    0 + 14 ≤ scan1.inLen.toNat ∧
    scan1.out.length + (tokenBytes std (literalTokens std (inputBytes scan1 0 14))).length ≤ scan1.argOutCap.toNat := by decide

theorem witness_ChecksumBlocked : (65535 : Nat) ≤ 65535 ∧ (aBytes 33).length ≤ 5552 := by decide

theorem witness_FoldAdvances : 1 + 13 ≤ scan1.inLen.toNat := by decide

theorem witness_InitStepOutcomes :
    init14.phase = .init ∧ init14.windowFits ∧ init14.params.allocMayFail = true ∧
    headerSize init14.params ≤ init14.argOutCap.toNat := by unfold State.windowFits; decide

theorem witness_InitStepOutcomes_badConfig :
    let s := { init14 with params := { std with winField := .three }, cfgWindow := 0x01000000#32 }
    s.phase = .init ∧ s.params.winField = .three ∧ 2 ^ 24 ≤ s.cfgWindow.toNat := by decide

theorem witness_ScanTakesLiteral :
    EngineInv scan0 ∧ scan0.phase = .scan ∧ scan0.atScanPosition = true ∧
    matchFinder hashCascade scan0 = .go (ranState (matchFinder hashCascade scan0)) ∧
    (ranState (matchFinder hashCascade scan0)).w.best.toNat < 3 := ⟨witness_inv_scan0, by decide⟩

theorem witness_ScanTakesMatch :
    EngineInv scan1 ∧ scan1.phase = .scan ∧ scan1.atScanPosition = true ∧
    matchFinder hashCascade scan1 = .go (ranState (matchFinder hashCascade scan1)) ∧
    3 ≤ (ranState (matchFinder hashCascade scan1)).w.best.toNat ∧
    route (ranState (matchFinder hashCascade scan1)).w.best.toNat (ranState (matchFinder hashCascade scan1)).w.dist.toNat =
      some .smat ∧
    scan1.out.length + (tokenBytes std (literalTokens std (inputBytes scan1 0 1) ++ [.smat 13 1])).length ≤ scan1.argOutCap.toNat :=
  ⟨witness_inv_scan1, by decide⟩

theorem witness_FlushTakesTheTail :
    ({ flush1 with phase := .scan } : State).atScanPosition = false ∧ EngineInv flush1 ∧ flush1.phase = .flush ∧
    flush1.out.length + (tokenBytes std (literalTokens std (inputBytes flush1 0 1))).length ≤ flush1.argOutCap.toNat :=
  ⟨by decide, witness_inv_flush, by decide⟩

theorem witness_TrailerStep :
    trailer1.phase = .trailer ∧ trailer1.out.length + 6 ≤ (24#33 : CountWord).toNat ∧
    trailer1.out.length ≤ (23#33 : CountWord).toNat ∧ (23#33 : CountWord).toNat < trailer1.out.length + 6 := by decide

theorem witness_DoneStep : EngineInv done1 ∧ done1.phase = .done := ⟨witness_inv_done, rfl⟩

theorem witness_SumStep :
    EngineInv sum14 ∧ sum14.phase = .sum ∧ ({ sum14 with inLen := 0#32 } : State).inLen = 0#32 := ⟨witness_inv_sum, rfl, rfl⟩

theorem witness_FaultsArePrecise :
    EngineInv { scan1 with argOutCap := 17#33 } ∧ State.windowFits { scan1 with argOutCap := 17#33 } ∧
    (engineStep { scan1 with argOutCap := 17#33 }).status = .fault := ⟨witness_inv_overflow, .inl rfl, by decide⟩

theorem witness_EngineInvKept : EngineInv scan1 ∧ goesOn (step scan1) (fun t => t.phase == .scan) = true :=
  ⟨witness_inv_scan1, by decide⟩

theorem witness_FrameInvKept :
    EngineInv scan1 ∧ FrameInv scan1 ∧ goesOn (step scan1) (fun t => t.phase == .scan) = true :=
  ⟨witness_inv_scan1, witness_frame_scan1, by decide⟩

theorem witness_SizeInvKept : EngineInv scan1 ∧ SizeInv scan1 ∧ goesOn (step scan1) (fun t => t.phase == .scan) = true :=
  ⟨witness_inv_scan1, witness_size_scan1, by decide⟩

theorem witness_NoFaultWithinBound :
    EngineInv scan1 ∧ SizeInv scan1 ∧ scan1.windowFits ∧ scan1.sinkSuffices ∧ scan1.phase ≠ .idle :=
  ⟨witness_inv_scan1, witness_size_scan1, .inl rfl, by unfold State.sinkSuffices; decide, by decide⟩

theorem witness_CommandsComplete :
    EngineInv sum14 ∧ sum14.stepsLeft = 1 ∧ init14.stepsLeft = 7 ∧ sum14.agenda = [] ∧ sum14.phase ≠ .idle :=
  ⟨witness_inv_sum, by decide⟩

/-- A machine about to start a COMPRESS of no bytes, and one after other commands, with other leftovers and other bytes past the
input. -/
theorem witness_CommandsAreIndependent_start :
    let s := { State.reset with cmd := 1#8 }
    let t := { s with fresh := 9, argSeed := 7#32, status := .doneOk, input := [(0, 0x61#8)], out := [0x61#8] }
    s.status ≠ .busy ∧ t.status ≠ .busy ∧ s.cmd = 1#8 ∧ s.cmd = t.cmd ∧ s.params = t.params ∧ s.cfgWindow = t.cfgWindow ∧
    s.cfgHashBits = t.cfgHashBits ∧ s.argLen = t.argLen ∧ s.argOutCap = t.argOutCap ∧
    (s.cmd = 2#8 → s.argSeed = t.argSeed) ∧ (∀ a, a < s.argLen.toNat → s.input.read a = t.input.read a) :=
  ⟨by decide, by decide, rfl, rfl, rfl, rfl, rfl, rfl, rfl, by decide, fun a h => absurd h (Nat.not_lt_zero a)⟩

/-- Another machine in the same command, with other leftovers. -/
def scan0' : State :=
  { scan0 with
    fresh := 9, argSeed := 7#32, resultLen := 7#33, excCode := 2#8, w := { scan0.w with best := 9#17, h := 5#32, m := 4#17 } }

theorem witness_CommandsAreIndependent : EngineInv scan0 ∧ EngineInv scan0' ∧ SameCommand scan0 scan0' ∧ scan0.phase ≠ .idle :=
  ⟨witness_inv_scan0,
    { params_legal := params_legal, input_wf := by decide, table_rising := by decide, hash_bits_le := by decide,
      busy_iff := by decide,
      command := fun _ => rfl, command_sum := by decide,
      cursor := fun _ =>
        { lit_le := by decide, q_le := by decide, ckpos_eq := by decide, ck_eq := by decide, table_lt := by decide,
          out_le := by decide, flush_tail := by decide, at_end := by decide } },
    { params := rfl, cfgWindow := rfl, cfgHashBits := rfl, argSeed := by decide, argOutCap := rfl, inLen := rfl,
      input := fun _ _ => rfl,
      phase := rfl, status := rfl, lastCmd := rfl, draw := by decide, carried := fun _ => ⟨rfl, rfl, rfl, rfl, rfl, rfl, rfl⟩ },
    by decide⟩

theorem witness_CompressDeliversTheInput : EngineInv init14 ∧ init14.phase = .init ∧ init14.windowFits ∧ init14.sinkSuffices :=
  ⟨witness_inv_init, rfl, .inl rfl, by unfold State.sinkSuffices; decide⟩

theorem witness_EmptyInputFrame :
    let s := { init14 with inLen := 0#32, params := { std with allocMayFail := false } }
    EngineInv s ∧ s.phase = .init ∧ s.windowFits ∧ s.sinkSuffices ∧ s.inLen = 0#32 ∧ s.params.allocMayFail = false :=
  ⟨{ params_legal := ⟨by decide, by decide, by decide, by decide, by decide, by decide, by decide, by decide⟩,
     input_wf := by decide, table_rising := by decide, hash_bits_le := by decide, busy_iff := by decide,
      command := fun _ => rfl, command_sum := by decide,
      cursor := fun h => absurd h (by unfold State.afterInit; decide) },
    rfl, .inl rfl, by unfold State.sinkSuffices; decide, rfl, rfl⟩

end Sys2Proof.Tests
end

section
/-! SUPPORT. Who acts in a step, and what the host's register moves do: one equation per case (spec/10_state.md R15 to R23, R40,
spec/70_reset_and_hazards.md R173, R174). -/

namespace Sys2Proof.Machine

/-! ### The turn of a step -/

/-- A step in which the engine acts. -/
theorem step_of_engine {s : State} (h : nextTurn s = .engine) : step s = .next (engineStep (dropTurn s)) := by
  simp [step, stepWith, takeTurnWith, engineStep, h]

/-- A step in which the host acts. -/
theorem step_of_host {s : State} {mv : HostMove} (h : nextTurn s = .host mv) : step s = hostMove mv (dropTurn s) := by
  simp [step, stepWith, takeTurnWith, h]

/-- A step in which the reader acts. -/
theorem step_of_reader {s : State} (h : nextTurn s = .reader) : step s = readerTurn (dropTurn s) := by
  simp [step, stepWith, takeTurnWith, h]

/-- Where no turn is decided and a command is in progress, the engine acts. -/
theorem nextTurn_of_no_agenda {s : State} (ha : s.agenda = []) (hp : s.phase ≠ .idle) : nextTurn s = .engine := by
  simp [nextTurn, ha, hp]

/-- Nothing is dropped from an empty agenda. -/
theorem dropTurn_of_no_agenda {s : State} (ha : s.agenda = []) : dropTurn s = s := by
  cases s
  cases ha
  rfl

/-- Between header and END the reader's turn is its next token. -/
theorem readerTurn_of_tokens {s : State} (h : s.rd.phase = .tokens) : readerTurn s = readToken s := by
  simp [readerTurn, h]

/-- A token the reader takes is run past its bytes. -/
theorem readToken_of_accepted {s : State} {i : Instr} {rest : List Byte} (hd : decode s.params s.rd.src = .ok (i, rest))
    (ha : s.params.acceptNoncanonical = true ∨ canonical i = true) :
    readToken s = exec i { s with rd := { s.rd with src := rest } } := by
  have ha' : (s.params.acceptNoncanonical || canonical i) = true := by simpa using ha
  simp only [readToken, hd]
  rw [if_pos ha']

/-- A spelling that is not canonical is refused where the parameter says so (U14). -/
theorem readToken_of_noncanonical {s : State} {i : Instr} {rest : List Byte}
    (hd : decode s.params s.rd.src = .ok (i, rest)) (ha : s.params.acceptNoncanonical = false)
    (hc : canonical i = false) : readToken s = .refused .nonCanonicalToken := by
  have ha' : ¬ (s.params.acceptNoncanonical || canonical i) = true := by simp [ha, hc]
  simp only [readToken, hd]
  rw [if_neg ha']

/-! ### Register writes -/

/-- A register write when no command is in progress. -/
theorem writeUnlessBusy_of_not_busy {why : HostRefusal} {s : State} {write : State → State} (h : s.status ≠ .busy) :
    writeUnlessBusy why s write = { write s with reply := .nothing } := if_neg h

/-- A legal write of `CFG_HASH_BITS` when no command is in progress. -/
theorem writeHashBits_of_legal {v : BitVec 6} {s : State} (h : s.status ≠ .busy) (hv : v.toNat ≤ Config.hashBitsMax) :
    writeHashBits v s = { s with cfgHashBits := v, reply := .nothing } := by
  rw [writeHashBits, if_neg h, if_neg (by omega)]

/-! ### Register reads -/

/-- A read of a result or exception register that holds a value. -/
theorem readResult_of_valid {valid : Bool} {v : CountWord} {s : State} (h : valid = true) :
    readResult valid v s = givesValue v s := if_pos h

/-- A read of a result or exception register that holds none. -/
theorem readResult_of_not_valid {valid : Bool} {v : CountWord} {s : State} (h : valid = false) :
    readResult valid v s = .fault .registerHoldsNoValue := if_neg (by simp [h])

/-- A read of a configuration register when no command is in progress. -/
theorem readConfig_of_not_busy {v : CountWord} {s : State} (h : s.status ≠ .busy) :
    readConfig v s = givesValue v s := if_neg h

/-- A read of a configuration register during a command. -/
theorem readConfig_of_busy {v : CountWord} {s : State} (h : s.status = .busy) :
    readConfig v s = .refused .configReadWhileBusy := if_pos h

theorem resultLenValid_iff (s : State) :
    s.resultLenValid = true ↔ (s.status = .doneOk ∧ s.lastCmd = some .compress) ∨ s.status = .doneFail := by
  simp [State.resultLenValid]

theorem resultLenValid_eq_false_iff (s : State) :
    s.resultLenValid = false ↔ ¬ ((s.status = .doneOk ∧ s.lastCmd = some .compress) ∨ s.status = .doneFail) := by
  rw [← resultLenValid_iff, Bool.not_eq_true]

theorem resultChkValid_iff (s : State) : s.resultChkValid = true ↔ s.status = .doneOk := by
  simp [State.resultChkValid]

theorem resultChkValid_eq_false_iff (s : State) : s.resultChkValid = false ↔ s.status ≠ .doneOk := by
  rw [Ne, ← resultChkValid_iff, Bool.not_eq_true]

theorem excValid_iff (s : State) : s.excValid = true ↔ s.status = .fault ∨ s.status = .doneFail := by
  simp [State.excValid]

theorem excValid_eq_false_iff (s : State) : s.excValid = false ↔ ¬ (s.status = .fault ∨ s.status = .doneFail) := by
  rw [← excValid_iff, Bool.not_eq_true]

theorem frameValid_iff (s : State) : s.frameValid = true ↔ s.status = .doneOk ∧ s.lastCmd = some .compress := by
  simp [State.frameValid]

/-! ### Reads of the output sink -/

/-- After `DONE_OK` of a COMPRESS the defined bytes are the frame (R173). -/
theorem definedSink_of_frame {s : State} (h : s.frameValid = true) : s.definedSink = s.out.take s.resultLen.toNat :=
  if_pos h

/-- After an `OutputOverflow` the defined bytes are those that were appended (R151, R173). -/
theorem definedSink_of_overflow {s : State} (hs : s.status = .fault) (he : s.excCode = 0x02#8) :
    s.definedSink = s.out.take s.excInfo.toNat := by
  simp [State.definedSink, State.frameValid, hs, he]

/-- At any other time no byte of the sink is defined. -/
theorem definedSink_of_neither {s : State} (hf : s.frameValid = false) (ho : ¬ (s.status = .fault ∧ s.excCode = 0x02#8)) :
    s.definedSink = [] := by
  simp only [State.definedSink, hf, Bool.and_eq_true, beq_iff_eq]
  rw [if_neg Bool.false_ne_true, if_neg ho]

/-- A byte of the sink that is defined is read as it is. -/
theorem sinkByte_of_defined {s : State} {k : Nat} {b : Byte} (h : s.definedSink[k]? = some b) : sinkByte s k = b := by
  simp [sinkByte, List.getD_eq_getElem?_getD, h]

/-- A read of the sink as a whole where it holds a frame. -/
theorem readFrame_of_frame {s : State} (h : s.frameValid = true) :
    readFrame s = .next { s with reply := .bytes s.definedSink } := by
  have hb : s.status ≠ .busy := by simp [((frameValid_iff s).1 h).1]
  rw [readFrame, if_neg hb, if_pos h]

/-- A read of the sink as a whole where it holds none. -/
theorem readFrame_of_no_frame {s : State} (hb : s.status ≠ .busy) (h : s.frameValid = false) :
    readFrame s =
      .next { s with reply := .bytes ((List.range (frameLength s)).map (sinkByte s)), fresh := s.fresh + 1 } := by
  rw [readFrame, if_neg hb, if_neg (by simp [h])]

/-- What a read of the sink as a whole gives agrees with the defined bytes. -/
theorem readFrame_bytes_defined (s : State) {n k : Nat} (hn : k < n) (hk : k < s.definedSink.length) :
    ((List.range n).map (sinkByte s))[k]? = s.definedSink[k]? := by
  have hb : s.definedSink[k]? = some s.definedSink[k] := List.getElem?_eq_getElem hk
  rw [hb]
  simp [hn, sinkByte_of_defined hb]

/-- A read of a byte of the sink that is defined. -/
theorem readSinkByte_of_defined {s : State} {k : CountWord} {b : Byte} (hb : s.status ≠ .busy)
    (h : s.definedSink[k.toNat]? = some b) : readSinkByte k s = .next { s with reply := .bytes [b] } := by
  have hk : k.toNat < s.definedSink.length := (List.getElem?_eq_some_iff.1 h).1
  rw [readSinkByte, if_neg hb, if_pos hk, sinkByte_of_defined h]

/-- A read of a byte of the sink that is not defined. -/
theorem readSinkByte_of_not_defined {s : State} {k : CountWord} (hb : s.status ≠ .busy)
    (h : s.definedSink.length ≤ k.toNat) :
    readSinkByte k s = .next { s with reply := .bytes [sinkByte s k.toNat], fresh := s.fresh + 1 } := by
  rw [readSinkByte, if_neg hb, if_neg (by omega)]

/-- No read of the sink during a command. -/
theorem readFrame_of_busy {s : State} (h : s.status = .busy) : readFrame s = .refused .sinkReadWhileBusy := if_pos h

theorem readSinkByte_of_busy {s : State} (k : CountWord) (h : s.status = .busy) :
    readSinkByte k s = .refused .sinkReadWhileBusy := if_pos h

end Sys2Proof.Machine
end

section
/-! The statements about turns, register writes and host reads. -/

namespace Sys2Proof.Machine

/-- Settles O7: `step` is the turn `nextTurn` names, and the reader's is `readToken`. -/
theorem stepRunsDecodedToken : Obligations.StepRunsDecodedToken := by
  refine ⟨fun s h => step_of_engine h, fun s mv h => step_of_host h, fun s i rest ht hp hd => ?_⟩
  have hstep : step s = readToken (dropTurn s) := (step_of_reader ht).trans (readerTurn_of_tokens hp)
  rw [hstep]
  exact ⟨fun ha => readToken_of_accepted (s := dropTurn s) hd ha,
    fun ha hc => readToken_of_noncanonical (s := dropTurn s) hd ha hc⟩

/-- Settles O20: no write is refused when no command is in progress, and each is one record update. -/
theorem registerWrites : Obligations.RegisterWrites := by
  intro s hs
  have write (why : HostRefusal) (f : State → State) :
      Host.Outcome.next (φ := Fault) (ρ := Refusal) (writeUnlessBusy why s f) = .next { f s with reply := .nothing } :=
    congrArg Host.Outcome.next (writeUnlessBusy_of_not_busy hs)
  exact ⟨fun _ => write _ _, fun _ hv => congrArg Host.Outcome.next (writeHashBits_of_legal hs hv), fun _ => write _ _,
    fun _ => write _ _, fun _ => write _ _, fun _ => write _ _⟩

/-- Settles O24: each read is decided by the outcome `STATUS` shows, through the validity of its register. -/
theorem resultReads : Obligations.ResultReads := by
  intro s
  have lenValue (h : (s.status = .doneOk ∧ s.lastCmd = some .compress) ∨ s.status = .doneFail) :
      hostMove .readResultLen s = givesValue s.resultLen s := readResult_of_valid ((resultLenValid_iff s).2 h)
  have lenFault (h : ¬ ((s.status = .doneOk ∧ s.lastCmd = some .compress) ∨ s.status = .doneFail)) :
      hostMove .readResultLen s = .fault .registerHoldsNoValue :=
    readResult_of_not_valid ((resultLenValid_eq_false_iff s).2 h)
  have chkFault (h : s.status ≠ .doneOk) : hostMove .readResultChk s = .fault .registerHoldsNoValue :=
    readResult_of_not_valid ((resultChkValid_eq_false_iff s).2 h)
  have excFault (h : ¬ (s.status = .fault ∨ s.status = .doneFail)) :
      hostMove .readExcCode s = .fault .registerHoldsNoValue ∧ hostMove .readExcInfo s = .fault .registerHoldsNoValue :=
    ⟨readResult_of_not_valid ((excValid_eq_false_iff s).2 h), readResult_of_not_valid ((excValid_eq_false_iff s).2 h)⟩
  refine ⟨fun h hc => ?frame, fun h hc => lenFault (by simp [h, hc]),
    fun h => ⟨readResult_of_valid ((resultChkValid_iff s).2 h), excFault (by simp [h])⟩,
    fun h => ⟨lenValue (.inr h), chkFault (by simp [h])⟩, fun h => ⟨lenFault (by simp [h]), chkFault (by simp [h])⟩,
    fun h => ⟨readResult_of_valid ((excValid_iff s).2 h), readResult_of_valid ((excValid_iff s).2 h)⟩,
    fun h => ?noOutcome, fun h => ⟨readConfig_of_not_busy h, readConfig_of_not_busy h⟩,
    fun h => ⟨readConfig_of_busy h, readConfig_of_busy h, readFrame_of_busy h, fun k => readSinkByte_of_busy k h⟩,
    fun hb hf => ⟨_, readFrame_of_no_frame hb hf, fun hl => ?length, fun k hn hk => ?bytes⟩,
    fun hb k => ⟨fun b h => readSinkByte_of_defined hb h, fun h => ⟨_, readSinkByte_of_not_defined hb h⟩⟩,
    fun h hc => definedSink_of_frame ((frameValid_iff s).2 ⟨h, hc⟩), fun h he => definedSink_of_overflow h he,
    fun hf ho => definedSink_of_neither hf ho⟩
  case frame =>
    have hf := (frameValid_iff s).2 ⟨h, hc⟩
    have hr := readFrame_of_frame hf
    rw [definedSink_of_frame hf] at hr
    exact ⟨lenValue (.inl ⟨h, hc⟩), hr⟩
  case noOutcome =>
    obtain h | h := h <;>
      exact ⟨lenFault (by simp [h]), chkFault (by simp [h]), excFault (by simp [h])⟩
  case length => simp [frameLength, hl]
  case bytes => exact readFrame_bytes_defined s (by simpa using hn) hk

end Sys2Proof.Machine
end

section
/-! SUPPORT. What no part of an engine step writes, whatever the state (spec/10_state.md R18, R19, spec/20_memory.md R42, R55). -/

namespace Sys2Proof.Machine

/-- What an engine step leaves: the parameters, the configuration, the command and argument registers, `IN_LEN`, the input space,
the command, the reader, the agenda, the reply and the refusal mark are as they were. -/
def EngineFrame (s t : State) : Prop :=
  t = { s with
        status := t.status, resultLen := t.resultLen, resultChk := t.resultChk, excCode := t.excCode,
        excInfo := t.excInfo, phase := t.phase, w := t.w, out := t.out, faultMark := t.faultMark, fresh := t.fresh }

theorem EngineFrame.trans {s t u : State} (h1 : EngineFrame s t) (h2 : EngineFrame t u) : EngineFrame s u := by
  unfold EngineFrame at *
  rw [h2, h1]

theorem EngineFrame.input_eq {s t : State} (h : EngineFrame s t) : t.input = s.input := by rw [h]

/-- A part of a step keeps the frame, however it ends. -/
def Ran.Frames (s : State) : Ran → Prop
  | .go t => EngineFrame s t
  | .raised _ t => EngineFrame s t

/-- A part of a step that starts from a state within the frame. -/
theorem Ran.Frames.of_frame {r : Ran} {s t : State} (hst : EngineFrame s t) (hr : r.Frames t) : r.Frames s := by
  cases r with
  | go u => exact EngineFrame.trans hst hr
  | raised e u => exact EngineFrame.trans hst hr

/-- Two parts of a step, one after the other. -/
theorem Ran.Frames.andThen {r : Ran} {f : State → Ran} {s : State} (hr : r.Frames s) (hf : ∀ t, (f t).Frames t) :
    (r.andThen f).Frames s := by
  cases r with
  | go t => exact Ran.Frames.of_frame hr (hf t)
  | raised e t => exact hr

/-- The last part of a step, which raises nothing. -/
theorem Ran.Frames.andThen_go {r : Ran} {f : State → State} {s : State} (hr : r.Frames s) (hf : ∀ t, EngineFrame t (f t)) :
    (r.andThen fun t => .go (f t)).Frames s := hr.andThen hf

/-- Taking a fault keeps the frame too (R156). -/
theorem Ran.Frames.settle {r : Ran} {s : State} (hr : r.Frames s) : EngineFrame s r.settle := by
  cases r with
  | go t => exact hr
  | raised e t => exact EngineFrame.trans hr rfl

/-! ### Appending to the output -/

theorem emitByte_frames (b : Byte) (s : State) : (emitByte b s).Frames s := by
  unfold emitByte
  split <;> rfl

theorem emitAll_frames (bs : List Byte) (s : State) : (emitAll bs s).Frames s := by
  induction bs generalizing s with
  | nil => rfl
  | cons b bs ih => exact (emitByte_frames b s).andThen ih

theorem emit_frames (n v : Nat) (s : State) : (emit n v s).Frames s := emitAll_frames _ s

theorem emitBytes_frames (p n : Nat) (s : State) : (emitBytes p n s).Frames s := by
  induction n generalizing p s with
  | zero => rfl
  | succ n ih =>
    unfold emitBytes
    split
    · rfl
    · exact (emitByte_frames _ s).andThen (ih (p + 1))

theorem emitLiteralToken_frames (p n : Nat) (s : State) : (emitLiteralToken p n s).Frames s := by
  unfold emitLiteralToken
  split
  · exact (emit_frames _ _ s).andThen (emitBytes_frames p n)
  split
  · exact (emit_frames _ _ s).andThen (emitBytes_frames p n)
  · exact (emit_frames _ _ s).andThen (emitBytes_frames p n)

theorem emitBlocks_frames (maxRun blocks p n : Nat) (s : State) : (emitBlocks maxRun blocks p n s).Frames s := by
  induction blocks generalizing p n s with
  | zero =>
    unfold emitBlocks
    split
    · rfl
    · exact emitLiteralToken_frames p n s
  | succ blocks ih => exact (emitLiteralToken_frames p maxRun s).andThen (ih (p + maxRun) (n - maxRun))

theorem emitLiterals_frames (p n : Nat) (s : State) : (emitLiterals p n s).Frames s := emitBlocks_frames _ _ p n s

theorem emitMatch_frames (cls : MatchClass) (len dist : Nat) (s : State) : (emitMatch cls len dist s).Frames s := by
  rw [emitMatch_eq s.params]
  exact emitAll_frames _ s

theorem emitHeader_frames (s : State) : (emitHeader s).Frames s := by
  rw [emitHeader_eq]
  exact emitAll_frames _ s

theorem emitEnd_frames (ck : Word) (s : State) : (emitEnd ck s).Frames s := by
  rw [emitEnd_eq]
  exact emitAll_frames _ s

/-! ### The accumulator and the match finder -/

theorem fold_frames (p n : Nat) (s : State) : (fold p n s).Frames s := by
  unfold fold
  split
  · rfl
  · split <;> rfl

theorem foldToCursor_frames (s : State) : (foldToCursor s).Frames s := fold_frames _ _ s

theorem computeHashes_frames (hf : HashFn) (s : State) : (computeHashes hf s).Frames s := by
  unfold computeHashes
  split <;> rfl

theorem keepBest_frame (m : LenWord) (d : Word) (s : State) : EngineFrame s (keepBest m d s) := by
  unfold keepBest
  split <;> rfl

theorem probe_frames (i : Word) (s : State) : (probe i s).Frames s := by
  unfold probe
  split
  · rfl
  · split
    · rfl
    · exact EngineFrame.trans (t := { s with w := { s.w with m := BitVec.ofNat 17 _ } }) rfl (keepBest_frame _ _ _)

theorem probes_frames (s : State) : (probes s).Frames s :=
  (((probe_frames _ s).andThen fun t => probe_frames _ t).andThen fun t => probe_frames _ t).andThen
    fun t => probe_frames _ t

theorem matchFinder_frames (hf : HashFn) (s : State) : (matchFinder hf s).Frames s :=
  Ran.Frames.of_frame (t := beginScan s) rfl
    (((computeHashes_frames hf _).andThen probes_frames).andThen_go fun _ => rfl)

/-! ### The steps of the commands -/

theorem takeMatch_frames (cls : MatchClass) (s : State) : (takeMatch cls s).Frames s :=
  Ran.Frames.of_frame (t := { s with w := { s.w with best := BitVec.ofNat 17 (clampLen s.params cls s.w.best.toNat) } }) rfl
    ((emitLiterals_frames _ _ _).andThen fun t =>
      Ran.Frames.of_frame (t := advanceMatch t) rfl (emitMatch_frames cls _ _ _))

theorem select_frames (s : State) : (select s).Frames s := by
  unfold select
  split
  · rfl
  · split
    · exact takeMatch_frames _ s
    · rfl

theorem initStep_frames (drawFails : Bool) (s : State) : (initStep drawFails s).Frames s := by
  unfold initStep
  split
  · rfl
  split
  · rfl
  · exact Ran.Frames.of_frame (t := initCommand s) rfl ((emitHeader_frames _).andThen_go fun _ => rfl)

theorem scanStepWith_frames (hf : HashFn) (s : State) : (scanStepWith hf s).Frames s := by
  unfold scanStepWith
  split
  · exact ((matchFinder_frames hf s).andThen select_frames).andThen foldToCursor_frames
  · rfl

theorem flushStep_frames (s : State) : (flushStep s).Frames s :=
  ((Ran.Frames.of_frame (t := { s with w := { s.w with q := s.inLen } }) rfl (foldToCursor_frames _)).andThen fun t =>
    emitLiterals_frames _ _ t).andThen_go fun _ => rfl

theorem trailerStep_frames (s : State) : (trailerStep s).Frames s := (emitEnd_frames _ s).andThen_go fun _ => rfl

theorem sumStepCommand_frames (s : State) : (sumStepCommand s).Frames s := by
  rw [sum_ok]
  rfl

/-! ### The engine's step, phase by phase -/

theorem engineStepWith_of_idle (hf : HashFn) {s : State} (h : s.phase = .idle) : engineStepWith hf s = s := by
  simp [engineStepWith, h]

theorem engineStepWith_of_init (hf : HashFn) {s : State} (h : s.phase = .init) :
    engineStepWith hf s = (initStep (Config.allocFails s.fresh) s).settle := by simp [engineStepWith, h]

theorem engineStepWith_of_scan (hf : HashFn) {s : State} (h : s.phase = .scan) :
    engineStepWith hf s = (scanStepWith hf s).settle := by simp [engineStepWith, h]

theorem engineStepWith_of_flush (hf : HashFn) {s : State} (h : s.phase = .flush) :
    engineStepWith hf s = (flushStep s).settle := by simp [engineStepWith, h]

theorem engineStepWith_of_trailer (hf : HashFn) {s : State} (h : s.phase = .trailer) :
    engineStepWith hf s = (trailerStep s).settle := by simp [engineStepWith, h]

theorem engineStepWith_of_done (hf : HashFn) {s : State} (h : s.phase = .done) : engineStepWith hf s = doneStep s := by
  simp [engineStepWith, h]

theorem engineStepWith_of_sum (hf : HashFn) {s : State} (h : s.phase = .sum) :
    engineStepWith hf s = (sumStepCommand s).settle := by simp [engineStepWith, h]

/-- The frame of every engine step, for every hash function. -/
theorem engineStepWith_frame (hf : HashFn) (s : State) : EngineFrame s (engineStepWith hf s) := by
  cases hp : s.phase with
  | idle => rw [engineStepWith_of_idle hf hp]; rfl
  | init => rw [engineStepWith_of_init hf hp]; exact (initStep_frames _ s).settle
  | scan => rw [engineStepWith_of_scan hf hp]; exact (scanStepWith_frames hf s).settle
  | flush => rw [engineStepWith_of_flush hf hp]; exact (flushStep_frames s).settle
  | trailer => rw [engineStepWith_of_trailer hf hp]; exact (trailerStep_frames s).settle
  | done => rw [engineStepWith_of_done hf hp]; rfl
  | sum => rw [engineStepWith_of_sum hf hp]; exact (sumStepCommand_frames s).settle

/-- Settles O26: every part of every step keeps the frame, and so does taking a fault. -/
theorem engineStepFrame : Obligations.EngineStepFrame := by
  intro s
  have hframe : EngineFrame s (engineStep s) := engineStepWith_frame hashCascade s
  exact ⟨_, rfl, hframe, fun a => by rw [hframe.input_eq]⟩

end Sys2Proof.Machine
end

section
/-! SUPPORT. The checksum continued over more bytes, and what a fold leaves in the accumulator (spec/44_checksum.md R127, R129,
R130). -/

namespace Sys2Proof.Machine

/-- The sums over the same bytes from starts that agree modulo `m` agree modulo `m`. -/
theorem foldl_sumStep_modEq {m : Nat} (bs : List Byte) {a c : Nat × Nat} (h1 : a.1 ≡ c.1 [MOD m])
    (h2 : a.2 ≡ c.2 [MOD m]) :
    (bs.foldl sumStep a).1 ≡ (bs.foldl sumStep c).1 [MOD m] ∧ (bs.foldl sumStep a).2 ≡ (bs.foldl sumStep c).2 [MOD m] := by
  induction bs generalizing a c with
  | nil => exact ⟨h1, h2⟩
  | cons b bs ih => exact ih (h1.add_right _) (h2.add (h1.add_right _))

/-- The checksum of some bytes is their sums joined. -/
theorem checksum_of_ne_nil (ps : Params) (seed : Word) {bs : List Byte} (h : bs ≠ []) :
    checksum ps seed bs = joinSums ps.adlerMod (bs.foldl sumStep (splitSums seed)) := if_neg h

@[simp] theorem checksum_nil (ps : Params) (seed : Word) : checksum ps seed [] = seed := rfl

/-- A checksum continued over more bytes is the checksum of all of them (R130). -/
theorem checksum_append {ps : Params} (hp : ps.Legal) (seed : Word) (a b : List Byte) :
    checksum ps (checksum ps seed a) b = checksum ps seed (a ++ b) := by
  by_cases ha : a = []
  · simp [ha]
  by_cases hb : b = []
  · simp [hb]
  set sums := a.foldl sumStep (splitSums seed) with hsums
  have hres : splitSums (checksum ps seed a) = (sums.1 % ps.adlerMod, sums.2 % ps.adlerMod) := by
    rw [checksum_of_ne_nil ps seed ha, splitSums_joinSums hp.adlerMod_pos hp.adlerMod_le]
  obtain ⟨h1, h2⟩ := foldl_sumStep_modEq (m := ps.adlerMod) b
    (a := (sums.1 % ps.adlerMod, sums.2 % ps.adlerMod)) (c := sums) (Nat.mod_modEq _ _) (Nat.mod_modEq _ _)
  rw [checksum_of_ne_nil ps _ hb, hres, checksum_of_ne_nil ps _ (by simp [ha]), List.foldl_append]
  exact joinSums_congr _ _ _ h1 h2

/-- The halves of the accumulator's value are its registers (R36). -/
theorem splitSums_ck (w : Work) : splitSums w.ck = (w.s1.toNat, w.s2.toNat) := by
  have h1 := w.s1.isLt
  have h2 := w.s2.isLt
  simp only [splitSums, Work.ck, BitVec.toNat_ofNat, Prod.mk.injEq]
  omega

/-- After a checksum of some bytes both halves are residues (R36, R127). -/
theorem halves_lt_of_ck_eq {ps : Params} (hp : ps.Legal) {w : Work} {seed : Word} {bs : List Byte} (hbs : bs ≠ [])
    (h : w.ck = checksum ps seed bs) : w.s1.toNat < ps.adlerMod ∧ w.s2.toNat < ps.adlerMod := by
  have hsplit := splitSums_ck w
  rw [h, checksum_of_ne_nil ps seed hbs, splitSums_joinSums hp.adlerMod_pos hp.adlerMod_le] at hsplit
  obtain ⟨h1, h2⟩ := Prod.mk.inj hsplit
  exact ⟨h1 ▸ Nat.mod_lt _ hp.adlerMod_pos, h2 ▸ Nat.mod_lt _ hp.adlerMod_pos⟩

/-- A fold of no bytes does nothing. -/
theorem fold_zero (p : Nat) (s : State) : fold p 0 s = .go s := rfl

/-! ### The statement about a fold -/

/-- Settles O43: `fold_ok` gives the frame and the value; the halves are residues because some byte was summed. -/
theorem foldAdvances : Obligations.FoldAdvances := by
  intro s p n hp hn
  obtain ⟨t, hgo, hframe, hck, hpos⟩ := fold_ok p n s hn
  have hlt := s.inLen.isLt
  refine ⟨t, hgo, hframe, hck, fun h0 => ?_, fun h0 => ⟨?_, ?_⟩⟩
  · rw [h0, fold_zero] at hgo
    exact (Ran.go.inj hgo).symm
  · rw [hpos, if_neg (by omega), BitVec.toNat_ofNat, Nat.mod_eq_of_lt (by omega)]
  · have hbs : inputBytes s p n ≠ [] := by
      rw [← List.length_pos_iff, inputBytes_length]
      exact h0
    exact halves_lt_of_ck_eq hp hbs hck

end Sys2Proof.Machine
end

section
/-! SUPPORT. Every engine step keeps the invariant of the machine and comes nearer to the command's end, for every hash function
(spec/45_commands.md R136 to R146). -/

namespace Sys2Proof.Machine

/-! ### The invariant after a step -/

/-- The checksum up to the cursor, continued over the bytes after it, is the checksum up to the new cursor (R142 item 2). -/
theorem CursorInv.checksum_advance {s : State} (hc : CursorInv s) (hp : s.params.Legal) (n : Nat) :
    checksum s.params s.w.ck (inputBytes s s.w.q.toNat n) =
      checksum s.params 1#32 (inputBytes s 0 (s.w.q.toNat + n)) := by
  rw [hc.ck_eq, checksum_append hp, inputBytes_add, Nat.zero_add]

/-- A SCAN step took `n` bytes at the cursor: into the pending run, or as a match after which the run starts anew (R102, R103,
R136). -/
structure TookBytes (s u : State) (n : Nat) : Prop where
  frame : EngineFrame s u
  phase_eq : u.phase = .scan
  status_eq : u.status = s.status
  some_byte : 1 ≤ n
  q_eq : u.w.q.toNat = s.w.q.toNat + n
  q_le : s.w.q.toNat + n ≤ s.inLen.toNat
  lit_eq : u.w.litStart = s.w.litStart ∨ u.w.litStart = u.w.q
  ckpos_eq : u.w.ckpos = u.w.q
  ck_eq : u.w.ck = checksum s.params s.w.ck (inputBytes s s.w.q.toNat n)
  table_rising : Rising u.w.table
  table_lt : ∀ c ∈ u.w.table, c.2.toNat < s.w.q.toNat + 1 ∧ c.2.toNat + (s.params.lookahead - 1) < s.inLen.toNat
  out_le : u.out.length ≤ s.argOutCap.toNat

/-- What a SCAN step at a scan position can do: it takes some bytes, or it raises something. -/
theorem scanStepWith_takes_or_raises (hf : HashFn) {s : State} (hi : EngineInv s) (hs : s.phase = .scan)
    (hscan : s.atScanPosition = true) :
    (∃ u n, scanStepWith hf s = .go u ∧ TookBytes s u n) ∨ ∃ e u, scanStepWith hf s = .raised e u := by
  have hc := hi.cursor (.inl hs)
  have hroom : s.w.q.toNat + (s.params.lookahead - 1) < s.inLen.toNat := by
    simpa [State.atScanPosition] using hscan
  have hlt := s.inLen.isLt
  have hframes := scanStepWith_frames hf s
  obtain ⟨t, -, hfinder, -, -, htable, hrise, hend⟩ := scan_cases hf s hi.params_legal hscan hc hi.table_rising
  have tphase : t.phase = .scan := by rw [hfinder]; exact hs
  have tstatus : t.status = s.status := by rw [hfinder]
  have tlit : t.w.litStart = s.w.litStart := by rw [hfinder]
  have tout : t.out.length ≤ s.argOutCap.toNat := by rw [hfinder]; exact hc.out_le
  obtain ⟨u, hgo, hu, hck, -⟩ | ⟨cls, -, hbest, ⟨u, hgo, hu, hq, hle, hck, hout⟩ | ⟨e, u, hraised, -⟩⟩ := hend
  · rw [hgo] at hframes
    exact .inl ⟨u, 1, hgo,
      { frame := hframes
        phase_eq := by rw [hu]; exact tphase
        status_eq := by rw [hu]; exact tstatus
        some_byte := Nat.le_refl 1
        q_eq := by rw [hu]; simp; omega
        q_le := by omega
        lit_eq := by rw [hu]; exact .inl tlit
        ckpos_eq := by rw [hu]
        ck_eq := hck
        table_rising := by rw [hu]; exact hrise
        table_lt := by rw [hu]; exact htable
        out_le := by rw [hu]; exact tout }⟩
  · rw [hgo] at hframes
    exact .inl ⟨u, t.w.best.toNat, hgo,
      { frame := hframes
        phase_eq := by rw [hu]; exact tphase
        status_eq := by rw [hu]; exact tstatus
        some_byte := by omega
        q_eq := by rw [hu]; exact hq
        q_le := hle
        lit_eq := by rw [hu]; exact .inr rfl
        ckpos_eq := by rw [hu]
        ck_eq := hck
        table_rising := by rw [hu]; exact hrise
        table_lt := by rw [hu]; exact htable
        out_le := hout }⟩
  · exact .inr ⟨e, u, hraised⟩

/-- A SCAN step that takes bytes keeps the invariant of the command. -/
theorem TookBytes.cursorInv {s u : State} {n : Nat} (h : TookBytes s u n) (hc : CursorInv s) (hp : s.params.Legal) :
    CursorInv u := by
  have hpar : u.params = s.params := by rw [h.frame]
  have hin : u.inLen = s.inLen := by rw [h.frame]
  have hcap : u.argOutCap = s.argOutCap := by rw [h.frame]
  have hq := h.q_eq
  have hn := h.some_byte
  have hle := h.q_le
  refine ⟨?_, by rw [hin]; omega, h.ckpos_eq, ?_, fun c hmem => ?_, by rw [hcap]; exact h.out_le, ?_, ?_⟩
  · have := hc.lit_le
    obtain hlit | hlit := h.lit_eq <;> rw [hlit]
    omega
  · rw [h.ck_eq, hc.checksum_advance hp, hq, hpar, inputBytes_congr h.frame.input_eq]
  · obtain ⟨h1, h2⟩ := h.table_lt c hmem
    rw [hpar, hin]
    omega
  · simp [h.phase_eq]
  · simp [h.phase_eq]

/-- A step that ends the command keeps the invariant of the machine. -/
theorem EngineInv.of_idle {s t : State} (hi : EngineInv s) (hframe : EngineFrame s t) (htable : Rising t.w.table)
    (hphase : t.phase = .idle) (hstatus : t.status ≠ .busy) : EngineInv t where
  params_legal := by rw [hframe]; exact hi.params_legal
  input_wf := by rw [hframe]; exact hi.input_wf
  table_rising := htable
  hash_bits_le := by rw [hframe]; exact hi.hash_bits_le
  busy_iff := by simp [hphase, hstatus]
  command := by simp [State.afterInit, hphase]
  command_sum := by simp [hphase]
  cursor := by simp [State.afterInit, hphase]

/-- A COMPRESS step that goes on keeps the invariant of the machine. -/
theorem EngineInv.of_afterInit {s t : State} (hi : EngineInv s) (hs : s.phase = .init ∨ s.afterInit)
    (hframe : EngineFrame s t) (htable : Rising t.w.table) (hstatus : t.status = s.status) (ht : t.afterInit)
    (hcursor : CursorInv t) : EngineInv t where
  params_legal := by rw [hframe]; exact hi.params_legal
  input_wf := by rw [hframe]; exact hi.input_wf
  table_rising := htable
  hash_bits_le := by rw [hframe]; exact hi.hash_bits_le
  busy_iff := by
    have hsp : s.phase ≠ .idle := by
      rintro h
      simp [State.afterInit, h] at hs
    have htp : t.phase ≠ .idle := by
      rintro h
      simp [State.afterInit, h] at ht
    rw [hstatus, hi.busy_iff]
    exact iff_of_true hsp htp
  command := fun _ => by rw [hframe]; exact hi.command hs
  command_sum := fun h => by simp [State.afterInit, h] at ht
  cursor := fun _ => hcursor

/-! ### The bound of R145 -/

theorem stepsLeft_of_idle {s : State} (h : s.phase = .idle) : s.stepsLeft = 0 := by simp [State.stepsLeft, h]

theorem stepsLeft_of_scan {s : State} (h : s.phase = .scan) :
    s.stepsLeft = s.inLen.toNat - (s.params.lookahead - 1) - s.w.q.toNat + 4 := by simp [State.stepsLeft, h]

/-- Only an idle engine has no step left. -/
theorem stepsLeft_pos {s : State} (h : s.phase ≠ .idle) : 0 < s.stepsLeft := by
  cases hp : s.phase <;> simp_all [State.stepsLeft]

/-- The bound is at most `IN_LEN + 5` (R145). -/
theorem stepsLeft_le (s : State) : s.stepsLeft ≤ s.inLen.toNat + 5 := by
  cases hp : s.phase <;> simp only [State.stepsLeft, hp] <;> omega

/-- The invariant holds after the step, and fewer steps are left. -/
def Progress (s t : State) : Prop := EngineInv t ∧ t.stepsLeft < s.stepsLeft

/-- A step that ends the command makes progress. -/
theorem Progress.of_idle {s t : State} (hi : EngineInv s) (hs : s.phase ≠ .idle) (hframe : EngineFrame s t)
    (htable : Rising t.w.table) (hphase : t.phase = .idle) (hstatus : t.status ≠ .busy) : Progress s t :=
  ⟨hi.of_idle hframe htable hphase hstatus, by rw [stepsLeft_of_idle hphase]; exact stepsLeft_pos hs⟩

/-- The table is in canonical form where the registers are unspecified. -/
theorem Work.free_table_rising (k : Nat) : Rising (Work.free k).table := Table.ofEntries_rising _

/-- A step that faults makes progress: the command is over. -/
theorem Progress.of_raised {s u : State} {r : Ran} {e : Exc} (hi : EngineInv s) (hs : s.phase ≠ .idle)
    (hframes : r.Frames s) (h : r = .raised e u) : Progress s r.settle := by
  have hframe := hframes.settle
  rw [h] at hframe ⊢
  exact Progress.of_idle hi hs hframe (Work.free_table_rising _) rfl (by simp [Ran.settle])

/-- INIT seeds the accumulator with 1 (R135). -/
theorem initCommand_ck (s : State) : (initCommand s).w.ck = 1#32 := by simp [Work.ck]

/-- INIT makes progress: a fault, the resource failure, or SCAN at position 0. -/
theorem initStep_progress {s : State} (hi : EngineInv s) (hs : s.phase = .init) (draw : Bool) :
    Progress s (initStep draw s).settle := by
  have hne : s.phase ≠ .idle := by simp [hs]
  have hframes := initStep_frames draw s
  obtain ⟨e, u, h, -⟩ | ⟨h, -⟩ | ⟨h, hroom, -⟩ := init_cases draw s
  · exact Progress.of_raised hi hne hframes h
  · rw [h] at hframes ⊢
    exact Progress.of_idle hi hne hframes (Work.free_table_rising _) rfl (by simp [Ran.settle])
  · rw [h] at hframes ⊢
    refine ⟨hi.of_afterInit (.inl hs) hframes List.Pairwise.nil rfl (.inl rfl) ?_, ?_⟩
    · refine ⟨Nat.le_refl _, Nat.zero_le _, rfl, by simp [Ran.settle, initCommand_ck], by simp [Ran.settle], ?_, by simp [Ran.settle],
        by simp [Ran.settle]⟩
      simpa [Ran.settle, headerBytes_length] using hroom
    · simp [State.stepsLeft, hs, Ran.settle]

/-- SCAN makes progress: the cursor moves, or the step faults, or FLUSH is next. -/
theorem scanStepWith_progress (hf : HashFn) {s : State} (hi : EngineInv s) (hs : s.phase = .scan) :
    Progress s (scanStepWith hf s).settle := by
  have hne : s.phase ≠ .idle := by simp [hs]
  have hafter : s.afterInit := .inl hs
  have hc := hi.cursor hafter
  have hframes := scanStepWith_frames hf s
  by_cases hscan : s.atScanPosition = true
  · have hroom : s.w.q.toNat + (s.params.lookahead - 1) < s.inLen.toNat := by
      simpa [State.atScanPosition] using hscan
    obtain ⟨u, n, hgo, htook⟩ | ⟨e, u, hraised⟩ := scanStepWith_takes_or_raises hf hi hs hscan
    · rw [hgo]
      refine ⟨hi.of_afterInit (.inr hafter) htook.frame htook.table_rising htook.status_eq (.inl htook.phase_eq)
        (htook.cursorInv hc hi.params_legal), ?_⟩
      have hin : u.inLen = s.inLen := by rw [htook.frame]
      have hpar : u.params = s.params := by rw [htook.frame]
      have hq := htook.q_eq
      have hn := htook.some_byte
      rw [Ran.settle, stepsLeft_of_scan hs, stepsLeft_of_scan htook.phase_eq, hin, hpar]
      omega
    · exact Progress.of_raised hi hne hframes hraised
  · have htail : s.inLen.toNat ≤ s.w.q.toNat + (s.params.lookahead - 1) := by
      simpa [State.atScanPosition] using hscan
    rw [scan_ends hf s hscan] at hframes ⊢
    refine ⟨hi.of_afterInit (.inr hafter) hframes hi.table_rising rfl (.inr (.inl rfl)) ?_, ?_⟩
    · exact ⟨hc.lit_le, hc.q_le, hc.ckpos_eq, hc.ck_eq, hc.table_lt, hc.out_le, fun _ => htail, by simp [Ran.settle]⟩
    · rw [stepsLeft_of_scan hs]
      simp [State.stepsLeft, Ran.settle]

/-- FLUSH makes progress: the rest of the input is taken and TRAILER is next, or the step faults. -/
theorem flushStep_progress {s : State} (hi : EngineInv s) (hs : s.phase = .flush) :
    Progress s (flushStep s).settle := by
  have hafter : s.afterInit := .inr (.inl hs)
  have hc := hi.cursor hafter
  have hframes := flushStep_frames s
  obtain ⟨u, hgo, hu, hck, hout⟩ | ⟨e, u, hraised, -⟩ := flush_cases s hc
  · rw [hgo] at hframes ⊢
    have hq : u.w.q = s.inLen := by rw [hu]
    have hlit : u.w.litStart = s.inLen := by rw [hu]
    have hckpos : u.w.ckpos = s.inLen := by rw [hu]
    have htable : u.w.table = s.w.table := by rw [hu]
    have hphase : u.phase = .trailer := by rw [hu]
    have hin : u.inLen = s.inLen := by rw [hu]
    have hpar : u.params = s.params := by rw [hu]
    have hcap : u.argOutCap = s.argOutCap := by rw [hu]
    have hinput : u.input = s.input := by rw [hu]
    have hqle := hc.q_le
    refine ⟨hi.of_afterInit (.inr hafter) hframes (by rw [Ran.settle, htable]; exact hi.table_rising)
      (by rw [Ran.settle, hu]) (.inr (.inr (.inl hphase))) ⟨?_, ?_, ?_, ?_, ?_, ?_, ?_, ?_⟩, ?_⟩ <;> rw [Ran.settle]
    · rw [hq, hlit]
    · rw [hq, hin]
    · rw [hq, hckpos]
    · rw [hck, hc.checksum_advance hi.params_legal, hq, hpar, inputBytes_congr hinput, Nat.add_sub_cancel' hqle]
    · intro c hmem
      rw [htable] at hmem
      obtain ⟨h1, h2⟩ := hc.table_lt c hmem
      rw [hq, hpar, hin]
      omega
    · rw [hcap]
      exact hout
    · simp [hphase]
    · exact fun _ => ⟨hq.trans hin.symm, hlit.trans hin.symm⟩
    · simp [State.stepsLeft, hphase, hs]
  · exact Progress.of_raised hi (by simp [hs]) hframes hraised

/-- TRAILER makes progress: END is written and DONE is next, or the step faults. -/
theorem trailerStep_progress {s : State} (hi : EngineInv s) (hs : s.phase = .trailer) :
    Progress s (trailerStep s).settle := by
  have hafter : s.afterInit := .inr (.inr (.inl hs))
  have hc := hi.cursor hafter
  have hframes := trailerStep_frames s
  obtain ⟨hgo, hroom⟩ | ⟨e, u, hraised, -⟩ := trailer_cases s hc.out_le
  · rw [hgo] at hframes ⊢
    refine ⟨hi.of_afterInit (.inr hafter) hframes hi.table_rising rfl (.inr (.inr (.inr rfl))) ?_, ?_⟩
    · refine ⟨hc.lit_le, hc.q_le, hc.ckpos_eq, hc.ck_eq, hc.table_lt, ?_, by simp [Ran.settle],
        fun _ => hc.at_end (.inl hs)⟩
      simpa [Ran.settle, encode] using hroom
    · simp [State.stepsLeft, hs, Ran.settle]
  · exact Progress.of_raised hi (by simp [hs]) hframes hraised

/-- DONE ends the command. -/
theorem doneStep_progress {s : State} (hi : EngineInv s) (hs : s.phase = .done) : Progress s (doneStep s) :=
  Progress.of_idle hi (by simp [hs]) rfl (Work.free_table_rising _) rfl (by simp)

/-- SUM ends the command. -/
theorem sumStepCommand_progress {s : State} (hi : EngineInv s) (hs : s.phase = .sum) :
    Progress s (sumStepCommand s).settle := by
  have hframes := sumStepCommand_frames s
  rw [sum_ok] at hframes ⊢
  exact Progress.of_idle hi (by simp [hs]) hframes (Work.free_table_rising _) rfl (by simp [Ran.settle])

/-- Every engine step of a command keeps the invariant and leaves fewer steps. -/
theorem engineStepWith_progress (hf : HashFn) {s : State} (hi : EngineInv s) (hs : s.phase ≠ .idle) :
    Progress s (engineStepWith hf s) := by
  cases hp : s.phase with
  | idle => exact absurd hp hs
  | init => rw [engineStepWith_of_init hf hp]; exact initStep_progress hi hp _
  | scan => rw [engineStepWith_of_scan hf hp]; exact scanStepWith_progress hf hi hp
  | flush => rw [engineStepWith_of_flush hf hp]; exact flushStep_progress hi hp
  | trailer => rw [engineStepWith_of_trailer hf hp]; exact trailerStep_progress hi hp
  | done => rw [engineStepWith_of_done hf hp]; exact doneStep_progress hi hp
  | sum => rw [engineStepWith_of_sum hf hp]; exact sumStepCommand_progress hi hp

/-- Every engine step keeps the invariant of the machine, for every hash function. -/
theorem engineStepWith_keeps_engineInv (hf : HashFn) {s : State} (hi : EngineInv s) : EngineInv (engineStepWith hf s) := by
  by_cases hs : s.phase = .idle
  · rw [engineStepWith_of_idle hf hs]
    exact hi
  · exact (engineStepWith_progress hf hi hs).1

/-- So many engine steps as are left, or more, end the command. -/
theorem engineRunWith_idle (hf : HashFn) {n : Nat} {s : State} (hi : EngineInv s) (hn : s.stepsLeft ≤ n) :
    EngineInv (engineRunWith hf n s) ∧ (engineRunWith hf n s).phase = .idle := by
  induction n generalizing s with
  | zero =>
    refine ⟨hi, ?_⟩
    by_contra hs
    have := stepsLeft_pos (s := s) hs
    omega
  | succ n ih =>
    refine ih (engineStepWith_keeps_engineInv hf hi) ?_
    by_cases hs : s.phase = .idle
    · rw [engineStepWith_of_idle hf hs, stepsLeft_of_idle hs]
      exact Nat.zero_le n
    · have := (engineStepWith_progress hf hi hs).2
      omega

/-! ### The statements about the command's steps -/

/-- Settles O57: `stepsLeft` falls with every engine step until the engine is idle, and an idle engine is not busy. -/
theorem commandsComplete : Obligations.CommandsComplete := by
  refine ⟨stepsLeft_le, fun s ha hp => ?_, fun s hi => ?_⟩
  · rw [step_of_engine (nextTurn_of_no_agenda ha hp), dropTurn_of_no_agenda ha]
  · obtain ⟨hinv, hidle⟩ := engineRunWith_idle hashCascade hi (Nat.le_refl _)
    exact ⟨hidle, fun hbusy => hinv.busy_iff.1 hbusy hidle⟩

/-- Settles O45: `scan_cases` at the finder's result, whose match branch the hypothesis excludes. -/
theorem scanTakesLiteral : Obligations.ScanTakesLiteral := by
  intro hf s t hi hs hscan hfind hnone
  have hc := hi.cursor (.inl hs)
  have hlt := s.inLen.isLt
  have hroom : s.w.q.toNat + (s.params.lookahead - 1) < s.inLen.toNat := by
    simpa [State.atScanPosition] using hscan
  obtain ⟨t', hfind', hfinder, -, -, -, -, hend⟩ := scan_cases hf s hi.params_legal hscan hc hi.table_rising
  obtain rfl : t' = t := Ran.go.inj (hfind'.symm.trans hfind)
  obtain ⟨u, hgo, hu, hck, -⟩ | ⟨cls, hroute, hbest, -⟩ := hend
  · refine ⟨u, by rw [engineStepWith_of_scan hf hs, hgo]; rfl, ?_, by rw [hu]; simp; omega, by rw [hu], ?_⟩
    · unfold FinderFrame at hfinder
      rw [hu, hfinder]
    · rw [hck, hc.checksum_advance hi.params_legal]
  · obtain h | h := hnone
    · omega
    · simp [hroute] at h

end Sys2Proof.Machine
end

section
/-! The statement about placing input: what a write of bytes in a row leaves is a law of the cells (spec/20_memory.md R42). -/

namespace Sys2Proof.Machine

/-- Input placed when no command is in progress, inside the input space (R169). -/
theorem placeInput_of_fits {s : State} {p : Word} {bs : List Byte} (hb : s.status ≠ .busy)
    (hfit : p.toNat + bs.length ≤ s.params.lenMax) :
    placeInput p bs s = .next { s with input := s.input.writeAll p.toNat bs, reply := .nothing } := by
  rw [placeInput, if_neg hb, if_pos hfit]

/-- No input is placed during a command (R171). -/
theorem placeInput_of_busy {s : State} (p : Word) (bs : List Byte) (hb : s.status = .busy) :
    placeInput p bs s = .refused .inputWriteWhileBusy := if_pos hb

/-- No input is placed outside the input space (R42). -/
theorem placeInput_of_outside {s : State} {p : Word} {bs : List Byte} (hb : s.status ≠ .busy)
    (hout : s.params.lenMax < p.toNat + bs.length) : placeInput p bs s = .refused .positionOutsideInputSpace := by
  rw [placeInput, if_neg hb, if_neg (by omega)]

/-- Settles O17: a write of bytes in a row keeps the canonical form and changes what is read at its positions alone. -/
theorem hostPlacesInput : Obligations.HostPlacesInput := by
  refine fun s p bs => ⟨fun hwf hb hfit => ?_, placeInput_of_busy p bs, placeInput_of_outside⟩
  exact ⟨_, placeInput_of_fits hb hfit, rfl, s.input.writeAll_wf bs p.toNat hwf hfit,
    fun a => s.input.read_writeAll bs p.toNat a hwf.1⟩

end Sys2Proof.Machine
end

section
/-! SUPPORT. What a part of an engine step may do to the output stream, whatever the state: append bytes, up to the capacity
(spec/20_memory.md R43, spec/60_exceptions.md R151). -/

namespace Sys2Proof.Machine

/-- The output of `t` is that of `s` with bytes appended, and within the capacity if that of `s` was. -/
structure OutGrows (s t : State) : Prop where
  appended : s.out <+: t.out
  cap_eq : t.argOutCap = s.argOutCap
  within_cap : s.out.length ≤ s.argOutCap.toNat → t.out.length ≤ t.argOutCap.toNat

/-- What does not touch the output stream. -/
theorem OutGrows.of_out_eq {s t : State} (hout : t.out = s.out) (hcap : t.argOutCap = s.argOutCap) : OutGrows s t :=
  ⟨by rw [hout], hcap, by rw [hout, hcap]; exact id⟩

theorem OutGrows.trans {s t u : State} (h1 : OutGrows s t) (h2 : OutGrows t u) : OutGrows s u :=
  ⟨h1.appended.trans h2.appended, h2.cap_eq.trans h1.cap_eq, fun h => h2.within_cap (h1.within_cap h)⟩

/-- A part of a step appends at most, however it ends. -/
def Ran.Grows (s : State) : Ran → Prop
  | .go t => OutGrows s t
  | .raised _ t => OutGrows s t

/-- A part of a step that starts from a state with the output of another, or more. -/
theorem Ran.Grows.after {r : Ran} {s t : State} (hr : r.Grows t) (hst : OutGrows s t) : r.Grows s := by
  cases r with
  | go u => exact OutGrows.trans hst hr
  | raised e u => exact OutGrows.trans hst hr

/-- Two parts of a step, one after the other. -/
theorem Ran.Grows.andThen {r : Ran} {f : State → Ran} {s : State} (hr : r.Grows s) (hf : ∀ t, (f t).Grows t) :
    (r.andThen f).Grows s := by
  cases r with
  | go t => exact (hf t).after hr
  | raised e t => exact hr

/-- The last part of a step, which raises and appends nothing. -/
theorem Ran.Grows.andThen_go {r : Ran} {f : State → State} {s : State} (hr : r.Grows s) (hf : ∀ t, OutGrows t (f t)) :
    (r.andThen fun t => .go (f t)).Grows s := hr.andThen hf

/-- Taking a fault leaves what was appended (R156). -/
theorem Ran.Grows.settle {r : Ran} {s : State} (hr : r.Grows s) : OutGrows s r.settle := by
  cases r with
  | go t => exact hr
  | raised e t => exact OutGrows.trans hr (.of_out_eq rfl rfl)

/-! ### Appending -/

/-- One byte is appended, unless the capacity is reached (R151). -/
theorem emitByte_grows (b : Byte) (s : State) : (emitByte b s).Grows s := by
  unfold emitByte
  split
  case isTrue => exact OutGrows.of_out_eq rfl rfl
  case isFalse hroom =>
    refine ⟨⟨[b], rfl⟩, rfl, fun _ => ?_⟩
    simp only [List.length_append, List.length_singleton]
    omega

theorem emitAll_grows (bs : List Byte) (s : State) : (emitAll bs s).Grows s := by
  induction bs generalizing s with
  | nil => exact OutGrows.of_out_eq rfl rfl
  | cons b bs ih => exact (emitByte_grows b s).andThen ih

theorem emitBytes_grows (p n : Nat) (s : State) : (emitBytes p n s).Grows s := by
  induction n generalizing p s with
  | zero => exact OutGrows.of_out_eq rfl rfl
  | succ n ih =>
    unfold emitBytes
    split
    · exact OutGrows.of_out_eq rfl rfl
    · exact (emitByte_grows _ s).andThen (ih (p + 1))

theorem emitLiteralToken_grows (p n : Nat) (s : State) : (emitLiteralToken p n s).Grows s := by
  have hopcode : ∀ w v, ((emit w v s).andThen (emitBytes p n)).Grows s := fun w v =>
    (emitAll_grows (beBytes w v) s).andThen (emitBytes_grows p n)
  unfold emitLiteralToken
  split
  · exact hopcode _ _
  split
  · exact hopcode _ _
  · exact hopcode _ _

theorem emitBlocks_grows (maxRun blocks p n : Nat) (s : State) : (emitBlocks maxRun blocks p n s).Grows s := by
  induction blocks generalizing p n s with
  | zero =>
    unfold emitBlocks
    split
    · exact OutGrows.of_out_eq rfl rfl
    · exact emitLiteralToken_grows p n s
  | succ blocks ih => exact (emitLiteralToken_grows p maxRun s).andThen (ih (p + maxRun) (n - maxRun))

theorem emitLiterals_grows (p n : Nat) (s : State) : (emitLiterals p n s).Grows s := emitBlocks_grows _ _ p n s

theorem emitMatch_grows (cls : MatchClass) (len dist : Nat) (s : State) : (emitMatch cls len dist s).Grows s := by
  rw [emitMatch_eq s.params]
  exact emitAll_grows _ s

/-! ### The parts that write registers and the table alone -/

theorem fold_grows (p n : Nat) (s : State) : (fold p n s).Grows s := by
  unfold fold
  split
  · exact OutGrows.of_out_eq rfl rfl
  · split <;> exact OutGrows.of_out_eq rfl rfl

theorem foldToCursor_grows (s : State) : (foldToCursor s).Grows s := fold_grows _ _ s

theorem computeHashes_grows (hf : HashFn) (s : State) : (computeHashes hf s).Grows s := by
  unfold computeHashes
  split <;> exact OutGrows.of_out_eq rfl rfl

theorem keepBest_grows (m : LenWord) (d : Word) (s : State) : OutGrows s (keepBest m d s) := by
  unfold keepBest
  split <;> exact OutGrows.of_out_eq rfl rfl

theorem probe_grows (i : Word) (s : State) : (probe i s).Grows s := by
  unfold probe
  split
  · exact OutGrows.of_out_eq rfl rfl
  · split
    · exact OutGrows.of_out_eq rfl rfl
    · exact OutGrows.trans (t := { s with w := { s.w with m := BitVec.ofNat 17 _ } }) (.of_out_eq rfl rfl) (keepBest_grows _ _ _)

theorem probes_grows (s : State) : (probes s).Grows s :=
  (((probe_grows _ s).andThen (probe_grows _)).andThen (probe_grows _)).andThen (probe_grows _)

theorem matchFinder_grows (hf : HashFn) (s : State) : (matchFinder hf s).Grows s := by
  have hbegin : OutGrows s (beginScan s) := .of_out_eq rfl rfl
  have hprobed : ((computeHashes hf (beginScan s)).andThen probes).Grows s :=
    ((computeHashes_grows hf _).after hbegin).andThen probes_grows
  exact hprobed.andThen_go fun _ => .of_out_eq rfl rfl

/-! ### The steps of the commands -/

theorem takeMatch_grows (cls : MatchClass) (s : State) : (takeMatch cls s).Grows s := by
  unfold takeMatch
  refine Ran.Grows.andThen ?_ fun t => ?_
  · exact (emitLiterals_grows _ _ _).after (.of_out_eq rfl rfl)
  · exact (emitMatch_grows cls _ _ (advanceMatch t)).after (.of_out_eq rfl rfl)

theorem select_grows (s : State) : (select s).Grows s := by
  unfold select
  split
  · exact OutGrows.of_out_eq rfl rfl
  split
  · exact takeMatch_grows _ s
  · exact OutGrows.of_out_eq rfl rfl

theorem scanStepWith_grows (hf : HashFn) (s : State) : (scanStepWith hf s).Grows s := by
  unfold scanStepWith
  split
  · exact ((matchFinder_grows hf s).andThen select_grows).andThen foldToCursor_grows
  · exact OutGrows.of_out_eq rfl rfl

theorem flushStep_grows (s : State) : (flushStep s).Grows s := by
  have hcursor : OutGrows s { s with w := { s.w with q := s.inLen } } := .of_out_eq rfl rfl
  have hfolded := (foldToCursor_grows _).after hcursor
  exact (hfolded.andThen fun t => emitLiterals_grows _ _ t).andThen_go fun _ => .of_out_eq rfl rfl

theorem trailerStep_grows (s : State) : (trailerStep s).Grows s := by
  rw [trailerStep, emitEnd_eq]
  exact (emitAll_grows _ s).andThen_go fun _ => .of_out_eq rfl rfl

/-- Every engine step but INIT appends to the output at most, for every hash function (R43). -/
theorem engineStepWith_grows (hf : HashFn) {s : State} (hs : s.phase ≠ .init) : OutGrows s (engineStepWith hf s) := by
  cases hp : s.phase with
  | idle => rw [engineStepWith_of_idle hf hp]; exact OutGrows.of_out_eq rfl rfl
  | init => exact absurd hp hs
  | scan => rw [engineStepWith_of_scan hf hp]; exact (scanStepWith_grows hf s).settle
  | flush => rw [engineStepWith_of_flush hf hp]; exact (flushStep_grows s).settle
  | trailer => rw [engineStepWith_of_trailer hf hp]; exact (trailerStep_grows s).settle
  | done => rw [engineStepWith_of_done hf hp]; exact OutGrows.of_out_eq rfl rfl
  | sum => rw [engineStepWith_of_sum hf hp, sum_ok]; exact OutGrows.of_out_eq rfl rfl

/-- INIT starts the output anew and keeps it within the capacity, or leaves it (R135, R155). -/
theorem initStep_within_cap (draw : Bool) {s : State} (h : s.out.length ≤ s.argOutCap.toNat) :
    (initStep draw s).settle.out.length ≤ s.argOutCap.toNat := by
  obtain ⟨e, u, hraised, ⟨-, hu, -⟩ | ⟨-, hu, -⟩⟩ | ⟨hfail, -⟩ | ⟨hgo, hroom, -⟩ := init_cases draw s
  · rw [hraised, hu]
    exact h
  · rw [hraised, hu]
    simp [Ran.settle]
  · rw [hfail]
    exact h
  · rw [hgo]
    simpa [Ran.settle, headerBytes_length] using hroom

/-- Settles O27: after INIT a step appends at most, and INIT itself starts anew within the capacity. -/
theorem outputAppendOnly : Obligations.OutputAppendOnly := by
  intro s
  refine ⟨fun hs => ?_, fun hcap => ?_⟩
  · obtain ⟨added, hadded⟩ := (engineStepWith_grows hashCascade hs).appended
    exact ⟨added, hadded.symm⟩
  · by_cases hs : s.phase = .init
    · rw [engineStep, engineStepWith_of_init _ hs]
      exact initStep_within_cap _ hcap
    · have hgrows : OutGrows s (engineStep s) := engineStepWith_grows hashCascade hs
      exact hgrows.cap_eq ▸ hgrows.within_cap hcap

end Sys2Proof.Machine
end

section
/-! SUPPORT. The decoder, said once: what each first byte begins, and that nothing else decodes (spec/30_encoding.md R61 to R72,
R77). -/

namespace Sys2Proof

/-- The bytes `b0 :: r` begin with a token and `rest` follows it: one constructor per row of R72, with the range of its first
byte and its operands by the fields of its format (R61 to R70). -/
inductive TokenAt (ps : Params) (b0 : Byte) : List Byte → Instr → List Byte → Prop
  | slit (lits rest : List Byte) (hlo : 0x20 ≤ b0.toNat) (hhi : b0.toNat < 0x40) (hn : lits.length = b0.toNat % 32 + 1) :
      TokenAt ps b0 (lits ++ rest) (.slit lits) rest
  | mlit (b1 : Byte) (lits rest : List Byte) (hlo : 0x08 ≤ b0.toNat) (hhi : b0.toNat < 0x10)
      (hn : lits.length = b0.toNat % 8 * 256 + b1.toNat + 1) : TokenAt ps b0 (b1 :: (lits ++ rest)) (.mlit lits) rest
  | llit (b1 b2 : Byte) (lits rest : List Byte) (h0 : b0.toNat = 0x07) (hn : lits.length = beNat [b1, b2] + 1) :
      TokenAt ps b0 (b1 :: b2 :: (lits ++ rest)) (.llit lits) rest
  | smat (b1 : Byte) (rest : List Byte) (hlo : 0x80 ≤ b0.toNat) :
      TokenAt ps b0 (b1 :: rest) (.smat (b0.toNat % 128 + 1) (b1.toNat + 1)) rest
  | mmat (b1 b2 : Byte) (rest : List Byte) (hlo : 0x40 ≤ b0.toNat) (hhi : b0.toNat < 0x80) :
      TokenAt ps b0 (b1 :: b2 :: rest) (.mmat (b2.toNat + 1) (b0.toNat % 64 * 256 + b1.toNat + 1)) rest
  | lmata (b1 b2 b3 : Byte) (rest : List Byte) (hlo : 0x18 ≤ b0.toNat) (hhi : b0.toNat < 0x20) :
      TokenAt ps b0 (b1 :: b2 :: b3 :: rest) (.lmata (b3.toNat + 1) (longDist b0 b1 b2)) rest
  | lmatb (b1 b2 b3 b4 : Byte) (rest : List Byte) (hlo : 0x10 ≤ b0.toNat) (hhi : b0.toNat < 0x18) :
      TokenAt ps b0 (b1 :: b2 :: b3 :: b4 :: rest) (.lmatb (beNat [b3, b4] + 1) (longDist b0 b1 b2)) rest
  | xmat1 (b1 b2 b3 b4 : Byte) (rest : List Byte) (h0 : b0.toNat = 0x06) :
      TokenAt ps b0 (b1 :: b2 :: b3 :: b4 :: rest) (.xmat1 (b4.toNat + 1) (beNat [b1, b2, b3] + 1)) rest
  | xmat2 (b1 b2 b3 b4 b5 : Byte) (rest : List Byte) (h0 : b0.toNat = 0x04) (hend : b0 ≠ ps.end0) :
      TokenAt ps b0 (b1 :: b2 :: b3 :: b4 :: b5 :: rest) (.xmat2 (beNat [b4, b5] + 1) (beNat [b1, b2, b3] + 1)) rest
  | endFrame (c0 c1 c2 c3 : Byte) (rest : List Byte) (hhi : b0.toNat < 6) (hend : b0 = ps.end0) :
      TokenAt ps b0 (ps.end1 :: c0 :: c1 :: c2 :: c3 :: rest) (.endFrame (BitVec.ofNat 32 (beNat [c0, c1, c2, c3]))) rest

/-- What the decoder can answer to the bytes `b0 :: r`: the token they begin with, that they end inside it, or that they begin
with a reserved first byte (R77). -/
inductive Answer (ps : Params) (b0 : Byte) (r : List Byte) : Decoded → Prop
  | token {i : Instr} {rest : List Byte} (h : TokenAt ps b0 r i rest) : Answer ps b0 r (.ok (i, rest))
  | truncated : Answer ps b0 r (.error .truncated)
  | reserved (h : Machine.ReservedBytes ps b0 r) : Answer ps b0 r (.error (.reserved b0))

variable {ps : Params} {b0 : Byte} {r : List Byte}

/-- A run is taken whole, or the bytes end inside it. -/
theorem takeRun_answer {mk : List Byte → Instr} {n : Nat} {r' : List Byte}
    (h : ∀ lits rest, r' = lits ++ rest → lits.length = n → TokenAt ps b0 r (mk lits) rest) :
    Answer ps b0 r (takeRun mk n r') := by
  unfold takeRun
  split
  · exact .truncated
  · exact .token (h _ _ (List.take_append_drop n r').symm (by rw [List.length_take]; omega))

theorem decodeSlit_answer (hlo : 0x20 ≤ b0.toNat) (hhi : b0.toNat < 0x40) : Answer ps b0 r (decodeSlit b0 r) :=
  takeRun_answer fun lits rest hr hn => hr ▸ .slit lits rest hlo hhi hn

theorem decodeMlit_answer (hlo : 0x08 ≤ b0.toNat) (hhi : b0.toNat < 0x10) : Answer ps b0 r (decodeMlit b0 r) := by
  unfold decodeMlit
  split
  · exact takeRun_answer fun lits rest hr hn => hr ▸ .mlit _ lits rest hlo hhi hn
  · exact .truncated

theorem decodeLlit_answer (h0 : b0.toNat = 0x07) : Answer ps b0 r (decodeLlit r) := by
  unfold decodeLlit
  split
  · exact takeRun_answer fun lits rest hr hn => hr ▸ .llit _ _ lits rest h0 hn
  · exact .truncated

theorem decodeSmat_answer (hlo : 0x80 ≤ b0.toNat) : Answer ps b0 r (decodeSmat b0 r) := by
  unfold decodeSmat
  split
  · exact .token (.smat _ _ hlo)
  · exact .truncated

theorem decodeMmat_answer (hlo : 0x40 ≤ b0.toNat) (hhi : b0.toNat < 0x80) : Answer ps b0 r (decodeMmat b0 r) := by
  unfold decodeMmat
  split
  · exact .token (.mmat _ _ _ hlo hhi)
  · exact .truncated

theorem decodeLmata_answer (hlo : 0x18 ≤ b0.toNat) (hhi : b0.toNat < 0x20) : Answer ps b0 r (decodeLmata b0 r) := by
  unfold decodeLmata
  split
  · exact .token (.lmata _ _ _ _ hlo hhi)
  · exact .truncated

theorem decodeLmatb_answer (hlo : 0x10 ≤ b0.toNat) (hhi : b0.toNat < 0x18) : Answer ps b0 r (decodeLmatb b0 r) := by
  unfold decodeLmatb
  split
  · exact .token (.lmatb _ _ _ _ _ hlo hhi)
  · exact .truncated

theorem decodeXmat1_answer (h0 : b0.toNat = 0x06) : Answer ps b0 r (decodeXmat1 r) := by
  unfold decodeXmat1
  split
  · exact .token (.xmat1 _ _ _ _ _ h0)
  · exact .truncated

theorem decodeXmat2_answer (h0 : b0.toNat = 0x04) (hend : b0 ≠ ps.end0) : Answer ps b0 r (decodeXmat2 r) := by
  unfold decodeXmat2
  split
  · exact .token (.xmat2 _ _ _ _ _ _ h0 hend)
  · exact .truncated

/-- Where `END1` does not follow `END0`, the bytes are reserved. -/
theorem decodeEnd_answer (hhi : b0.toNat < 6) (hend : b0 = ps.end0) : Answer ps b0 r (decodeEnd ps b0 r) := by
  unfold decodeEnd
  split
  · exact .truncated
  split
  case isTrue h1 =>
    subst h1
    split
    · exact .token (.endFrame _ _ _ _ _ hhi hend)
    · exact .truncated
  case isFalse h1 => exact .reserved (.inr ⟨hend, _, _, rfl, h1⟩)

/-- The decoder's answers, along the tests of R72. -/
theorem decode_answer (ps : Params) (b0 : Byte) (r : List Byte) : Answer ps b0 r (decode ps (b0 :: r)) := by
  simp only [decode]
  split
  case isTrue h => exact decodeSmat_answer h
  split
  case isTrue h => exact decodeMmat_answer h (by omega)
  split
  case isTrue h => exact decodeSlit_answer h (by omega)
  split
  case isTrue h => exact decodeLmata_answer h (by omega)
  split
  case isTrue h => exact decodeLmatb_answer h (by omega)
  split
  case isTrue h => exact decodeMlit_answer h (by omega)
  split
  case isTrue h => exact decodeLlit_answer h
  split
  case isTrue h => exact decodeXmat1_answer h
  split
  case isTrue hend => exact decodeEnd_answer (by omega) hend
  split
  case isTrue hend h => exact decodeXmat2_answer h hend
  case isFalse hend h => exact .reserved (.inl ⟨by omega, fun h4 => h (by rw [h4]; rfl), hend⟩)

/-- A token the bytes begin with is what they decode to. -/
theorem TokenAt.decode_eq {rest : List Byte} {i : Instr} (h : TokenAt ps b0 r i rest) :
    decode ps (b0 :: r) = .ok (i, rest) := by
  cases h with
  | slit lits _ hlo hhi hn =>
    simp (disch := omega) only [decode, if_pos, if_neg]
    rw [decodeSlit, ← hn, takeRun_append]
  | mlit b1 lits _ hlo hhi hn =>
    simp (disch := omega) only [decode, if_pos, if_neg]
    rw [decodeMlit, ← hn, takeRun_append]
  | llit b1 b2 lits _ h0 hn =>
    simp (disch := omega) only [decode, if_pos, if_neg]
    rw [decodeLlit, ← hn, takeRun_append]
  | xmat2 b1 b2 b3 b4 b5 _ h0 hend =>
    simp (disch := omega) only [decode, if_pos, if_neg, hend]
    rfl
  | endFrame c0 c1 c2 c3 _ hhi hend =>
    simp (disch := omega) only [decode, if_neg]
    rw [if_pos hend, decodeEnd, if_pos rfl]
  | _ =>
    simp (disch := omega) only [decode, if_pos, if_neg]
    rfl

/-- What decodes begins with the token it decodes to. -/
theorem tokenAt_of_decode_eq {rest : List Byte} {i : Instr} (h : decode ps (b0 :: r) = .ok (i, rest)) :
    TokenAt ps b0 r i rest := by
  have ha := decode_answer ps b0 r
  rw [h] at ha
  cases ha with
  | token ht => exact ht

/-- Bytes that do not decode by the name of a reserved byte are reserved, by that byte (R77). -/
theorem reserved_of_decode_eq {e : Byte} (h : decode ps (b0 :: r) = .error (.reserved e)) :
    e = b0 ∧ Machine.ReservedBytes ps b0 r := by
  have ha := decode_answer ps b0 r
  rw [h] at ha
  cases ha with
  | reserved hr => exact ⟨rfl, hr⟩

end Sys2Proof
end

section
/-! The statements that tie the decoder to the encoder and to the sizes of R72 (spec/30_encoding.md R59 to R74). -/

namespace Sys2Proof

theorem beNat_one (a : Byte) : beNat [a] = a.toNat := by simp [beNat_cons]

theorem beNat_two_lt (a b : Byte) : beNat [a, b] < 65536 := by simpa using beNat_lt [a, b]

theorem beNat_three_lt (a b c : Byte) : beNat [a, b, c] < 16777216 := by simpa using beNat_lt [a, b, c]

/-- A count in a field that holds one less (R60). -/
theorem beNat_field {k n : Nat} (h : 1 ≤ n ∧ n ≤ 256 ^ k) : beNat (beBytes k (n - 1)) + 1 = n := by
  rw [beNat_beBytes, Nat.mod_eq_of_lt (by omega), Nat.sub_add_cancel h.1]

theorem oneByteField_exists {n : Nat} (h : 1 ≤ n ∧ n ≤ 256) : ∃ a : Byte, beBytes 1 (n - 1) = [a] ∧ a.toNat + 1 = n := by
  obtain ⟨a, hbytes, ha⟩ := beBytes_one_exists (n - 1) (by omega)
  exact ⟨a, hbytes, by omega⟩

theorem twoByteField_exists {n : Nat} (h : 1 ≤ n ∧ n ≤ 65536) :
    ∃ a b : Byte, beBytes 2 (n - 1) = [a, b] ∧ beNat [a, b] + 1 = n := ⟨_, _, rfl, beNat_field (k := 2) h⟩

theorem threeByteField_exists {n : Nat} (h : 1 ≤ n ∧ n ≤ 16777216) :
    ∃ a b c : Byte, beBytes 3 (n - 1) = [a, b, c] ∧ beNat [a, b, c] + 1 = n := ⟨_, _, _, rfl, beNat_field (k := 3) h⟩

/-- A 14-bit distance field beside the fixed bits `01` (R65). -/
theorem mediumDist_exists {dist : Nat} (h : 1 ≤ dist ∧ dist ≤ 16384) :
    ∃ b0 b1 : Byte, beBytes 2 (0x4000 + (dist - 1)) = [b0, b1] ∧ b0.toNat / 64 = 1 ∧
      b0.toNat % 64 * 256 + b1.toNat + 1 = dist := by
  obtain ⟨b0, b1, hbytes, hv⟩ := beBytes_two_exists (0x4000 + (dist - 1)) (by omega)
  obtain ⟨hfixed, hfield⟩ := hi_field b0.toNat b1.toNat (dist - 1) 64 1 256 hv b1.isLt (by omega)
  exact ⟨b0, b1, hbytes, hfixed, by rw [hfield, Nat.sub_add_cancel h.1]⟩

/-- A 19-bit distance field beside five fixed bits `k` (R66, R67). -/
theorem longDist_exists {k base dist : Nat} (hbase : base = 8 * k * 65536) (hk : k < 32) (h : 1 ≤ dist ∧ dist ≤ 524288) :
    ∃ b0 b1 b2 : Byte, beBytes 3 (base + (dist - 1)) = [b0, b1, b2] ∧ b0.toNat / 8 = k ∧ longDist b0 b1 b2 = dist := by
  obtain ⟨b0, b1, b2, hbytes, hv⟩ := beBytes_three_exists (base + (dist - 1)) (by omega)
  rw [hbase, Nat.add_assoc, ← beNat_two] at hv
  obtain ⟨hfixed, hfield⟩ := hi_field b0.toNat (beNat [b1, b2]) (dist - 1) 8 k 65536 hv (beNat_two_lt b1 b2) (by omega)
  exact ⟨b0, b1, b2, hbytes, hfixed, by rw [longDist, hfield, Nat.sub_add_cancel h.1]⟩

/-- A 4-byte field, as the bytes it is. -/
theorem beBytes_four_exists (v : Nat) (h : v < 256 ^ 4) :
    ∃ a b c d : Byte, beBytes 4 v = [a, b, c, d] ∧ beNat [a, b, c, d] = v :=
  ⟨_, _, _, _, rfl, (beNat_beBytes 4 v).trans (Nat.mod_eq_of_lt h)⟩

theorem fitsField_iff {bits n : Nat} : fitsField bits n = true ↔ 1 ≤ n ∧ n ≤ 2 ^ bits := by simp [fitsField]

/-- The encoding of a well-formed instruction begins with that instruction. -/
theorem encode_tokenAt {ps : Params} (hp : ps.Legal) {i : Instr} (hi : i.wf = true) (rest : List Byte) :
    ∃ b0 r, encode ps i ++ rest = b0 :: r ∧ TokenAt ps b0 r i rest := by
  cases i with
  | slit lits =>
    simp only [Instr.wf, fitsField_iff, Nat.reducePow] at hi
    obtain ⟨b0, hop, h0⟩ := beBytes_one_exists (0x20 + (lits.length - 1)) (by omega)
    exact ⟨b0, _, by rw [encode, hop]; rfl, .slit lits rest (by omega) (by omega) (by omega)⟩
  | mlit lits =>
    simp only [Instr.wf, fitsField_iff, Nat.reducePow] at hi
    obtain ⟨b0, b1, hop, h0⟩ := beBytes_two_exists (0x0800 + (lits.length - 1)) (by omega)
    exact ⟨b0, _, by simp [encode, hop], .mlit b1 lits rest (by omega) (by omega) (by omega)⟩
  | llit lits =>
    simp only [Instr.wf, fitsField_iff, Nat.reducePow] at hi
    obtain ⟨b0, b1, b2, hop, h0⟩ := beBytes_three_exists (0x070000 + (lits.length - 1)) (by omega)
    exact ⟨b0, _, by simp [encode, hop], .llit b1 b2 lits rest (by omega) (by rw [beNat_two]; omega)⟩
  | smat len dist =>
    simp only [Instr.wf, Bool.and_eq_true, fitsField_iff] at hi
    obtain ⟨b0, hlen, h0⟩ := beBytes_one_exists (0x80 + (len - 1)) (by omega)
    obtain ⟨b1, hdist, rfl⟩ := oneByteField_exists hi.2
    obtain rfl : b0.toNat % 128 + 1 = len := by omega
    exact ⟨b0, _, by rw [encode, hlen, hdist]; rfl, .smat b1 rest (by omega)⟩
  | mmat len dist =>
    simp only [Instr.wf, Bool.and_eq_true, fitsField_iff] at hi
    obtain ⟨b0, b1, hdist, h0, rfl⟩ := mediumDist_exists hi.2
    obtain ⟨b2, hlen, rfl⟩ := oneByteField_exists hi.1
    exact ⟨b0, _, by rw [encode, hlen, hdist]; rfl, .mmat b1 b2 rest (by omega) (by omega)⟩
  | lmata len dist =>
    simp only [Instr.wf, Bool.and_eq_true, fitsField_iff] at hi
    obtain ⟨b0, b1, b2, hdist, h0, rfl⟩ := longDist_exists (k := 3) (base := 0x180000) rfl (by omega) hi.2
    obtain ⟨b3, hlen, rfl⟩ := oneByteField_exists hi.1
    exact ⟨b0, _, by rw [encode, hlen, hdist]; rfl, .lmata b1 b2 b3 rest (by omega) (by omega)⟩
  | lmatb len dist =>
    simp only [Instr.wf, Bool.and_eq_true, fitsField_iff] at hi
    obtain ⟨b0, b1, b2, hdist, h0, rfl⟩ := longDist_exists (k := 2) (base := 0x100000) rfl (by omega) hi.2
    obtain ⟨b3, b4, hlen, rfl⟩ := twoByteField_exists hi.1
    exact ⟨b0, _, by rw [encode, hlen, hdist]; rfl, .lmatb b1 b2 b3 b4 rest (by omega) (by omega)⟩
  | xmat1 len dist =>
    simp only [Instr.wf, Bool.and_eq_true, fitsField_iff] at hi
    obtain ⟨b1, b2, b3, hdist, rfl⟩ := threeByteField_exists hi.2
    obtain ⟨b4, hlen, rfl⟩ := oneByteField_exists hi.1
    exact ⟨0x06#8, _, by rw [encode, hlen, hdist]; rfl, .xmat1 b1 b2 b3 b4 rest rfl⟩
  | xmat2 len dist =>
    simp only [Instr.wf, Bool.and_eq_true, fitsField_iff] at hi
    obtain ⟨b1, b2, b3, hdist, rfl⟩ := threeByteField_exists hi.2
    obtain ⟨b4, b5, hlen, rfl⟩ := twoByteField_exists hi.1
    exact ⟨0x04#8, _, by rw [encode, hlen, hdist]; rfl, .xmat2 b1 b2 b3 b4 b5 rest rfl hp.end0_free.2.symm⟩
  | endFrame chk =>
    obtain ⟨c0, c1, c2, c3, hchk, hc⟩ := beBytes_four_exists chk.toNat chk.isLt
    obtain rfl : BitVec.ofNat 32 (beNat [c0, c1, c2, c3]) = chk := by rw [hc, BitVec.ofNat_toNat, BitVec.setWidth_eq]
    exact ⟨ps.end0, _, by rw [encode, hchk]; rfl, .endFrame c0 c1 c2 c3 rest hp.end0_free.1 rfl⟩

/-- Settles O4: an encoding begins with its instruction, and that is what it decodes to. -/
theorem decodeEncodeRoundTrip : Obligations.DecodeEncodeRoundTrip := by
  intro ps i rest hp hi
  obtain ⟨b0, r, hbytes, htoken⟩ := encode_tokenAt hp hi rest
  rw [hbytes, htoken.decode_eq]

/-- A number is spelled by the bytes it is read from, if their count is the field's. -/
theorem beBytes_eq {n v : Nat} {bs : List Byte} (hn : bs.length = n) (hv : beNat bs = v) : beBytes n v = bs := by
  rw [← hn, ← hv, beBytes_beNat]

theorem beBytes_one_toNat (a : Byte) : beBytes 1 a.toNat = [a] := beBytes_eq rfl (beNat_one a)

theorem beBytes_two_beNat (a b : Byte) : beBytes 2 (beNat [a, b]) = [a, b] := beBytes_beNat [a, b]

theorem beBytes_three_beNat (a b c : Byte) : beBytes 3 (beNat [a, b, c]) = [a, b, c] := beBytes_beNat [a, b, c]

theorem longDist_bounds (b0 b1 b2 : Byte) : 1 ≤ longDist b0 b1 b2 ∧ longDist b0 b1 b2 ≤ 524288 := by
  have := beNat_two_lt b1 b2
  unfold longDist
  omega

/-- Every operand a token is read with fits its field (R60). -/
theorem TokenAt.wf {ps : Params} {b0 : Byte} {r rest : List Byte} {i : Instr} (h : TokenAt ps b0 r i rest) : i.wf = true := by
  cases h with
  | slit lits => simp only [Instr.wf, fitsField_iff]; omega
  | mlit b1 lits => simp only [Instr.wf, fitsField_iff]; omega
  | llit b1 b2 lits =>
    have := beNat_two_lt b1 b2
    simp only [Instr.wf, fitsField_iff]
    omega
  | smat b1 => simp only [Instr.wf, Bool.and_eq_true, fitsField_iff]; omega
  | mmat b1 b2 => simp only [Instr.wf, Bool.and_eq_true, fitsField_iff]; omega
  | lmata b1 b2 b3 =>
    simp only [Instr.wf, Bool.and_eq_true, fitsField_iff]
    exact ⟨by omega, longDist_bounds b0 b1 b2⟩
  | lmatb b1 b2 b3 b4 =>
    have := beNat_two_lt b3 b4
    simp only [Instr.wf, Bool.and_eq_true, fitsField_iff]
    exact ⟨by omega, longDist_bounds b0 b1 b2⟩
  | xmat1 b1 b2 b3 b4 =>
    have := beNat_three_lt b1 b2 b3
    simp only [Instr.wf, Bool.and_eq_true, fitsField_iff]
    omega
  | xmat2 b1 b2 b3 b4 b5 =>
    have hlen := beNat_two_lt b4 b5
    have hdist := beNat_three_lt b1 b2 b3
    simp only [Instr.wf, Bool.and_eq_true, fitsField_iff]
    omega
  | endFrame => rfl

/-- A token is read from its encoding and no other bytes (R59). -/
theorem TokenAt.encode_append {ps : Params} {b0 : Byte} {r rest : List Byte} {i : Instr} (h : TokenAt ps b0 r i rest) :
    encode ps i ++ rest = b0 :: r := by
  cases h with
  | slit lits _ hlo hhi hn =>
    have hop : beBytes 1 (0x20 + (lits.length - 1)) = [b0] := beBytes_eq rfl (by rw [beNat_one]; omega)
    rw [encode, hop]
    rfl
  | mlit b1 lits _ hlo hhi hn =>
    have hop : beBytes 2 (0x0800 + (lits.length - 1)) = [b0, b1] := beBytes_eq rfl (by rw [beNat_two]; omega)
    rw [encode, hop]
    rfl
  | llit b1 b2 lits _ h0 hn =>
    have hop : beBytes 3 (0x070000 + (lits.length - 1)) = [b0, b1, b2] :=
      beBytes_eq rfl (by rw [hn, beNat_two, beNat_three]; omega)
    rw [encode, hop]
    rfl
  | smat b1 _ hlo =>
    have hlen : beBytes 1 (0x80 + (b0.toNat % 128 + 1 - 1)) = [b0] := beBytes_eq rfl (by rw [beNat_one]; omega)
    rw [encode, hlen, Nat.add_sub_cancel, beBytes_one_toNat]
    rfl
  | mmat b1 b2 _ hlo hhi =>
    have hdist : beBytes 2 (0x4000 + (b0.toNat % 64 * 256 + b1.toNat + 1 - 1)) = [b0, b1] :=
      beBytes_eq rfl (by rw [beNat_two]; omega)
    rw [encode, hdist, Nat.add_sub_cancel, beBytes_one_toNat]
    rfl
  | lmata b1 b2 b3 _ hlo hhi =>
    have hdist : beBytes 3 (0x180000 + (longDist b0 b1 b2 - 1)) = [b0, b1, b2] :=
      beBytes_eq rfl (by rw [longDist, beNat_two, beNat_three]; omega)
    rw [encode, hdist, Nat.add_sub_cancel, beBytes_one_toNat]
    rfl
  | lmatb b1 b2 b3 b4 _ hlo hhi =>
    have hdist : beBytes 3 (0x100000 + (longDist b0 b1 b2 - 1)) = [b0, b1, b2] :=
      beBytes_eq rfl (by rw [longDist, beNat_two, beNat_three]; omega)
    rw [encode, hdist, Nat.add_sub_cancel, beBytes_two_beNat]
    rfl
  | xmat1 b1 b2 b3 b4 _ h0 =>
    have hop : beBytes 1 0x06 = [b0] := beBytes_eq rfl (by rw [beNat_one, h0])
    rw [encode, hop, Nat.add_sub_cancel, Nat.add_sub_cancel, beBytes_three_beNat, beBytes_one_toNat]
    rfl
  | xmat2 b1 b2 b3 b4 b5 _ h0 =>
    have hop : beBytes 1 0x04 = [b0] := beBytes_eq rfl (by rw [beNat_one, h0])
    rw [encode, hop, Nat.add_sub_cancel, Nat.add_sub_cancel, beBytes_three_beNat, beBytes_two_beNat]
    rfl
  | endFrame c0 c1 c2 c3 _ hhi hend =>
    have hfits : beNat [c0, c1, c2, c3] < 2 ^ 32 := by simpa using beNat_lt [c0, c1, c2, c3]
    have hchk : beBytes 4 (beNat [c0, c1, c2, c3]) = [c0, c1, c2, c3] :=
      beBytes_beNat [c0, c1, c2, c3]
    rw [encode, BitVec.toNat_ofNat, Nat.mod_eq_of_lt hfits, hchk, hend]
    rfl

/-- Settles O5: what decodes begins with its token, whose operands fit and whose encoding is its bytes. -/
theorem encodeDecodeRoundTrip : Obligations.EncodeDecodeRoundTrip := by
  intro ps bs rest i h
  cases bs with
  | nil => cases h
  | cons b0 r =>
    have htoken := tokenAt_of_decode_eq h
    exact ⟨htoken.wf, htoken.encode_append⟩

/-- The first byte gives the opcode's size (R72). -/
theorem TokenAt.opcodeBytes_eq {ps : Params} {b0 : Byte} {r rest : List Byte} {i : Instr} (h : TokenAt ps b0 r i rest) :
    i.opcodeBytes =
      (if 0x80 ≤ b0.toNat then 2 else if 0x40 ≤ b0.toNat then 3 else if 0x20 ≤ b0.toNat then 1
       else if 0x18 ≤ b0.toNat then 4 else if 0x10 ≤ b0.toNat then 5 else if 0x08 ≤ b0.toNat then 2
       else if b0.toNat = 0x07 then 3 else if b0.toNat = 0x06 then 5 else 6) := by
  cases h <;> simp (disch := omega) only [Instr.opcodeBytes, if_pos, if_neg]

/-- The opcode announces the literal bytes after it (R73). -/
theorem TokenAt.literalBytes_eq {ps : Params} {b0 : Byte} {r rest : List Byte} {i : Instr} (h : TokenAt ps b0 r i rest) :
    i.literalBytes = announcedRun (b0 :: r) := by
  cases h <;> simp (disch := omega) only [Instr.literalBytes, announcedRun, if_pos, if_neg]
  case slit hn => exact hn
  case mlit hn => rw [hn]; simp [beNat_one]
  case llit hn => exact hn

/-- Settles O6: the token's bytes are its encoding (O5), whose size is that of its opcode and its literal bytes. -/
theorem tokenSizeFromOpcode : Obligations.TokenSizeFromOpcode := by
  intro ps b0 r rest i h
  have htoken := tokenAt_of_decode_eq h
  refine ⟨?_, htoken.literalBytes_eq, htoken.opcodeBytes_eq⟩
  rw [← htoken.encode_append, List.length_append, encode_length, htoken.encode_append, htoken.literalBytes_eq]

end Sys2Proof
end

section
/-! The statements about the rows of spec/opcode_table.json and about reserved bytes (spec/30_encoding.md R72, R77). -/

namespace Sys2Proof

/-- The last two-byte number of a row: the bits its mask leaves free are all set. -/
def OpcodeRow.last (row : OpcodeRow) : Nat := row.value.toNat + (~~~row.mask).toNat

/-- Two bytes as one number, high byte first. -/
theorem toNat_append_bytes (b0 b1 : Byte) : (b0 ++ b1).toNat = beNat [b0, b1] := by
  rw [BitVec.toNat_append, beNat_two, ← Nat.shiftLeft_add_eq_or_of_lt b1.isLt, Nat.shiftLeft_eq]

/-- A mask of all bits from bit `k` on rounds down to a multiple of `2 ^ k`. -/
theorem and_allOnes_shiftLeft_toNat {w : Nat} (x : BitVec w) (k : Nat) :
    (x &&& (BitVec.allOnes w <<< k)).toNat = x.toNat / 2 ^ k * 2 ^ k := by
  have h : x &&& (BitVec.allOnes w <<< k) = (x >>> k) <<< k := by
    ext i hi
    by_cases hk : i < k
    · simp [hk]
    · simp [hk]
      grind
  rw [h, BitVec.toNat_shiftLeft, BitVec.toNat_ushiftRight, Nat.shiftLeft_eq, Nat.shiftRight_eq_div_pow,
    Nat.mod_eq_of_lt (lt_of_le_of_lt (Nat.div_mul_le_self _ _) x.isLt)]

/-- The mask of a row is of its highest bits. -/
theorem opcodeRows_mask : ∀ row ∈ opcodeRows, ∃ k ≤ 16, row.mask = BitVec.allOnes 16 <<< k ∧ (~~~row.mask).toNat = 2 ^ k - 1 ∧
    row.value.toNat % 2 ^ k = 0 := by decide

/-- A row is a range of two-byte numbers (R72). -/
theorem OpcodeRow.matches_iff {row : OpcodeRow} (hrow : row ∈ opcodeRows) (b0 b1 : Byte) :
    row.matches b0 b1 = true ↔ row.value.toNat ≤ beNat [b0, b1] ∧ beNat [b0, b1] ≤ row.last := by
  obtain ⟨k, -, hmask, hlast, hvalue⟩ := opcodeRows_mask row hrow
  have hpos : 0 < 2 ^ k := by positivity
  rw [OpcodeRow.matches, beq_iff_eq, hmask, ← BitVec.toNat_inj, and_allOnes_shiftLeft_toNat, toNat_append_bytes, OpcodeRow.last,
    hlast]
  obtain ⟨c, hc⟩ := Nat.dvd_of_mod_eq_zero hvalue
  rw [hc, Nat.mul_comm _ (2 ^ k), Nat.mul_left_cancel_iff hpos, Nat.div_eq_iff hpos, Nat.mul_comm c,
    Nat.add_sub_assoc hpos]

/-- The rows' ranges do not meet. -/
theorem opcodeRows_ranges : opcodeRows.Pairwise fun r q => r.last < q.value.toNat ∨ q.last < r.value.toNat := by decide

/-- Settles O2: a row is a range of two-byte numbers, and the ranges do not meet. -/
theorem opcodeRowsDisjoint : Obligations.OpcodeRowsDisjoint := by
  refine opcodeRows_ranges.imp_of_mem fun {r q} hr hq hapart b0 b1 ⟨hmr, hmq⟩ => ?_
  rw [OpcodeRow.matches_iff hr] at hmr
  rw [OpcodeRow.matches_iff hq] at hmq
  omega

/-- Two bytes match at most one row. -/
theorem OpcodeRow.eq_of_matches {r q : OpcodeRow} (hr : r ∈ opcodeRows) (hq : q ∈ opcodeRows) {b0 b1 : Byte}
    (hmr : r.matches b0 b1 = true) (hmq : q.matches b0 b1 = true) : r = q := by
  by_contra hne
  have hsymm : Std.Symm fun r q : OpcodeRow => ∀ b0 b1 : Byte, ¬ (r.matches b0 b1 = true ∧ q.matches b0 b1 = true) :=
    ⟨fun _ _ h b0 b1 hm => h b0 b1 hm.symm⟩
  exact opcodeRowsDisjoint.forall hr hq hne b0 b1 ⟨hmr, hmq⟩

/-- The first two bytes of a token match a row, and its mnemonic is the token's. -/
theorem TokenAt.row_matches {b0 b1 : Byte} {r rest : List Byte} {i : Instr}
    (h : TokenAt Config.params b0 (b1 :: r) i rest) :
    ∃ row ∈ opcodeRows, row.matches b0 b1 = true ∧ row.mnemonic = i.mnemonic := by
  have hrow : ∀ row ∈ opcodeRows, row.mnemonic = i.mnemonic → row.value.toNat ≤ beNat [b0, b1] → beNat [b0, b1] ≤ row.last →
      ∃ row ∈ opcodeRows, row.matches b0 b1 = true ∧ row.mnemonic = i.mnemonic :=
    fun row hmem hname hlo hhi => ⟨row, hmem, (OpcodeRow.matches_iff hmem b0 b1).2 ⟨hlo, hhi⟩, hname⟩
  simp only [beNat_two, OpcodeRow.last] at hrow
  have hb1 := b1.isLt
  generalize hr : b1 :: r = r' at h
  cases h with
  | slit => exact hrow ⟨"SLIT", 0xE000#16, 0x2000#16⟩ (by decide) rfl (by simp; omega) (by simp; omega)
  | mlit => exact hrow ⟨"MLIT", 0xF800#16, 0x0800#16⟩ (by decide) rfl (by simp; omega) (by simp; omega)
  | llit => exact hrow ⟨"LLIT", 0xFF00#16, 0x0700#16⟩ (by decide) rfl (by simp; omega) (by simp; omega)
  | smat => exact hrow ⟨"SMAT", 0x8000#16, 0x8000#16⟩ (by decide) rfl (by simp; omega) (by simp; omega)
  | mmat => exact hrow ⟨"MMAT", 0xC000#16, 0x4000#16⟩ (by decide) rfl (by simp; omega) (by simp; omega)
  | lmata => exact hrow ⟨"LMATA", 0xF800#16, 0x1800#16⟩ (by decide) rfl (by simp; omega) (by simp; omega)
  | lmatb => exact hrow ⟨"LMATB", 0xF800#16, 0x1000#16⟩ (by decide) rfl (by simp; omega) (by simp; omega)
  | xmat1 => exact hrow ⟨"XMAT1", 0xFF00#16, 0x0600#16⟩ (by decide) rfl (by simp; omega) (by simp; omega)
  | xmat2 => exact hrow ⟨"XMAT2", 0xFF00#16, 0x0400#16⟩ (by decide) rfl (by simp; omega) (by simp; omega)
  | endFrame c0 c1 c2 c3 _ _ hend =>
    obtain ⟨rfl, -⟩ := List.cons.inj hr
    subst hend
    exact hrow ⟨"END", 0xFFFF#16, 0x05FA#16⟩ (by decide) rfl (by decide) (by decide)

/-- No row holds bytes that are reserved (R77). -/
theorem opcodeRows_not_reserved : ∀ row ∈ opcodeRows,
    0x0600 ≤ row.value.toNat ∨ (0x0400 ≤ row.value.toNat ∧ row.last ≤ 0x04FF) ∨
      (row.value.toNat = 0x05FA ∧ row.last = 0x05FA) := by
  decide

theorem OpcodeRow.not_reserved_of_matches {row : OpcodeRow} (hrow : row ∈ opcodeRows) {b0 b1 : Byte} (r : List Byte)
    (hm : row.matches b0 b1 = true) : ¬ Machine.ReservedBytes Config.params b0 (b1 :: r) := by
  have hrange := opcodeRows_not_reserved row hrow
  rw [OpcodeRow.matches_iff hrow, beNat_two] at hm
  have hb1 := b1.isLt
  rintro (⟨hlt, h4, h5⟩ | ⟨h0, c1, r', hr, h1⟩)
  · have h4' : b0.toNat ≠ 4 := BitVec.toNat_ne.1 h4
    have h5' : b0.toNat ≠ 5 := BitVec.toNat_ne.1 h5
    omega
  · obtain ⟨rfl, -⟩ := List.cons.inj hr
    have h1' : b1.toNat ≠ 0xFA := BitVec.toNat_ne.1 h1
    have h0' : b0.toNat = 5 := congrArg BitVec.toNat h0
    omega

/-- Settles O3: bytes that match a row are not reserved, and the token they begin with matches the same row (O2). -/
theorem decodeFollowsOpcodeTable : Obligations.DecodeFollowsOpcodeTable := by
  intro b0 b1 r row hrow hm
  have ha := decode_answer Config.params b0 (b1 :: r)
  generalize decode Config.params (b0 :: b1 :: r) = d at ha
  cases ha with
  | token htoken =>
    obtain ⟨q, hq, hmq, hname⟩ := htoken.row_matches
    exact .inr ⟨_, _, rfl, by rw [OpcodeRow.eq_of_matches hrow hq hm hmq, hname]⟩
  | truncated => exact .inl rfl
  | reserved hr => exact absurd hr (OpcodeRow.not_reserved_of_matches hrow r hm)

end Sys2Proof

namespace Sys2Proof.Machine

/-- The reader stops at reserved bytes. -/
theorem decode_of_reservedBytes {ps : Params} (hp : ps.Legal) {b0 : Byte} {r : List Byte} (h : ReservedBytes ps b0 r) :
    decode ps (b0 :: r) = .error (.reserved b0) := by
  obtain ⟨hlt, h4, hend⟩ | ⟨hend, b1, r', rfl, h1⟩ := h
  · have h4' : b0.toNat ≠ 4 := BitVec.toNat_ne.1 h4
    simp (disch := omega) only [decode, if_neg, hend, if_false]
  · have hlt : b0.toNat < 6 := hend ▸ hp.end0_free.1
    simp (disch := omega) only [decode, if_neg]
    rw [if_pos hend]
    exact if_neg h1

theorem readToken_of_reserved {s : State} {b0 : Byte} (h : decode s.params s.rd.src = .error (.reserved b0)) :
    readToken s = .fault (.reservedOpcode b0) := by simp only [readToken, h]

theorem readToken_of_truncated {s : State} (h : decode s.params s.rd.src = .error .truncated) :
    readToken s = .fault .truncatedFrame := by simp only [readToken, h]

/-- The turn of a reader between header and END is its next token, whatever else the agenda holds. -/
theorem step_of_reader_tokens {s : State} (hturn : nextTurn s = .reader) (hphase : s.rd.phase = .tokens) :
    step s = readToken (dropTurn s) := by
  rw [step_of_reader hturn, readerTurn_of_tokens (s := dropTurn s) hphase]

/-- With the default `END0` and `END1`, the reserved bytes are those R77 lists. -/
theorem reservedBytes_default_iff (b0 : Byte) (r : List Byte) :
    ReservedBytes Config.params b0 r ↔ b0.toNat ≤ 0x03 ∨ b0 = 0x05#8 ∧ ∃ b1 r', r = b1 :: r' ∧ b1 ≠ 0xFA#8 := by
  refine or_congr ?_ Iff.rfl
  rw [BitVec.toNat_ne, BitVec.toNat_ne]
  show b0.toNat < 6 ∧ b0.toNat ≠ 4 ∧ b0.toNat ≠ 5 ↔ _
  omega

/-- Settles O8: reserved bytes and no others decode to their name, and the reader stops by what the decoder answers. -/
theorem stepStopsOnUndecodable : Obligations.StepStopsOnUndecodable := by
  refine ⟨fun s b0 r hp hturn hphase hsrc hres => ?_, fun ps b0 e r _ h => reserved_of_decode_eq h, reservedBytes_default_iff,
    fun s hturn hphase hd => ?_⟩
  · rw [step_of_reader_tokens hturn hphase, readToken_of_reserved]
    rw [dropTurn_params, dropTurn_rd, hsrc, decode_of_reservedBytes hp hres]
  · rw [step_of_reader_tokens hturn hphase, readToken_of_truncated (s := dropTurn s) hd]

end Sys2Proof.Machine
end

section
/-! The statement about reading a frame's header (spec/30_encoding.md R71, R73). -/

namespace Sys2Proof.Machine

/-- A 4-byte field read back. -/
theorem ofNat_beNat_beBytes {n : Nat} {v : Word} (h : v.toNat < 256 ^ n) :
    BitVec.ofNat 32 (beNat (beBytes n v.toNat)) = v := by
  rw [beNat_beBytes, Nat.mod_eq_of_lt h, BitVec.ofNat_toNat, BitVec.setWidth_eq]

/-- A header past its signature and its reserved field (R71). -/
theorem headerBytes_drop_signature (ps : Params) (len window : Word) :
    (headerBytes ps len window).drop (2 + ps.rsvBytes) = beBytes 4 len.toNat ++ beBytes ps.winField.bytes window.toNat := by
  rw [headerBytes, List.append_assoc ([ps.sig0, ps.sig1] ++ beBytes ps.rsvBytes 0)]
  exact List.drop_left' (by simp; omega)

theorem headerBytes_length_field (ps : Params) (len window : Word) :
    ((headerBytes ps len window).drop (2 + ps.rsvBytes)).take 4 = beBytes 4 len.toNat := by
  rw [headerBytes_drop_signature]
  exact List.take_left' (beBytes_length _ _)

theorem headerBytes_window_field (ps : Params) (len window : Word) :
    (headerBytes ps len window).drop (2 + ps.rsvBytes + 4) = beBytes ps.winField.bytes window.toNat := by
  rw [← List.drop_drop, headerBytes_drop_signature]
  exact List.drop_left' (beBytes_length _ _)

theorem readerTurn_of_header {s : State} (h : s.rd.phase = .header) : readerTurn s = readHeader s := by
  simp [readerTurn, h]

theorem readHeader_of_short {s : State} (h : s.rd.src.length < headerSize s.params) :
    readHeader s = .fault .truncatedFrame := if_pos h

/-- A header is taken where its window fits its field. -/
theorem readHeader_of_headerBytes {s : State} {len window : Word} {rest : List Byte}
    (hsrc : s.rd.src = headerBytes s.params len window ++ rest) (hw : window.toNat < 256 ^ s.params.winField.bytes) :
    readHeader s = .next { s with rd := { phase := .tokens, src := rest, len := len, window := window, o := [] } } := by
  have hlen := headerBytes_length s.params len window
  have htake : s.rd.src.take (headerSize s.params) = headerBytes s.params len window := by rw [hsrc, List.take_left' hlen]
  have hdrop : s.rd.src.drop (headerSize s.params) = rest := by rw [hsrc, List.drop_left' hlen]
  have hroom : ¬ s.rd.src.length < headerSize s.params := by rw [hsrc, List.length_append]; omega
  simp only [readHeader, if_neg hroom, htake, hdrop, headerBytes_length_field, headerBytes_window_field,
    ofNat_beNat_beBytes (n := 4) len.isLt, ofNat_beNat_beBytes hw, if_true]

/-- Bytes that are no header are refused by name. -/
theorem readHeader_of_bad {s : State} (hroom : headerSize s.params ≤ s.rd.src.length)
    (hbad : ∀ len window, s.rd.src.take (headerSize s.params) ≠ headerBytes s.params len window) :
    readHeader s = .fault .badHeader := by
  simp only [readHeader, if_neg (Nat.not_lt.2 hroom), if_neg (hbad _ _)]

/-- Settles O16: the reader's turn at a header is `readHeader`, whose three outcomes these are. -/
theorem headerReadBack : Obligations.HeaderReadBack := by
  refine ⟨fun s len window rest h hsrc hw => ?_, fun s h hshort => ?_, fun s h hroom hbad => ?_⟩ <;>
    rw [readerTurn_of_header h]
  · exact readHeader_of_headerBytes hsrc hw
  · exact readHeader_of_short hshort
  · exact readHeader_of_bad hroom hbad

end Sys2Proof.Machine
end

section
/-! The statement about the INIT step (spec/45_commands.md R135, spec/60_exceptions.md R150 to R156). -/

namespace Sys2Proof.Machine

/-- `BadConfig` comes before the draw and the header (R155). -/
theorem initStep_of_badConfig {s : State} (draw : Bool) (hw : s.params.winField = .three) (hbig : 2 ^ 24 ≤ s.cfgWindow.toNat) :
    initStep draw s = .raised (.badConfig s.cfgWindow) s := if_pos ⟨hw, hbig⟩

theorem not_badConfig_of_windowFits {s : State} (h : s.windowFits) :
    ¬ (s.params.winField = .three ∧ 2 ^ 24 ≤ s.cfgWindow.toNat) := by
  rintro ⟨hw, hbig⟩
  obtain h4 | hlt := h
  · simp [hw] at h4
  · omega

/-- The resource-failure outcome comes before the header (R155). -/
theorem initStep_of_draw {s : State} (hw : s.windowFits) (hmay : s.params.allocMayFail = true) :
    initStep true s = .go (enterResourceFailure s) := by
  rw [initStep, if_neg (not_badConfig_of_windowFits hw), if_pos (by simp [hmay])]

/-- Where nothing is raised and the draw does not fail, the header is the whole output (R71, R122). -/
theorem initStep_of_room {s : State} {draw : Bool} (hw : s.windowFits) (hdraw : s.params.allocMayFail = false ∨ draw = false)
    (hroom : headerSize s.params ≤ s.argOutCap.toNat) :
    initStep draw s =
      .go { initCommand s with
            out := headerBytes s.params s.inLen s.cfgWindow, phase := .scan, fresh := s.fresh + 1 } := by
  obtain ⟨e, u, -, ⟨-, -, hbad⟩ | ⟨-, -, hover⟩⟩ | ⟨-, hfail⟩ | ⟨hgo, -⟩ := init_cases draw s
  · exact absurd hbad (not_badConfig_of_windowFits hw)
  · simp only [initCommand_argOutCap, initCommand_out, headerBytes_length, List.length_nil] at hover
    omega
  · obtain h | h := hdraw <;> simp [h] at hfail
  · exact hgo

/-- Settles O44: the outcomes of INIT in the order of R155, the first entered as a fault. -/
theorem initStepOutcomes : Obligations.InitStepOutcomes := by
  refine ⟨fun s hs => engineStepWith_of_init _ hs, fun s draw hw hbig => initStep_of_badConfig draw hw hbig,
    fun s hs hw hbig => ?_, fun s hw hmay => ⟨_, initStep_of_draw hw hmay, rfl⟩,
    fun s draw hw hdraw hroom => ⟨_, initStep_of_room hw hdraw hroom, rfl⟩⟩
  have hstep : engineStep s = enterFault (.badConfig s.cfgWindow) s := by
    rw [engineStep, engineStepWith_of_init _ hs, initStep_of_badConfig _ hw hbig]
    rfl
  refine ⟨_, hstep, rfl, rfl, rfl, rfl, ?_⟩
  show (s.faultMark.orElse fun _ => some _) ≠ none
  cases s.faultMark <;> simp

end Sys2Proof.Machine
end

section
/-! The statement about literal runs (spec/30_encoding.md R79, spec/42_opcode_encoder.md R109, R110). -/

namespace Sys2Proof.Machine

@[simp] theorem tokenPayload_literalToken (run : List Byte) : tokenPayload (literalToken run) = run := by
  unfold literalToken
  split
  · rfl
  split <;> rfl

@[simp] theorem literalBytes_literalToken (run : List Byte) : (literalToken run).literalBytes = run.length := by
  unfold literalToken
  split
  · rfl
  split <;> rfl

theorem literalToken_of_long {run : List Byte} (h : 2048 < run.length) : literalToken run = .llit run := by
  rw [literalToken, if_neg (by omega), if_neg (by omega)]

/-- The tokens of a run carry the run. -/
theorem literalBlocks_payload (ps : Params) (k : Nat) (lits : List Byte) :
    ((literalBlocks ps k lits).map tokenPayload).flatten = lits := by
  induction k generalizing lits with
  | zero =>
    rw [literalBlocks]
    split
    case isTrue h => rw [h]; rfl
    case isFalse => simp
  | succ k ih => rw [literalBlocks, List.map_cons, List.flatten_cons, ih, tokenPayload_literalToken, List.take_append_drop]

/-- After `k` full blocks a run that is not over has one token more. -/
theorem literalBlocks_length (ps : Params) (k : Nat) (lits : List Byte) (h : k * ps.maxLitRun < lits.length) :
    (literalBlocks ps k lits).length = k + 1 := by
  induction k generalizing lits with
  | zero =>
    have hne : lits ≠ [] := by rintro rfl; simp at h
    rw [literalBlocks, if_neg hne]
    rfl
  | succ k ih =>
    rw [Nat.succ_mul] at h
    rw [literalBlocks, List.length_cons, ih _ (by rw [List.length_drop]; omega)]

/-- Every token of a run is a literal token. -/
theorem mem_literalBlocks {ps : Params} {k : Nat} {lits : List Byte} {i : Instr} (hi : i ∈ literalBlocks ps k lits) :
    ∃ run, i = literalToken run := by
  induction k generalizing lits with
  | zero =>
    rw [literalBlocks] at hi
    split at hi
    · cases hi
    · exact ⟨lits, List.mem_singleton.1 hi⟩
  | succ k ih =>
    rw [literalBlocks, List.mem_cons] at hi
    obtain rfl | hi := hi
    · exact ⟨_, rfl⟩
    · exact ih hi

/-- A literal token without bytes has no encoding. -/
theorem literalBytes_ne_zero_of_wf {run : List Byte} (h : (literalToken run).wf = true) : (literalToken run).literalBytes ≠ 0 := by
  rw [literalBytes_literalToken]
  intro hzero
  rw [List.length_eq_zero_iff.1 hzero] at h
  exact absurd h (by decide)

/-- The first `k` tokens of a run are full blocks. -/
theorem literalBlocks_full {ps : Params} {k j : Nat} {lits : List Byte} {i : Instr} (h : k * ps.maxLitRun ≤ lits.length)
    (hj : j < k) (hi : (literalBlocks ps k lits)[j]? = some i) : ∃ run, run.length = ps.maxLitRun ∧ i = literalToken run := by
  induction k generalizing j lits with
  | zero => omega
  | succ k ih =>
    rw [Nat.succ_mul] at h
    rw [literalBlocks] at hi
    cases j with
    | zero => exact ⟨lits.take ps.maxLitRun, by rw [List.length_take]; omega, (Option.some.inj hi).symm⟩
    | succ j => exact ih (by rw [List.length_drop]; omega) (by omega) hi

/-- The count of a run's tokens: one for each full or begun block (R79). -/
theorem literalTokens_length {ps : Params} (hp : ps.Legal) (lits : List Byte) :
    (literalTokens ps lits).length = (lits.length + (ps.maxLitRun - 1)) / ps.maxLitRun := by
  have hpos : 0 < ps.maxLitRun := by have := hp.maxLitRun_ge; omega
  obtain rfl | hne := eq_or_ne lits []
  · simp [literalTokens, literalBlocks, Nat.div_eq_of_lt, hpos]
  · have hlen := List.length_pos_iff.2 hne
    have hmul := Nat.div_mul_le_self (lits.length - 1) ps.maxLitRun
    rw [literalTokens, literalBlocks_length _ _ _ (by omega), ← Nat.add_div_right _ hpos]
    congr 1
    omega

/-- All tokens of a run but the last are full blocks. -/
theorem literalTokens_full {ps : Params} {lits : List Byte} {j : Nat} {i : Instr}
    (hi : (literalTokens ps lits)[j]? = some i) (hj : j + 1 < (literalTokens ps lits).length) :
    ∃ run, run.length = ps.maxLitRun ∧ i = literalToken run := by
  have hmul := Nat.div_mul_le_self (lits.length - 1) ps.maxLitRun
  refine literalBlocks_full (by omega) ?_ hi
  obtain rfl | hne := eq_or_ne lits []
  · simp [literalTokens, literalBlocks] at hj
  · have hlen := List.length_pos_iff.2 hne
    rw [literalTokens, literalBlocks_length _ _ _ (by omega)] at hj
    omega

/-- A run inside the input that has room in the sink is appended. -/
theorem emitLiterals_of_room {s : State} {p n : Nat} (h : p + n ≤ s.inLen.toNat)
    (hroom : s.out.length + (tokenBytes s.params (literalTokens s.params (inputBytes s p n))).length ≤ s.argOutCap.toNat) :
    emitLiterals p n s = .go { s with out := s.out ++ tokenBytes s.params (literalTokens s.params (inputBytes s p n)) } := by
  rw [emitLiterals_eq p n s h, emitAll_fits _ _ hroom]

/-- Settles O39: the tokens carry the run, are as many as its blocks and all but the last full, and are what is appended. -/
theorem literalRunSplit : Obligations.LiteralRunSplit := by
  refine ⟨fun ps lits hp => ⟨literalBlocks_payload ps _ lits, literalTokens_length hp lits, fun i hi => ?_, fun j i hi hj => ?_⟩,
    fun s p n h => emitLiterals_of_room h⟩
  · obtain ⟨hwf, hcanonical, -⟩ := literalTokens_ok ps hp lits i hi
    obtain ⟨run, rfl⟩ := mem_literalBlocks hi
    exact ⟨hwf, hcanonical, literalBytes_ne_zero_of_wf hwf⟩
  · obtain ⟨run, hrun, rfl⟩ := literalTokens_full hi hj
    exact ⟨by rw [tokenPayload_literalToken, hrun], fun hlong => ⟨run, literalToken_of_long (by omega)⟩⟩

end Sys2Proof.Machine
end

section
/-! The statements about fixed spellings (spec/30_encoding.md R61 to R70, R76). -/

namespace Sys2Proof.Machine

/-- Settles O1, by running the decoder on each word. -/
theorem sampleTokenBytesDecode : Obligations.SampleTokenBytesDecode := by
  refine ⟨?_, ?_, ?_, ?_, ?_, ?_, ?_, ?_, ?_, ?_⟩ <;> decide

/-- The shortest match of a class (R103): those of LMATB and XMAT2 are longer than any an earlier class takes at the same
distance. -/
def MatchClass.minLen : MatchClass → Nat
  | .smat => 3
  | .mmat => 6
  | .lmata => 8
  | .lmatb => 257
  | .xmat1 => 10
  | .xmat2 => 257

theorem minLen_le_of_route {len dist : Nat} {c : MatchClass} (h : route len dist = some c) : c.minLen ≤ len := by
  unfold route at h
  split at h
  case isTrue hsmat => cases h; exact hsmat.1
  split at h
  case isTrue hmmat => cases h; exact hmmat.1
  split at h
  case isTrue hlmata => cases h; exact hlmata.1
  case isFalse hlmata =>
    split at h
    case isTrue hlmatb =>
      cases h
      show 257 ≤ len
      omega
    split at h
    case isTrue hxmat =>
      split at h
      case isTrue => cases h; exact hxmat.1
      case isFalse hlong => cases h; exact Nat.lt_of_not_le hlong
    case isFalse => cases h

/-- A match token is canonical where its class is the one its length and distance are routed to (R75). -/
theorem canonical_token_iff (len dist : Nat) (c : MatchClass) : canonical (c.token len dist) = true ↔ route len dist = some c := by
  cases c <;> simp [MatchClass.token, canonical]

theorem not_canonical_of_short {len : Nat} (dist : Nat) {c : MatchClass} (h : len < c.minLen) :
    canonical (c.token len dist) = false := by
  rw [Bool.eq_false_iff, Ne, canonical_token_iff]
  exact fun hroute => Nat.not_le.2 h (minLen_le_of_route hroute)

theorem not_canonical_of_other_class {len dist : Nat} {c c' : MatchClass} (h : route len dist = some c) (hne : c ≠ c') :
    canonical (c'.token len dist) = false := by
  rw [Bool.eq_false_iff, Ne, canonical_token_iff, h]
  exact fun heq => hne (Option.some.inj heq)

/-- Settles O38: each spelling R76 lists is too short for its format or class, or belongs to another class. -/
theorem nonCanonicalSpellings : Obligations.NonCanonicalSpellings := by
  refine ⟨fun lits h => ?_, fun lits h => ?_, fun len d h => ?_, fun len d h => ?_, fun len d h => ?_, fun len d h => ?_,
    fun len d h _ => ?_, fun len d h => ⟨?_, ?_⟩, fun len d c h h1 h2 => ⟨?_, ?_⟩, fun len d h => ?_⟩
  · simp only [canonical, Bool.and_eq_false_iff, decide_eq_false_iff_not]
    omega
  · simp only [canonical, Bool.and_eq_false_iff, decide_eq_false_iff_not]
    omega
  · exact not_canonical_of_short (c := .smat) d (Nat.lt_succ_of_le h)
  · exact not_canonical_of_short (c := .mmat) d h
  · exact not_canonical_of_short (c := .lmata) d h
  · exact not_canonical_of_short (c := .lmatb) d (Nat.lt_trans h (by decide))
  · exact not_canonical_of_short (c := .lmatb) d (Nat.lt_succ_of_le h)
  · exact not_canonical_of_short (c := .xmat1) d h
  · exact not_canonical_of_short (c := .xmat2) d (Nat.lt_trans h (by decide))
  · exact not_canonical_of_other_class (c' := .xmat1) h h1
  · exact not_canonical_of_other_class (c' := .xmat2) h h2
  · exact not_canonical_of_short (c := .xmat2) d (Nat.lt_succ_of_le h)

end Sys2Proof.Machine
end

section
/-! The statements about the hash cascade (spec/40_match_finder.md R80 to R90). -/

namespace Sys2Proof.Machine

/-- The two shifted parts of the hash value have no bit in common (R88). -/
theorem shifts_disjoint (h : Word) : (h <<< 14) &&& (h >>> 18) = 0#32 := by
  ext i hi
  have hlow : 14 ≤ i → h.getLsbD (18 + i) = false := fun hge => BitVec.getLsbD_of_ge h _ (by omega)
  by_cases hge : 14 ≤ i
  · simp [BitVec.getElem_ushiftRight, hlow hge]
  · simp [BitVec.getElem_shiftLeft, Nat.lt_of_not_le hge]

/-- Settles O28: no shifted byte loses a bit, and parts without a common bit add up to their union. -/
theorem cascadeStepFormula : Obligations.CascadeStepFormula := by
  intro h x y
  refine ⟨?_, shifts_disjoint h, ?_⟩
  · have hx := x.isLt
    have hy := y.isLt
    simp only [cascadeStep, BitVec.toNat_add, BitVec.toNat_shiftLeft, BitVec.toNat_ushiftRight, BitVec.toNat_setWidth,
      Nat.shiftLeft_eq, Nat.shiftRight_eq_div_pow]
    omega
  · rw [BitVec.add_eq_or_of_and_eq_zero _ _ (shifts_disjoint h)]
    rfl

/-- A masked value is what the mask leaves of it (R17, R89). -/
theorem hashMask_toNat (bits : BitVec 6) (x : Word) : (hashMask bits x).toNat = x.toNat &&& (2 ^ bits.toNat - 1) := by
  have hlt : x.toNat % 2 ^ bits.toNat < 2 ^ 32 := Nat.lt_of_le_of_lt (Nat.mod_le _ _) x.isLt
  rw [hashMask, BitVec.toNat_ofNat, Nat.mod_eq_of_lt hlt, Nat.and_two_pow_sub_one_eq_mod]

theorem scramble_toNat (h : Word) : (scramble h).toNat = (h.toNat + h.toNat / 2 ^ 16) % 2 ^ 32 := by
  simp [scramble, Nat.shiftRight_eq_div_pow]

/-- Settles O29: the index is the scrambled value under the mask, which leaves nothing at width 0 and all at width 32. -/
theorem hashIndexMasked : Obligations.HashIndexMasked := by
  refine fun bits h => ⟨?_, ?_, ?_⟩
  · rw [hashIndex, hashMask_toNat, scramble_toNat]
  · rintro rfl
    apply BitVec.eq_of_toNat_eq
    rw [hashIndex, hashMask_toNat]
    simp
  · rintro rfl
    apply BitVec.eq_of_toNat_eq
    rw [hashIndex, hashMask_toNat, Nat.and_two_pow_sub_one_eq_mod]
    exact Nat.mod_eq_of_lt (scramble h).isLt

/-- The first hash loses no bit: it is the sum of R82. -/
theorem firstHash_toNat (b0 b1 b2 : Byte) :
    (firstHash b0 b1 b2).toNat = b0.toNat * 2 ^ 14 + b1.toNat * 2 ^ 7 + b2.toNat := by
  have h0 := b0.isLt
  have h1 := b1.isLt
  have h2 := b2.isLt
  simp only [firstHash, BitVec.toNat_add, BitVec.toNat_shiftLeft, BitVec.toNat_setWidth, Nat.shiftLeft_eq]
  omega

/-- At a scan position the bytes at the cursor lie inside the input (R80). -/
theorem atScanPosition_iff (s : State) :
    s.atScanPosition = true ↔ s.w.q.toNat + (s.params.lookahead - 1) < s.inLen.toNat := by
  simp [State.atScanPosition]

/-- At a scan position the hash registers take the hash of the `LOOKAHEAD` bytes at the cursor (R80, R90). -/
theorem computeHashes_of_scanPosition (hf : HashFn) {s : State} (hs : s.atScanPosition = true) :
    computeHashes hf s =
      let c := hf s.cfgHashBits (inputBytes s s.w.q.toNat s.params.lookahead)
      .go { s with w := { s.w with h := c.h, h1 := c.h1, h2 := c.h2, h3 := c.h3, h4 := c.h4 } } := by
  have hroom := (atScanPosition_iff s).1 hs
  rw [computeHashes, readBytes_ok _ _ _ (by omega)]

/-- A byte inside a stretch of the input. -/
theorem inputBytes_getD (s : State) (p : Nat) {n i : Nat} (h : i < n) (b : Byte) :
    (inputBytes s p n).getD i b = s.input.read (p + i) := by
  rw [List.getD_eq_getElem _ _ (by simpa using h), inputBytes_getElem s p n i h]

/-- Settles O30: each of the 13 bytes the cascade takes is the input byte at its place after the cursor. -/
theorem scanHashes : Obligations.ScanHashes := by
  intro s hlook hs
  have hbyte : ∀ i, i < 13 → (inputBytes s s.w.q.toNat s.params.lookahead).getD i 0#8 = s.input.read (s.w.q.toNat + i) :=
    fun i hi => inputBytes_getD s _ (by omega) _
  refine ⟨firstHash_toNat _ _ _, ?_⟩
  rw [computeHashes_of_scanPosition hashCascade hs]
  simp [hashCascade, hbyte, -List.getD_eq_getElem?_getD]

end Sys2Proof.Machine
end

section
/-! The statements about the probes and the match finder (spec/40_match_finder.md R81, R91 to R98). -/

namespace Sys2Proof.Machine

/-- Settles O31: past the length found the bytes differ, so no longer length agrees. -/
theorem matchLenIsLongest : Obligations.MatchLenIsLongest := by
  intro s t q max ht hq
  obtain ⟨m, hm, hle, hagree, hdiffer⟩ := matchLen_ok s t q max ht hq
  refine ⟨m, hm, hle, hagree, fun m' hm' hagree' => ?_⟩
  by_contra hlt
  exact hdiffer (by omega) (hagree' m (by omega))

/-! ### `KeepBest` -/

/-- The candidate is acceptable under the window (R94, R100). -/
def Acceptable (window : Word) (c : LenWord × Word) : Prop := accept window c.1.toNat c.2.toNat = true

/-- The state that keeps a candidate: `BEST` and `DIST` are its length and distance (R29). -/
def withCandidate (c : LenWord × Word) (s : State) : State := { s with w := { s.w with best := c.1, dist := c.2 } }

theorem keepBest_of_longer {s : State} {c : LenWord × Word} (hlong : s.w.best.toNat < c.1.toNat)
    (hacc : Acceptable s.cfgWindow c) : keepBest c.1 c.2 s = withCandidate c s :=
  if_pos ⟨BitVec.lt_def.2 hlong, hacc⟩

theorem keepBest_of_not_longer {s : State} {c : LenWord × Word}
    (h : Acceptable s.cfgWindow c → c.1.toNat ≤ s.w.best.toNat) : keepBest c.1 c.2 s = s :=
  if_neg fun ⟨hlong, hacc⟩ => Nat.not_lt.2 (h hacc) (BitVec.lt_def.1 hlong)

/-- Candidates none of which is both acceptable and longer than the best so far change nothing. -/
theorem foldl_keepBest_of_not_longer {s : State} {cs : List (LenWord × Word)}
    (h : ∀ c ∈ cs, Acceptable s.cfgWindow c → c.1.toNat ≤ s.w.best.toNat) :
    cs.foldl (fun u c => keepBest c.1 c.2 u) s = s := by
  induction cs with
  | nil => rfl
  | cons c cs ih =>
    rw [List.foldl_cons, keepBest_of_not_longer (h c (by simp))]
    exact ih fun d hd => h d (by simp [hd])

/-- Candidates that are shorter than `n` where they are acceptable leave one shorter than `n`, and write nothing else. -/
theorem foldl_keepBest_lt {n : Nat} {s : State} {cs : List (LenWord × Word)} (hs : s.w.best.toNat < n)
    (h : ∀ c ∈ cs, Acceptable s.cfgWindow c → c.1.toNat < n) :
    ∃ kept, cs.foldl (fun u c => keepBest c.1 c.2 u) s = withCandidate kept s ∧ kept.1.toNat < n := by
  induction cs generalizing s with
  | nil => exact ⟨(s.w.best, s.w.dist), rfl, hs⟩
  | cons c cs ih =>
    rw [List.foldl_cons]
    by_cases hc : Acceptable s.cfgWindow c ∧ s.w.best.toNat < c.1.toNat
    · obtain ⟨hacc, hlong⟩ := hc
      rw [keepBest_of_longer hlong hacc]
      exact ih (s := withCandidate c s) (h c (by simp) hacc) fun d hd => h d (by simp [hd])
    · rw [keepBest_of_not_longer fun hacc => Nat.not_lt.1 fun hlong => hc ⟨hacc, hlong⟩]
      exact ih hs fun d hd => h d (by simp [hd])

/-- A candidate with shorter ones before it and none longer after it is the one kept (R94). -/
theorem foldl_keepBest_first_longest {s : State} {before after : List (LenWord × Word)} {c : LenWord × Word}
    (hs : s.w.best.toNat < c.1.toNat) (hacc : Acceptable s.cfgWindow c)
    (hbefore : ∀ d ∈ before, Acceptable s.cfgWindow d → d.1.toNat < c.1.toNat)
    (hafter : ∀ d ∈ after, Acceptable s.cfgWindow d → d.1.toNat ≤ c.1.toNat) :
    (before ++ c :: after).foldl (fun u c => keepBest c.1 c.2 u) s = withCandidate c s := by
  obtain ⟨kept, hkept, hlt⟩ := foldl_keepBest_lt hs hbefore
  have hlonger : keepBest c.1 c.2 (withCandidate kept s) = withCandidate c s := keepBest_of_longer (c := c) hlt hacc
  rw [List.foldl_append, hkept, List.foldl_cons, hlonger]
  exact foldl_keepBest_of_not_longer hafter

/-- Settles O32: what comes before the first of the longest is shorter, and what comes after it is not longer. -/
theorem keepBestFirstLongest : Obligations.KeepBestFirstLongest := by
  intro s cs hbest _
  refine ⟨fun hnone => ?_, fun k c hk hacc hmax => ?_⟩
  · exact foldl_keepBest_of_not_longer fun c hc hacc => absurd hacc (by simp [Acceptable, hnone c hc])
  · have hsplit : cs = cs.take k ++ c :: cs.drop (k + 1) := by
      rw [← (List.getElem?_eq_some_iff.1 hk).2, List.getElem_cons_drop, List.take_append_drop]
    show cs.foldl _ s = withCandidate c s
    rw [hsplit]
    refine foldl_keepBest_first_longest (by rw [hbest]; exact accept_ge _ _ _ hacc) hacc (fun d hd hd' => ?_)
      fun d hd hd' => ?_
    · obtain ⟨j, hj⟩ := List.getElem?_of_mem hd
      have hjk : j < k := lt_of_lt_of_le (List.getElem?_eq_some_iff.1 hj).1 (List.length_take_le k cs)
      exact (hmax j d (by rw [← hj, List.getElem?_take_of_lt hjk]) hd').2 hjk
    · obtain ⟨j, hj⟩ := List.getElem?_of_mem (List.mem_of_mem_drop hd)
      exact (hmax j d hj hd').1

/-! ### What the match finder writes -/

/-- A probe that goes on writes only `BEST`, `DIST` and `M`, whatever the table holds (R91). -/
theorem probe_frame {i : Word} {s t : State} (h : probe i s = .go t) : ProbeFrame s t := by
  unfold probe at h
  split at h
  · obtain rfl := Ran.go.inj h
    rfl
  · split at h
    · cases h
    · obtain rfl := Ran.go.inj h
      unfold keepBest ProbeFrame
      split <;> rfl

theorem probes_frame {s t : State} (h : probes s = .go t) : ProbeFrame s t := by
  simp only [probes, andThen_eq_go] at h
  obtain ⟨u3, ⟨u2, ⟨u1, h1, h2⟩, h3⟩, h4⟩ := h
  exact (((probe_frame h1).trans (probe_frame h2)).trans (probe_frame h3)).trans (probe_frame h4)

/-- Where the match finder goes on, its last part is the table update, of a table nothing has written before (R91, R98). -/
theorem matchFinder_eq_go {hf : HashFn} {s t : State} (h : matchFinder hf s = .go t) :
    ∃ u, t = updateTable u ∧ FinderFrame s u ∧ u.w.table = s.w.table := by
  simp only [matchFinder, andThen_eq_go] at h
  obtain ⟨u, ⟨v, hhash, hprobes⟩, hupdate⟩ := h
  have hframe := probes_frame hprobes
  unfold computeHashes at hhash
  split at hhash
  · cases hhash
  · obtain rfl := Ran.go.inj hhash
    unfold ProbeFrame at hframe
    exact ⟨u, (Ran.go.inj hupdate).symm, by rw [hframe]; rfl, by rw [hframe]; rfl⟩

/-- What the table holds after its update (R96). -/
theorem updateTable_read (s : State) (i : Nat) :
    (updateTable s).w.table.read i =
      if i = s.w.h1.toNat ∨ i = s.w.h2.toNat ∨ i = s.w.h3.toNat ∨ i = s.w.h4.toNat
      then some (storedPos s.params.posBits s.w.q) else s.w.table.read i := by
  simp only [updateTable, Table.read_write, ← ite_or]
  exact if_congr (by tauto) rfl rfl

/-- Settles O33: the table update comes last and writes the four entries; all before it keeps the frame and the table. -/
theorem tableTakesScanPosition : Obligations.TableTakesScanPosition := by
  intro hf s t h
  obtain ⟨u, rfl, hframe, htable⟩ := matchFinder_eq_go h
  have hq : u.w.q = s.w.q := by rw [hframe]
  have hpar : u.params = s.params := by rw [hframe]
  refine ⟨?_, fun i => ?_, fun hwide => storedPos_wide hwide _⟩
  · unfold FinderFrame at hframe
    rw [hframe]
    rfl
  · rw [updateTable_read, hq, hpar, htable]
    rfl

/-- No acceptable candidate is longer than the best one (R94). -/
theorem BestOf.le_best {s : State} {max : Nat} {indices : List Word} {best : LenWord} {dist i p : Word} {m : Nat}
    (h : BestOf s max indices best dist) (hi : i ∈ indices) (hc : Candidate s max i p m) : m ≤ best.toNat := by
  obtain ⟨-, -, hnone⟩ | ⟨k, i0, p0, -, -, -, hmax⟩ := h
  · exact absurd hc (hnone i hi p m)
  · obtain ⟨j, hj⟩ := List.getElem?_of_mem hi
    exact (hmax j i p m hj hc).1

/-- An accepted distance lies within the window (R100). -/
theorem dist_le_of_accept {window : Word} {len d : Nat} (h : accept window len d = true) : d ≤ window.toNat := by
  simp only [accept, Bool.and_eq_true, decide_eq_true_eq] at h
  exact h.1

/-- Settles O34: `matchFinder_ok` gives the result, and `BestOf` that nothing acceptable is longer. -/
theorem matchFinderResult : Obligations.MatchFinderResult := by
  intro hf s hp hs htable
  have hroom := (atScanPosition_iff s).1 hs
  obtain ⟨t, hgo, hframe, hcand, hmax, -, -, -, hh, hh1, hh2, hh3, hh4, hbest⟩ := matchFinder_ok hf s hp hs htable
  have hq : t.w.q = s.w.q := by rw [hframe]
  have hw : t.cfgWindow = s.cfgWindow := by rw [hframe]
  have hinput : t.input = s.input := by rw [hframe]
  refine ⟨t, hgo, by omega, hmax, hh, hh1, hh2, hh3, hh4, hbest, ?_, fun i hi p m hread hlen hacc => ?_⟩
  · unfold Cand at hcand
    rw [hq, hw, hinput] at hcand
    obtain hnone | ⟨h3, hle, hacc, hd1, hdq, hagree⟩ := hcand
    · exact .inl hnone
    · exact .inr ⟨h3, hle, hacc, hd1, dist_le_of_accept hacc, hdq, hagree⟩
  · rw [hh1, hh2, hh3, hh4] at hi
    exact hbest.le_best hi ⟨hread, hlen, hacc⟩

end Sys2Proof.Machine
end

section
/-! SUPPORT. The tokens a COMPRESS step appends: they spell the input they take, and they are short (spec/45_commands.md R136 to
R144, spec/42_opcode_encoder.md R111). -/

namespace Sys2Proof.Machine

/-! ### Running tokens -/

/-- Tokens the engine emits between header and trailer (R75). -/
def Emittable (toks : List Instr) : Prop := ∀ i ∈ toks, i.wf = true ∧ canonical i = true ∧ ∀ c, i ≠ .endFrame c

theorem Emittable.append {a b : List Instr} (ha : Emittable a) (hb : Emittable b) : Emittable (a ++ b) :=
  fun i hi => (List.mem_append.1 hi).elim (ha i) (hb i)

theorem withDecoded_inj {s : State} {o o' : List Byte} (h : s.withDecoded o = s.withDecoded o') : o = o' :=
  congrArg (fun t : State => t.rd.o) h

/-- What tokens decode to does not depend on the machine that reads them (R111). -/
theorem runTokens_moves {toks : List Instr} (ht : Emittable toks) {s : State} (t : State) {o o' : List Byte}
    (h : runTokens toks (s.withDecoded o) = .next (s.withDecoded o')) :
    runTokens toks (t.withDecoded o) = .next (t.withDecoded o') := by
  obtain ⟨o'', heq, hrun⟩ := run_move toks (fun i hi => (ht i hi).2.2) s t _ o h
  rw [withDecoded_inj heq, hrun]

/-- A copy from where the input agrees with itself continues the input (R93, R111). -/
theorem copyBack_inputBytes (s : State) {d : Nat} (hd : 1 ≤ d) (len q : Nat) (hq : d ≤ q)
    (h : ∀ i, i < len → s.input.read (q - d + i) = s.input.read (q + i)) :
    copyBack d len (inputBytes s 0 q) = inputBytes s 0 (q + len) := by
  induction len generalizing q with
  | zero => rfl
  | succ len ih =>
    have hbyte : (inputBytes s 0 q).getD (q - d) 0#8 = s.input.read q := by
      rw [inputBytes_getD s 0 (by omega), Nat.zero_add]
      exact h 0 (Nat.succ_pos len)
    have hnext : inputBytes s 0 (q + 1) = inputBytes s 0 q ++ [s.input.read q] := by
      rw [inputBytes_add, Nat.zero_add, inputBytes_succ, inputBytes_zero]
    rw [copyBack, inputBytes_length, hbyte, ← hnext, ih (q + 1) (by omega) fun i hi => ?_]
    · congr 1
      omega
    · have := h (i + 1) (by omega)
      rwa [show q + 1 - d + i = q - d + (i + 1) by omega, show q + 1 + i = q + (i + 1) by omega]

/-! ### Tokens that spell the input -/

/-- The tokens stand for the input from `LIT_START` up to `upTo`, and cost at most `extra` bytes and a 33rd of it beside it (R142
items 4 and 5, R144). -/
structure Spells (s : State) (upTo extra : Nat) (toks : List Instr) : Prop where
  lit_le : s.w.litStart.toNat ≤ upTo
  le_inLen : upTo ≤ s.inLen.toNat
  emittable : Emittable toks
  decodes : runTokens toks (s.withDecoded (inputBytes s 0 s.w.litStart.toNat)) = .next (s.withDecoded (inputBytes s 0 upTo))
  size_le : (tokenBytes s.params toks).length ≤
    upTo - s.w.litStart.toNat + (upTo - s.w.litStart.toNat) / 33 + extra

/-- No token stands for no input. -/
theorem Spells.nil {s : State} (h : s.w.litStart.toNat ≤ s.inLen.toNat) : Spells s s.w.litStart.toNat 0 [] :=
  ⟨Nat.le_refl _, h, by simp [Emittable], rfl, by simp [tokenBytes]⟩

/-- The literal tokens of the pending run spell it (R109). -/
theorem Spells.literals {s : State} (hp : s.params.Legal) {upTo : Nat} (hlit : s.w.litStart.toNat ≤ upTo)
    (hle : upTo ≤ s.inLen.toNat) :
    Spells s upTo 1
      (literalTokens s.params (inputBytes s s.w.litStart.toNat (upTo - s.w.litStart.toNat))) := by
  refine ⟨hlit, hle, literalTokens_ok _ hp _, ?_, ?_⟩
  · rw [literalTokens, run_literalBlocks]
    conv_rhs => rw [← Nat.add_sub_cancel' hlit, inputBytes_add, Nat.zero_add]
  · have := (literalTokens_size s.params hp (inputBytes s s.w.litStart.toNat (upTo - s.w.litStart.toNat))).1
    rwa [inputBytes_length] at this

/-- A match token after them spells the match too, and pays for the byte they cost (R103, R144). -/
theorem Spells.append_match {s : State} {q len dist : Nat} {toks : List Instr} {cls : MatchClass} (h : Spells s q 1 toks)
    (hroute : route len dist = some cls) (hlen : len ≤ 65536) (hd : 1 ≤ dist) (hdq : dist ≤ q)
    (hle : q + len ≤ s.inLen.toNat) (hagree : ∀ i, i < len → s.input.read (q - dist + i) = s.input.read (q + i)) :
    Spells s (q + len) 0 (toks ++ [cls.token len dist]) := by
  have hsize := h.size_le
  have htoken := token_size s.params hroute
  have hlit := h.lit_le
  obtain ⟨hwf, hcanonical⟩ := route_bounds hroute hd hlen
  refine ⟨by omega, hle, h.emittable.append fun i hi => ?_, ?_, ?_⟩
  · obtain rfl := List.mem_singleton.1 hi
    exact ⟨hwf, hcanonical, fun c => by cases cls <;> simp [MatchClass.token]⟩
  · rw [run_append _ _ _ _ h.decodes, runTokens, exec_token cls len dist s _ hd (by simpa using hdq),
      copyBack_inputBytes s hd len q hdq hagree]
    rfl
  · simp only [tokenBytes, List.map_append, List.flatten_append, List.map_cons, List.map_nil, List.flatten_cons,
      List.flatten_nil, List.append_nil, List.length_append] at hsize ⊢
    omega

/-! ### The steps that append tokens -/

/-- A part of a step spells some input: it appends these tokens and goes on, with a byte to spare unless TRAILER is next, or the sink
has no room for them. -/
def Ran.SpellsInput (r : Ran) (s : State) : Prop :=
  ∃ upTo extra toks, Spells s upTo extra toks ∧ extra ≤ 1 ∧
    ((∃ u, r = .go u ∧ u.out = s.out ++ tokenBytes s.params toks ∧ u.w.litStart.toNat = upTo ∧
        ((u.phase = .scan ∨ u.phase = .flush) ∧ extra = 0 ∨ u.phase = .trailer)) ∨
     (∃ e u, r = .raised e u ∧ s.argOutCap.toNat < s.out.length + (tokenBytes s.params toks).length))

/-- SCAN at a scan position spells nothing, or the pending run and a match (R136). -/
theorem scanStepWith_spells_at_position (hf : HashFn) {s : State} (hi : EngineInv s) (hs : s.phase = .scan)
    (hscan : s.atScanPosition = true) : (scanStepWith hf s).SpellsInput s := by
  have hc := hi.cursor (.inl hs)
  have hlit := hc.lit_le
  have hmax := hi.params_legal.maxMatch_le
  have hroom := hc.q_le
  obtain ⟨t, -, hfinder, hcand, hmm, -, -, hend⟩ := scan_cases hf s hi.params_legal hscan hc hi.table_rising
  have hq : t.w.q = s.w.q := by rw [hfinder]
  have hinput : t.input = s.input := by rw [hfinder]
  have hphase : t.phase = .scan := by rw [hfinder]; exact hs
  obtain ⟨u, hgo, hu, -⟩ | ⟨cls, hroute, hbest, hend⟩ := hend
  · refine ⟨_, 0, [], Spells.nil (hlit.trans hc.q_le), Nat.zero_le 1, .inl ⟨u, hgo, ?_, ?_, .inl ⟨.inl ?_, rfl⟩⟩⟩
    · rw [hu, hfinder]
      simp [tokenBytes]
    · rw [hu, hfinder]
    · rw [hu]
      exact hphase
  · obtain ⟨hnone, -⟩ | ⟨-, hle, -, hd, hdq, hagree⟩ := hcand
    · rw [hnone] at hbest
      exact absurd hbest (by decide)
    · rw [hq] at hdq hagree
      rw [hinput] at hagree
      have hspells := (Spells.literals hi.params_legal hlit hc.q_le).append_match hroute (by omega) hd hdq (by omega) hagree
      refine ⟨_, 0, _, hspells, Nat.zero_le 1, ?_⟩
      obtain ⟨u, hgo, hu, hadvance, -⟩ | ⟨e, u, hraised, -, -, hfull⟩ := hend
      · exact .inl ⟨u, hgo, by rw [hu]; rfl, by rw [hu]; exact hadvance, .inl ⟨.inl (by rw [hu]; exact hphase), rfl⟩⟩
      · exact .inr ⟨e, u, hraised, hfull⟩

/-- SCAN spells some input; off the scan positions none, and FLUSH is next (R136). -/
theorem scanStepWith_spells (hf : HashFn) {s : State} (hi : EngineInv s) (hs : s.phase = .scan) :
    (scanStepWith hf s).SpellsInput s := by
  by_cases hscan : s.atScanPosition = true
  · exact scanStepWith_spells_at_position hf hi hs hscan
  · have hc := hi.cursor (.inl hs)
    exact ⟨_, 0, [], Spells.nil (hc.lit_le.trans hc.q_le), Nat.zero_le 1,
      .inl ⟨_, scan_ends hf s hscan, by simp [tokenBytes], rfl, .inl ⟨.inr rfl, rfl⟩⟩⟩

/-- FLUSH spells the rest of the input as literals (R138). -/
theorem flushStep_spells {s : State} (hi : EngineInv s) (hs : s.phase = .flush) : (flushStep s).SpellsInput s := by
  have hc := hi.cursor (.inr (.inl hs))
  refine ⟨_, 1, _, Spells.literals hi.params_legal (hc.lit_le.trans hc.q_le) (Nat.le_refl _), Nat.le_refl 1, ?_⟩
  obtain ⟨u, hgo, hu, -⟩ | ⟨e, u, hraised, -, -, hfull⟩ := flush_cases s hc
  · exact .inl ⟨u, hgo, by rw [hu]; rfl, by rw [hu], .inr (by rw [hu])⟩
  · exact .inr ⟨e, u, hraised, hfull⟩

/-! ### The frame the output is part of (R142 items 4 and 5) -/

theorem ne_idle_of_afterInit {s : State} (h : s.afterInit) : s.phase ≠ .idle := by
  rintro hidle
  simp [State.afterInit, hidle] at h

/-- The output of a command that is over is not spoken of. -/
theorem frameInv_of_idle {s : State} (h : s.phase = .idle) : FrameInv s := fun hafter => absurd h (ne_idle_of_afterInit hafter)

/-- A frame goes on with the tokens a step appends, and with END where it goes to DONE. -/
theorem FrameOf.extend {s u : State} {toks more : List Instr} {extra : Nat} (h : FrameOf s toks) (hs : s.phase ≠ .done)
    (hframe : EngineFrame s u) (hspells : Spells s u.w.litStart.toNat extra more)
    (hout : u.out = s.out ++ tokenBytes s.params more ++
      (if u.phase = .done then encode s.params (.endFrame u.w.ck) else [])) : FrameOf u (toks ++ more) := by
  have hpar : u.params = s.params := by rw [hframe]
  have hlen : u.inLen = s.inLen := by rw [hframe]
  have hwindow : u.cfgWindow = s.cfgWindow := by rw [hframe]
  have hok : Emittable (toks ++ more) := Emittable.append h.tokens_ok hspells.emittable
  refine ⟨by rw [hwindow, hpar]; exact h.window_fits, ?_, hok, ?_⟩
  · rw [hout, h.out_eq, if_neg hs, hpar, hlen, hwindow]
    simp [tokenBytes]
  · rw [inputBytes_congr hframe.input_eq]
    exact runTokens_moves hok (s := s) u (by rw [run_append _ _ _ _ h.decodes, hspells.decodes])

/-- A part of a step that spells input keeps the frame. -/
theorem Ran.SpellsInput.frameInv {r : Ran} {s : State} (h : r.SpellsInput s) (hframes : r.Frames s)
    (hs : s.phase = .scan ∨ s.phase = .flush) (hi : FrameInv s) : FrameInv r.settle := by
  have hafter : s.afterInit := hs.imp_right .inl
  have hdone : s.phase ≠ .done := by rintro hdone; simp [hdone] at hs
  obtain ⟨toks, hframe⟩ := hi hafter
  obtain ⟨_, extra, more, hspells, -, ⟨u, rfl, hout, rfl, hnext⟩ | ⟨e, u, rfl, -⟩⟩ := h
  · have hnext : u.phase ≠ .done := by rintro hnext'; simp [hnext'] at hnext
    exact fun _ => ⟨toks ++ more, hframe.extend hdone hframes hspells (by
      rw [Ran.settle, hout, if_neg hnext, List.append_nil])⟩
  · exact frameInv_of_idle rfl

/-- INIT begins the frame: the header is the output (R135). -/
theorem initStep_frameInv (draw : Bool) (s : State) : FrameInv (initStep draw s).settle := by
  obtain ⟨e, u, h, -⟩ | ⟨h, -⟩ | ⟨h, -, hwindow⟩ := init_cases draw s <;> rw [h]
  · exact frameInv_of_idle rfl
  · exact frameInv_of_idle rfl
  · exact fun _ => ⟨[], hwindow, by simp [Ran.settle, tokenBytes], by simp, rfl⟩

/-- TRAILER ends the frame with END (R139). -/
theorem trailerStep_frameInv {s : State} (hi : EngineInv s) (hs : s.phase = .trailer) (h : FrameInv s) :
    FrameInv (trailerStep s).settle := by
  have hafter : s.afterInit := .inr (.inr (.inl hs))
  have hc := hi.cursor hafter
  have hframes := trailerStep_frames s
  obtain ⟨toks, hframe⟩ := h hafter
  obtain ⟨hgo, -⟩ | ⟨e, u, hraised, -⟩ := trailer_cases s hc.out_le
  · rw [hgo] at hframes ⊢
    exact fun _ => ⟨toks ++ [], hframe.extend (by simp [hs]) hframes (Spells.nil (hc.lit_le.trans hc.q_le))
      (by simp [Ran.settle, tokenBytes])⟩
  · rw [hraised]
    exact frameInv_of_idle rfl

/-- Every engine step keeps items 4 and 5 of R142, for every hash function. -/
theorem engineStepWith_keeps_frameInv (hf : HashFn) {s : State} (hi : EngineInv s) (h : FrameInv s) :
    FrameInv (engineStepWith hf s) := by
  cases hs : s.phase with
  | idle => rwa [engineStepWith_of_idle hf hs]
  | init =>
    rw [engineStepWith_of_init hf hs]
    exact initStep_frameInv _ s
  | scan =>
    rw [engineStepWith_of_scan hf hs]
    exact (scanStepWith_spells hf hi hs).frameInv (scanStepWith_frames hf s) (.inl hs) h
  | flush =>
    rw [engineStepWith_of_flush hf hs]
    exact (flushStep_spells hi hs).frameInv (flushStep_frames s) (.inr hs) h
  | trailer =>
    rw [engineStepWith_of_trailer hf hs]
    exact trailerStep_frameInv hi hs h
  | done =>
    rw [engineStepWith_of_done hf hs]
    exact frameInv_of_idle rfl
  | sum =>
    rw [engineStepWith_of_sum hf hs, sum_ok]
    exact frameInv_of_idle rfl

/-! ### The size of the output (R144) -/

/-- The bytes of a header, with the longest fields (R71). -/
theorem headerSize_le {ps : Params} (hp : ps.Legal) : headerSize ps ≤ 507 := by
  have := hp.rsvBytes_le
  cases h : ps.winField <;> simp only [headerSize, WinField.bytes, h] <;> omega

/-- No bound is set on the output of a command that is over. -/
theorem sizeInv_of_idle {s : State} (h : s.phase = .idle) : SizeInv s := by simp [SizeInv, h]

theorem sizeInv_iff_of_scan_or_flush {s : State} (h : s.phase = .scan ∨ s.phase = .flush) :
    SizeInv s ↔ s.out.length ≤ headerSize s.params + s.w.litStart.toNat + s.w.litStart.toNat / 33 := by
  obtain h | h := h <;> simp [SizeInv, h]

theorem sizeInv_iff_of_trailer {s : State} (h : s.phase = .trailer) :
    SizeInv s ↔ s.out.length ≤ headerSize s.params + s.inLen.toNat + s.inLen.toNat / 33 + 3 := by simp [SizeInv, h]

theorem sizeInv_iff_of_done {s : State} (h : s.phase = .done) :
    SizeInv s ↔ s.out.length ≤ headerSize s.params + 6 + s.inLen.toNat + s.inLen.toNat / 33 + 3 := by simp [SizeInv, h]

/-- Tokens appended to an output within the bound keep it within the bound, `extra` bytes aside. -/
theorem Spells.out_le {s : State} {upTo extra : Nat} {toks : List Instr} (h : Spells s upTo extra toks)
    (hs : s.phase = .scan ∨ s.phase = .flush) (hi : SizeInv s) :
    s.out.length + (tokenBytes s.params toks).length ≤ headerSize s.params + upTo + upTo / 33 + extra := by
  have h1 := h.size_le
  have h2 := h.lit_le
  have h3 := (sizeInv_iff_of_scan_or_flush hs).1 hi
  omega

/-- A part of a step that spells input keeps the bound. -/
theorem Ran.SpellsInput.sizeInv {r : Ran} {s : State} (h : r.SpellsInput s) (hframes : r.Frames s)
    (hs : s.phase = .scan ∨ s.phase = .flush) (hi : SizeInv s) : SizeInv r.settle := by
  obtain ⟨_, extra, toks, hspells, hextra, ⟨u, rfl, hout, rfl, hnext⟩ | ⟨e, u, rfl, -⟩⟩ := h
  · have hle := hspells.out_le hs hi
    have hin := hspells.le_inLen
    have hpar : u.params = s.params := by rw [hframes]
    have hlen : u.inLen = s.inLen := by rw [hframes]
    rw [← List.length_append, ← hout] at hle
    obtain ⟨hphase, rfl⟩ | hphase := hnext
    · exact (sizeInv_iff_of_scan_or_flush hphase).2 (by rw [hpar]; exact hle)
    · exact (sizeInv_iff_of_trailer hphase).2 (by rw [hpar, hlen]; omega)
  · exact sizeInv_of_idle rfl

/-- INIT leaves the header alone (R135). -/
theorem initStep_sizeInv (draw : Bool) (s : State) : SizeInv (initStep draw s).settle := by
  obtain ⟨e, u, h, -⟩ | ⟨h, -⟩ | ⟨h, -⟩ := init_cases draw s <;> rw [h]
  · exact sizeInv_of_idle rfl
  · exact sizeInv_of_idle rfl
  · exact (sizeInv_iff_of_scan_or_flush (.inl rfl)).2 (by simp [Ran.settle, headerBytes_length])

/-- END has 6 bytes (R121). -/
theorem encode_endFrame_length (ps : Params) (chk : Word) : (encode ps (.endFrame chk)).length = 6 := by simp [encode]

/-- TRAILER appends END alone (R139). -/
theorem trailerStep_sizeInv {s : State} (hi : EngineInv s) (hs : s.phase = .trailer) (h : SizeInv s) :
    SizeInv (trailerStep s).settle := by
  have hc := hi.cursor (.inr (.inr (.inl hs)))
  obtain ⟨hgo, -⟩ | ⟨e, u, hraised, -⟩ := trailer_cases s hc.out_le
  · have hle := (sizeInv_iff_of_trailer hs).1 h
    rw [hgo]
    refine (sizeInv_iff_of_done rfl).2 ?_
    show (s.out ++ encode s.params (.endFrame s.w.ck)).length ≤
      headerSize s.params + 6 + s.inLen.toNat + s.inLen.toNat / 33 + 3
    rw [List.length_append, encode_endFrame_length]
    omega
  · rw [hraised]
    exact sizeInv_of_idle rfl

/-- Every engine step keeps the size bound of R144, for every hash function. -/
theorem engineStepWith_keeps_sizeInv (hf : HashFn) {s : State} (hi : EngineInv s) (h : SizeInv s) :
    SizeInv (engineStepWith hf s) := by
  cases hs : s.phase with
  | idle => rwa [engineStepWith_of_idle hf hs]
  | init =>
    rw [engineStepWith_of_init hf hs]
    exact initStep_sizeInv _ s
  | scan =>
    rw [engineStepWith_of_scan hf hs]
    exact (scanStepWith_spells hf hi hs).sizeInv (scanStepWith_frames hf s) (.inl hs) h
  | flush =>
    rw [engineStepWith_of_flush hf hs]
    exact (flushStep_spells hi hs).sizeInv (flushStep_frames s) (.inr hs) h
  | trailer =>
    rw [engineStepWith_of_trailer hf hs]
    exact trailerStep_sizeInv hi hs h
  | done =>
    rw [engineStepWith_of_done hf hs]
    exact sizeInv_of_idle rfl
  | sum =>
    rw [engineStepWith_of_sum hf hs, sum_ok]
    exact sizeInv_of_idle rfl

/-! ### A sufficient sink (R144) -/

/-- A sufficient sink has room for the longest header, and for a frame within the size bound. -/
theorem room_of_sinkSuffices {s : State} (hp : s.params.Legal) (h : s.sinkSuffices) :
    headerSize s.params + 6 + s.inLen.toNat + s.inLen.toNat / 33 + 3 ≤ s.argOutCap.toNat := by
  have hhead := headerSize_le hp
  simp only [State.sinkSuffices, sinkBound] at h
  omega

/-- In a sufficient sink a part of a step that spells input goes on. -/
theorem Ran.SpellsInput.goes_on {r : Ran} {s : State} (h : r.SpellsInput s) (hp : s.params.Legal)
    (hs : s.phase = .scan ∨ s.phase = .flush) (hi : SizeInv s) (hsink : s.sinkSuffices) :
    ∃ u, r = .go u ∧ u.afterInit := by
  obtain ⟨upTo, extra, toks, hspells, hextra, ⟨u, hgo, -, -, hnext⟩ | ⟨e, u, -, hfull⟩⟩ := h
  · refine ⟨u, hgo, ?_⟩
    obtain ⟨hphase | hphase, -⟩ | hphase := hnext
    · exact .inl hphase
    · exact .inr (.inl hphase)
    · exact .inr (.inr (.inl hphase))
  · have hle := hspells.out_le hs hi
    have hin := hspells.le_inLen
    have hroom := room_of_sinkSuffices hp hsink
    omega

/-- In a sufficient sink INIT goes on to SCAN, or the command ends in the resource-failure outcome (R135, R150). -/
theorem initStep_goes_on {s : State} (draw : Bool) (hp : s.params.Legal) (hw : s.windowFits) (hsink : s.sinkSuffices) :
    (∃ u, initStep draw s = .go u ∧ u.phase = .scan) ∨
      (s.params.allocMayFail = true ∧ initStep draw s = .go (enterResourceFailure s)) := by
  have hroom := room_of_sinkSuffices hp hsink
  cases hdraw : s.params.allocMayFail && draw with
  | true =>
    obtain ⟨hmay, rfl⟩ := Bool.and_eq_true_iff.1 hdraw
    exact .inr ⟨hmay, initStep_of_draw hw hmay⟩
  | false => exact .inl ⟨_, initStep_of_room hw (Bool.and_eq_false_iff.1 hdraw) (by omega), rfl⟩

/-- In a sufficient sink TRAILER goes on to DONE (R139). -/
theorem trailerStep_goes_on {s : State} (hi : EngineInv s) (hs : s.phase = .trailer) (h : SizeInv s)
    (hsink : s.sinkSuffices) : ∃ u, trailerStep s = .go u ∧ u.phase = .done := by
  obtain ⟨hgo, -⟩ | ⟨e, u, -, -, -, hfull⟩ := trailer_cases s (hi.cursor (.inr (.inr (.inl hs)))).out_le
  · exact ⟨_, hgo, rfl⟩
  · have hle := (sizeInv_iff_of_trailer hs).1 h
    have hroom := room_of_sinkSuffices hi.params_legal hsink
    rw [encode_endFrame_length] at hfull
    omega

/-- In a sufficient sink a COMPRESS past INIT does not end before DONE (R144). -/
theorem engineStepWith_afterInit (hf : HashFn) {s : State} (hi : EngineInv s) (h : SizeInv s) (hsink : s.sinkSuffices)
    (hs : s.afterInit) (hdone : s.phase ≠ .done) : (engineStepWith hf s).afterInit := by
  obtain hs | hs | hs | hs := hs
  · obtain ⟨u, hgo, hafter⟩ := (scanStepWith_spells hf hi hs).goes_on hi.params_legal (.inl hs) h hsink
    rw [engineStepWith_of_scan hf hs, hgo]
    exact hafter
  · obtain ⟨u, hgo, hafter⟩ := (flushStep_spells hi hs).goes_on hi.params_legal (.inr hs) h hsink
    rw [engineStepWith_of_flush hf hs, hgo]
    exact hafter
  · obtain ⟨u, hgo, hphase⟩ := trailerStep_goes_on hi hs h hsink
    rw [engineStepWith_of_trailer hf hs, hgo]
    exact .inr (.inr (.inr hphase))
  · exact absurd hs hdone

end Sys2Proof.Machine
end

section
/-! SUPPORT. A reader reads a frame to its end (spec/42_opcode_encoder.md R111, spec/43_framing.md R124). -/

namespace Sys2Proof.Machine

theorem readerRun_succ {s t : State} (n : Nat) (h : readerTurn s = .next t) : readerRun (n + 1) s = readerRun n t := by
  rw [readerRun, h]

theorem readerRun_add {s t : State} {n : Nat} (m : Nat) (h : readerRun n s = .next t) :
    readerRun (n + m) s = readerRun m t := by
  induction n generalizing s with
  | zero =>
    cases h
    rw [Nat.zero_add]
  | succ n ih =>
    rw [Nat.succ_add]
    cases hturn : readerTurn s with
    | next u =>
      rw [readerRun_succ n hturn] at h
      rw [readerRun_succ _ hturn]
      exact ih h
    | fault f => simp [readerRun, hturn] at h
    | refused f => simp [readerRun, hturn] at h

/-- The reader with these bytes still to read and this decoded sequence. -/
def State.withReading (s : State) (src o : List Byte) : State := { s with rd := { s.rd with src := src, o := o } }

/-- Before a canonical token the reader's turn runs the token. -/
theorem readerTurn_of_encoding {s : State} {i : Instr} (rest o : List Byte) (hp : s.params.Legal)
    (hphase : s.rd.phase = .tokens) (hwf : i.wf = true) (hcanonical : canonical i = true) :
    readerTurn (s.withReading (encode s.params i ++ rest) o) = exec i (s.withReading rest o) := by
  set t := s.withReading (encode s.params i ++ rest) o
  have hdecode : decode t.params t.rd.src = .ok (i, rest) := decodeEncodeRoundTrip s.params i rest hp hwf
  rw [readerTurn_of_tokens (s := t) hphase, readToken_of_accepted hdecode (.inr hcanonical)]
  rfl

/-- The reader decodes the bytes of tokens to what the tokens decode to. -/
theorem readerRun_tokens {toks : List Instr} (ht : Emittable toks) {s : State} {rest o o' : List Byte} (hp : s.params.Legal)
    (hphase : s.rd.phase = .tokens) (h : runTokens toks (s.withDecoded o) = .next (s.withDecoded o')) :
    readerRun toks.length (s.withReading (tokenBytes s.params toks ++ rest) o) = .next (s.withReading rest o') := by
  induction toks generalizing o with
  | nil =>
    obtain rfl : o = o' := withDecoded_inj (Host.Outcome.next.inj h)
    rfl
  | cons i toks ih =>
    obtain ⟨hwf, hcanonical, hend⟩ := ht i List.mem_cons_self
    rw [runTokens] at h
    cases hexec : exec i (s.withDecoded o) with
    | next v =>
      obtain ⟨o1, rfl, hmoved⟩ := exec_move i hend s (s.withReading (tokenBytes s.params toks ++ rest) o) v o hexec
      have hbytes : tokenBytes s.params (i :: toks) ++ rest = encode s.params i ++ (tokenBytes s.params toks ++ rest) := by
        simp [tokenBytes]
      have hturn : readerTurn (s.withReading (tokenBytes s.params (i :: toks) ++ rest) o) =
          .next (s.withReading (tokenBytes s.params toks ++ rest) o1) := by
        rw [hbytes, readerTurn_of_encoding _ o hp hphase hwf hcanonical]
        exact hmoved
      rw [hexec] at h
      rw [List.length_cons, readerRun_succ _ hturn]
      exact ih (fun j hj => ht j (List.mem_cons_of_mem i hj)) h
    | fault f => simp [hexec] at h
    | refused f => simp [hexec] at h

/-- END ends the frame where the length and the checksum are right and nothing follows (R111, R124). -/
theorem exec_endFrame {s : State} {chk : Word} (hlen : s.rd.o.length = s.rd.len.toNat)
    (hchk : checksum s.params 1#32 s.rd.o = chk) (hsrc : s.rd.src = []) :
    exec (.endFrame chk) s = .next { s with rd := { s.rd with phase := .ended } } := by
  simp [exec, execEnd, hlen, hchk, hsrc]

/-- Header, tokens and END, with the length and the checksum of what the tokens decode to, are a frame of it. -/
theorem decodes_of_tokens {ps : Params} (hp : ps.Legal) {len window : Word} {toks : List Instr} {whole : List Byte}
    (hw : window.toNat < 256 ^ ps.winField.bytes) (ht : Emittable toks) (hlen : whole.length = len.toNat) {m : State}
    (hrun : runTokens toks (m.withDecoded []) = .next (m.withDecoded whole)) :
    Decodes ps (headerBytes ps len window ++ tokenBytes ps toks ++ encode ps (.endFrame (checksum ps 1#32 whole))) whole := by
  rintro s rfl
  set chk := checksum s.params 1#32 whole with hchk
  set frame := headerBytes s.params len window ++ tokenBytes s.params toks ++ encode s.params (.endFrame chk)
  set reading : State :=
    { giveFrame frame s with rd := { phase := .tokens, src := [], len := len, window := window, o := [] } }
  have hheader : readerTurn (giveFrame frame s) =
      .next (reading.withReading (tokenBytes s.params toks ++ encode s.params (.endFrame chk)) []) := by
    rw [readerTurn_of_header rfl]
    exact readHeader_of_headerBytes (List.append_assoc _ _ _) hw
  have htokens := readerRun_tokens ht (s := reading) (rest := encode s.params (.endFrame chk)) hp rfl
    (runTokens_moves ht reading hrun)
  have hend : readerTurn (reading.withReading (encode s.params (.endFrame chk)) whole) =
      .next { reading.withReading [] whole with rd := { (reading.withReading [] whole).rd with phase := .ended } } := by
    have hturn := readerTurn_of_encoding (s := reading) (i := .endFrame chk) [] whole hp rfl rfl rfl
    rw [List.append_nil] at hturn
    exact hturn.trans (exec_endFrame (s := reading.withReading [] whole) hlen hchk.symm rfl)
  have hread := (readerRun_succ (toks.length + 1) hheader).trans
    ((readerRun_add 1 htokens).trans (readerRun_succ 0 hend))
  exact ⟨_, _, hread, rfl, rfl⟩

end Sys2Proof.Machine
end

section
/-! The statement about a COMPRESS command as a whole (spec/45_commands.md R131, R141, R144, R145, spec/60_exceptions.md R150). -/

namespace Sys2Proof.Machine

/-- The engine ended a COMPRESS of the input of `s` with success, and the sink holds the frame (R131, R140, R141, R144). -/
def Delivered (s u : State) : Prop :=
  u.status = .doneOk ∧ u.resultChk = checksum s.params 1#32 (inputBytes s 0 s.inLen.toNat) ∧
  u.resultLen.toNat = u.out.length ∧ u.definedSink = u.out ∧
  u.out.length ≤ headerSize s.params + 6 + s.inLen.toNat + s.inLen.toNat / 33 + 3 ∧
  Decodes s.params u.out (inputBytes s 0 s.inLen.toNat)

/-- What is delivered depends on the parameters and the input alone. -/
theorem Delivered.of_frame {s t u : State} (h : Delivered t u) (hframe : EngineFrame s t) : Delivered s u := by
  have hpar : t.params = s.params := by rw [hframe]
  have hlen : t.inLen = s.inLen := by rw [hframe]
  rw [Delivered, hpar, hlen, inputBytes_congr hframe.input_eq] at h
  exact h

/-- A COMPRESS past INIT that will deliver: the invariants of R142 and R144 hold, and the sink suffices. -/
structure Delivering (s : State) : Prop where
  engineInv : EngineInv s
  frameInv : FrameInv s
  sizeInv : SizeInv s
  sink : s.sinkSuffices
  afterInit : s.afterInit

theorem sinkSuffices_of_frame {s t : State} (hframe : EngineFrame s t) (h : s.sinkSuffices) : t.sinkSuffices := by
  rw [hframe]
  exact h

/-- Until DONE every engine step leaves a command that will deliver. -/
theorem Delivering.step (hf : HashFn) {s : State} (h : Delivering s) (hdone : s.phase ≠ .done) :
    Delivering (engineStepWith hf s) where
  engineInv := engineStepWith_keeps_engineInv hf h.engineInv
  frameInv := engineStepWith_keeps_frameInv hf h.engineInv h.frameInv
  sizeInv := engineStepWith_keeps_sizeInv hf h.engineInv h.sizeInv
  sink := sinkSuffices_of_frame (engineStepWith_frame hf s) h.sink
  afterInit := engineStepWith_afterInit hf h.engineInv h.sizeInv h.sink h.afterInit hdone

/-- DONE delivers (R140). -/
theorem Delivering.delivered {s : State} (h : Delivering s) (hdone : s.phase = .done) : Delivered s (doneStep s) := by
  have hc := h.engineInv.cursor h.afterInit
  obtain ⟨toks, hframe⟩ := h.frameInv h.afterInit
  obtain ⟨hq, hlit⟩ := hc.at_end (.inr hdone)
  have hck : s.w.ck = checksum s.params 1#32 (inputBytes s 0 s.inLen.toNat) := by rw [hc.ck_eq, hq]
  have hlen : (doneStep s).resultLen.toNat = s.out.length := by
    have := hc.out_le
    have := s.argOutCap.isLt
    rw [doneStep_resultLen, State.outLen, BitVec.toNat_ofNat, Nat.mod_eq_of_lt (by omega)]
  have hsink : (doneStep s).definedSink = s.out := by
    have hcmd : (doneStep s).lastCmd = some .compress := h.engineInv.command (.inr h.afterInit)
    rw [definedSink_of_frame ((frameValid_iff _).2 ⟨rfl, hcmd⟩), hlen]
    exact List.take_length
  refine ⟨rfl, hck, hlen, hsink, (sizeInv_iff_of_done hdone).1 h.sizeInv, ?_⟩
  show Decodes s.params s.out _
  have hrun := hframe.decodes
  rw [hlit] at hrun
  rw [hframe.out_eq, if_pos hdone, hck]
  exact decodes_of_tokens h.engineInv.params_legal hframe.window_fits hframe.tokens_ok (inputBytes_length s 0 _) hrun

/-- An idle engine stays as it is. -/
theorem engineRunWith_of_idle (hf : HashFn) (n : Nat) {s : State} (h : s.phase = .idle) : engineRunWith hf n s = s := by
  induction n with
  | zero => rfl
  | succ n ih => rw [engineRunWith, engineStepWith_of_idle hf h, ih]

/-- So many engine steps as are left, or more, deliver (R145). -/
theorem Delivering.run (hf : HashFn) {n : Nat} {s : State} (h : Delivering s) (hn : s.stepsLeft ≤ n) :
    Delivered s (engineRunWith hf n s) := by
  induction n generalizing s with
  | zero =>
    have := stepsLeft_pos (ne_idle_of_afterInit h.afterInit)
    omega
  | succ n ih =>
    rw [engineRunWith]
    by_cases hdone : s.phase = .done
    · rw [engineStepWith_of_done hf hdone, engineRunWith_of_idle hf n rfl]
      exact h.delivered hdone
    · have hnext := h.step hf hdone
      have hfewer := (engineStepWith_progress hf h.engineInv (ne_idle_of_afterInit h.afterInit)).2
      exact (ih hnext (by omega)).of_frame (engineStepWith_frame hf s)

/-- Settles O59: after INIT the invariants hold until DONE, where they say that the output is a frame of the input. -/
theorem compressDeliversTheInput : Obligations.CompressDeliversTheInput := by
  intro hf s hi hs hw hsink
  have hstep : engineStepWith hf s = (initStep (Config.allocFails s.fresh) s).settle := engineStepWith_of_init hf hs
  obtain ⟨u, hgo, hphase⟩ | ⟨hmay, hgo⟩ := initStep_goes_on (Config.allocFails s.fresh) hi.params_legal hw hsink
  · have hframe := engineStepWith_frame hf s
    have hdelivering : Delivering (engineStepWith hf s) :=
      { engineInv := engineStepWith_keeps_engineInv hf hi
        frameInv := by rw [hstep]; exact initStep_frameInv _ s
        sizeInv := by rw [hstep]; exact initStep_sizeInv _ s
        sink := sinkSuffices_of_frame hframe hsink
        afterInit := by rw [hstep, hgo]; exact .inl hphase }
    have hfewer := (engineStepWith_progress hf hi (by simp [hs])).2
    have hbound := stepsLeft_le s
    exact .inl ((hdelivering.run hf (n := s.inLen.toNat + 4) (by omega)).of_frame hframe)
  · refine .inr ⟨hmay, ?_⟩
    rw [engineRunWith, hstep, hgo, Ran.settle, engineRunWith_of_idle hf _ rfl]
    exact ⟨rfl, rfl, rfl⟩

end Sys2Proof.Machine
end

section
/-! The statements about the acceptance policy, the match classes and a SCAN step that takes a match (spec/41_selector.md R100 to
R107, spec/45_commands.md R136). -/

namespace Sys2Proof.Machine

/-! ### The acceptance policy -/

/-- The policy of R100 as the shortest length each distance asks for. -/
theorem accept_iff {window : Word} {len d : Nat} :
    accept window len d = true ↔
      d ≤ window.toNat ∧ 3 ≤ len ∧ (256 < d → 6 ≤ len) ∧ (16384 < d → 8 ≤ len) ∧ (524288 < d → 10 ≤ len) := by
  simp only [accept, Bool.and_eq_true, Bool.or_eq_true, decide_eq_true_eq]
  omega

/-- Settles O35: the listed values by computation, the general cases by the least length (R100) and by the window. -/
theorem acceptCornerCases : Obligations.AcceptCornerCases := by
  refine ⟨by decide, by decide, fun window len d hlen => ?_, fun len d hd => ?_⟩ <;> rw [Bool.eq_false_iff] <;> intro hacc
  · have := accept_ge window len d hacc
    omega
  · exact absurd (dist_le_of_accept hacc) (Nat.not_le.2 hd)

/-! ### The match classes: one equation per class, and where none fits -/

theorem route_eq_smat {len dist : Nat} (h3 : 3 ≤ len) (hlen : len ≤ 128) (hd : dist ≤ 256) :
    route len dist = some .smat := if_pos ⟨h3, hlen, hd⟩

theorem route_eq_mmat {len dist : Nat} (hsmat : 128 < len ∨ 256 < dist) (h6 : 6 ≤ len) (hlen : len ≤ 256)
    (hd : dist ≤ 16384) : route len dist = some .mmat := by
  rw [route, if_neg (by omega), if_pos ⟨h6, hlen, hd⟩]

theorem route_eq_lmata {len dist : Nat} (hmmat : 16384 < dist) (h8 : 8 ≤ len) (hlen : len ≤ 256) (hd : dist ≤ 524288) :
    route len dist = some .lmata := by
  rw [route, if_neg (by omega), if_neg (by omega), if_pos ⟨h8, hlen, hd⟩]

theorem route_eq_lmatb {len dist : Nat} (hlong : 256 < len) (hlen : len ≤ 65536) (hd : dist ≤ 524288) :
    route len dist = some .lmatb := by
  rw [route, if_neg (by omega), if_neg (by omega), if_neg (by omega), if_pos (by omega)]

theorem route_of_far {len dist : Nat} (hfar : 524288 < dist) :
    route len dist =
      if 10 ≤ len ∧ dist ≤ 16777216 then if len ≤ 256 then some .xmat1 else some .xmat2 else none := by
  rw [route, if_neg (by omega), if_neg (by omega), if_neg (by omega), if_neg (by omega)]

/-- The table of R106: the class of an accepted candidate, by its distance and then by its length. -/
def acceptedRoute (len dist : Nat) : Option MatchClass :=
  if dist ≤ 256 then if len ≤ 128 then some .smat else if len ≤ 256 then some .mmat else some .lmatb
  else if dist ≤ 16384 then if len ≤ 256 then some .mmat else some .lmatb
  else if dist ≤ 524288 then if len ≤ 256 then some .lmata else some .lmatb
  else if dist ≤ 16777216 then if len ≤ 256 then some .xmat1 else some .xmat2
  else none

/-- An accepted candidate is long enough for the first class its distance and length leave (R106). -/
theorem route_of_accept {window : Word} {len dist : Nat} (hacc : accept window len dist = true) (hlen : len ≤ 65536) :
    route len dist = acceptedRoute len dist := by
  obtain ⟨-, h3, h6, h8, h10⟩ := accept_iff.1 hacc
  unfold acceptedRoute
  split
  case isTrue hd =>
    split
    case isTrue hshort => exact route_eq_smat h3 hshort hd
    split
    case isTrue hshort => exact route_eq_mmat (by omega) (by omega) hshort (by omega)
    case isFalse hlong => exact route_eq_lmatb (by omega) hlen (by omega)
  split
  case isTrue hd =>
    split
    case isTrue hshort => exact route_eq_mmat (by omega) (by omega) hshort hd
    case isFalse hlong => exact route_eq_lmatb (by omega) hlen (by omega)
  split
  case isTrue hd =>
    split
    case isTrue hshort => exact route_eq_lmata (by omega) (by omega) hshort hd
    case isFalse hlong => exact route_eq_lmatb (by omega) hlen hd
  case isFalse hfar =>
    rw [route_of_far (by omega)]
    exact if_congr (and_iff_right (h10 (by omega))) rfl rfl

/-- The table's entries up to 524288 are the four classes of the default window (R106). -/
theorem acceptedRoute_of_near {len dist : Nat} (hd : dist ≤ 524288) :
    acceptedRoute len dist = some .smat ∨ acceptedRoute len dist = some .mmat ∨ acceptedRoute len dist = some .lmata ∨
      acceptedRoute len dist = some .lmatb := by
  unfold acceptedRoute
  split_ifs <;> simp

theorem acceptedRoute_eq_none {len dist : Nat} (h : acceptedRoute len dist = none) : 16777216 < dist := by
  by_contra hd
  unfold acceptedRoute at h
  split_ifs at h
  omega

/-- Settles O36: `route_of_accept` is the table, `accept_iff` its bounds, and the default window ends before the far rows. -/
theorem routeTable : Obligations.RouteTable := by
  refine ⟨fun window len dist _ hlen hacc => ?_, fun len dist _ hlen hacc => ?_⟩
  · obtain ⟨hwindow, h3, h6, h8, h10⟩ := accept_iff.1 hacc
    exact ⟨route_of_accept hacc hlen, hwindow, fun _ => h3, h6, h8, h10⟩
  · have hwindow : dist ≤ 0x40000 := dist_le_of_accept hacc
    rw [route_of_accept hacc hlen]
    exact acceptedRoute_of_near (by omega)

theorem dist_le_of_route_smat {len d : Nat} (h : route len d = some .smat) : d ≤ 256 := by
  unfold route at h
  split at h
  case isTrue hsmat => exact hsmat.2.2
  case isFalse => split_ifs at h <;> cases h

/-- Settles O37: the table has no class beyond 16777216 alone, and a distance above 256 asks for 6 bytes. -/
theorem candidateLimits : Obligations.CandidateLimits := by
  refine ⟨fun window len d hacc hlen hnone => ?_, fun window len d _ hshort hd => ?_, fun len d => dist_le_of_route_smat⟩
  · rw [route_of_accept hacc hlen] at hnone
    have hfar := acceptedRoute_eq_none hnone
    exact ⟨hfar, hfar.trans_le (dist_le_of_accept hacc)⟩
  · rw [Bool.eq_false_iff]
    intro hacc
    obtain ⟨-, -, h6, -⟩ := accept_iff.1 hacc
    have := h6 hd
    omega

/-! ### A SCAN step that takes a match -/

/-- Settles O46: `scan_cases` at the finder's result, whose literal branch the class excludes and whose overflow the room. -/
theorem scanTakesMatch : Obligations.ScanTakesMatch := by
  intro hf s t cls hi hs hscan hfind hbest hroute run added hroom
  have hc := hi.cursor (.inl hs)
  obtain ⟨t', hfind', hfinder, -, -, -, -, hend⟩ := scan_cases hf s hi.params_legal hscan hc hi.table_rising
  obtain rfl : t' = t := Ran.go.inj (hfind'.symm.trans hfind)
  obtain ⟨-, -, -, -, hlit⟩ | ⟨cls', hroute', -, hmatch⟩ := hend
  · obtain hlit | hlit := hlit
    · omega
    · simp [hroute] at hlit
  · obtain rfl : cls' = cls := Option.some.inj (hroute'.symm.trans hroute)
    obtain ⟨u, hgo, hu, hq, hle, hck, -⟩ | ⟨e, u, -, -, -, hfull⟩ := hmatch
    · refine ⟨u, by rw [engineStepWith_of_scan hf hs, hgo]; rfl, ?_, by rw [hu]; exact hq, by rw [hu]; exact hq.trans_le hle, ?_⟩
      · unfold FinderFrame at hfinder
        rw [hu, hfinder]
        rfl
      · rw [hck, hc.checksum_advance hi.params_legal]
    · exact absurd hroom (Nat.not_le.2 hfull)

end Sys2Proof.Machine
end

section
/-! The statements about what a reader does with each token, and about the TRAILER step that appends END
(spec/42_opcode_encoder.md R111 to R121, spec/45_commands.md R139). -/

namespace Sys2Proof.Machine

/-! ### The copy of a match token -/

@[simp] theorem copyBack_zero (dist : Nat) (o : List Byte) : copyBack dist 0 o = o := rfl

theorem copyBack_succ (dist len : Nat) (o : List Byte) :
    copyBack dist (len + 1) o = copyBack dist len (o ++ [o.getD (o.length - dist) 0#8]) := rfl

/-- A copy extends what was decoded by as many bytes as it is long, for every distance. -/
theorem copyBack_eq_append (dist len : Nat) (o : List Byte) :
    ∃ added, added.length = len ∧ copyBack dist len o = o ++ added := by
  induction len generalizing o with
  | zero => exact ⟨[], rfl, by simp⟩
  | succ len ih =>
    obtain ⟨added, hlen, hcopy⟩ := ih (o ++ [o.getD (o.length - dist) 0#8])
    exact ⟨o.getD (o.length - dist) 0#8 :: added, by simp [hlen], by rw [copyBack_succ, hcopy]; simp⟩

theorem copyBack_length (dist len : Nat) (o : List Byte) : (copyBack dist len o).length = o.length + len := by
  obtain ⟨added, hlen, hcopy⟩ := copyBack_eq_append dist len o
  rw [hcopy, List.length_append, hlen]

theorem copyBack_getElem?_of_lt (dist len : Nat) {o : List Byte} {i : Nat} (hi : i < o.length) :
    (copyBack dist len o)[i]? = o[i]? := by
  obtain ⟨added, -, hcopy⟩ := copyBack_eq_append dist len o
  rw [hcopy, List.getElem?_append_left hi]

/-- The first copied byte is the one read before the rest of the copy runs; the rest copies from the sequence it extends. -/
theorem copyBack_getElem?_of_ge {dist : Nat} (hd : 1 ≤ dist) {len : Nat} {o : List Byte} (hle : dist ≤ o.length) {i : Nat}
    (hi : o.length ≤ i) (hlt : i < o.length + len) : (copyBack dist len o)[i]? = (copyBack dist len o)[i - dist]? := by
  induction len generalizing o with
  | zero => omega
  | succ len ih =>
    rw [copyBack_succ]
    have hgrown : (o ++ [o.getD (o.length - dist) 0#8]).length = o.length + 1 := by simp
    obtain rfl | hlater := Nat.eq_or_lt_of_le hi
    · have hsource : o.length - dist < o.length := by omega
      rw [copyBack_getElem?_of_lt _ _ (by omega), copyBack_getElem?_of_lt _ _ (by omega),
        List.getElem?_concat_length, List.getElem?_append_left hsource, List.getD_eq_getElem _ _ hsource,
        List.getElem?_eq_getElem hsource]
    · exact ih (by omega) (by omega) (by omega)

/-- Settles O11: the copy extends what was decoded (`copyBack_eq_append`), and each byte it adds is the one `dist` before it. -/
theorem copyBackBytes : Obligations.CopyBackBytes := fun dist len o hd hle =>
  ⟨copyBack_length dist len o, fun _ hi => copyBack_getElem?_of_lt dist len hi,
    fun _ hi hlt => copyBack_getElem?_of_ge hd hle hi hlt⟩

/-! ### What a token can do -/

/-- The six match tokens are one operation (R111). -/
theorem exec_matchToken (c : MatchClass) (len dist : Nat) (s : State) :
    exec (c.token len dist) s = copyMatch len dist s := by cases c <;> rfl

theorem copyMatch_of_reaches {len dist : Nat} {s : State} (hd : 1 ≤ dist) (hle : dist ≤ s.rd.o.length) :
    copyMatch len dist s = .next { s with rd := { s.rd with o := copyBack dist len s.rd.o } } := if_pos ⟨hd, hle⟩

theorem copyMatch_of_beyond {len dist : Nat} {s : State} (h : dist = 0 ∨ s.rd.o.length < dist) :
    copyMatch len dist s = .fault .distanceBeyondOutput := if_neg (by omega)

/-- A match token that completes appends as many bytes as it is long. -/
theorem copyMatch_eq_next {len dist : Nat} {s t : State} (h : copyMatch len dist s = .next t) :
    ∃ added, added.length = len ∧ t = appendRun added s := by
  unfold copyMatch at h
  split at h
  case isTrue =>
    obtain ⟨added, hlen, hcopy⟩ := copyBack_eq_append dist len s.rd.o
    rw [hcopy] at h
    exact ⟨added, hlen, (Host.Outcome.next.inj h).symm⟩
  case isFalse => cases h

/-- END that completes moves the reader's phase alone. -/
theorem execEnd_eq_next {chk : Word} {s t : State} (h : execEnd chk s = .next t) :
    t = { s with rd := { s.rd with phase := .ended } } := by
  unfold execEnd at h
  split_ifs at h
  exact (Host.Outcome.next.inj h).symm

/-- A token that completes appends the bytes it stands for, or is END and ends the frame (R111). -/
theorem exec_eq_next {i : Instr} {s t : State} (h : exec i s = .next t) :
    (∃ added, added.length = tokenSpan i ∧ t = appendRun added s) ∨
      (∃ chk, i = .endFrame chk) ∧ tokenSpan i = 0 ∧ t = { s with rd := { s.rd with phase := .ended } } := by
  cases i with
  | slit lits => exact .inl ⟨lits, rfl, (Host.Outcome.next.inj h).symm⟩
  | mlit lits => exact .inl ⟨lits, rfl, (Host.Outcome.next.inj h).symm⟩
  | llit lits => exact .inl ⟨lits, rfl, (Host.Outcome.next.inj h).symm⟩
  | endFrame chk => exact .inr ⟨⟨chk, rfl⟩, rfl, execEnd_eq_next h⟩
  | _ len dist => exact .inl (copyMatch_eq_next h)

/-- Settles O15: the two ways a token can complete, `exec_eq_next`. -/
theorem tokensLeaveEngineAlone : Obligations.TokensLeaveEngineAlone := by
  intro i s t h
  obtain ⟨added, hspan, rfl⟩ | ⟨⟨chk, rfl⟩, hspan, rfl⟩ := exec_eq_next h
  · exact ⟨rfl, fun _ => rfl, ⟨added, rfl, hspan⟩, fun _ => rfl⟩
  · exact ⟨rfl, fun _ => rfl, ⟨[], by simp, hspan.symm⟩, fun hend => absurd rfl (hend chk)⟩

/-- Settles O9: each of the three is `appendRun`, by definition. -/
theorem literalTokensAppend : Obligations.LiteralTokensAppend := fun _ _ => ⟨rfl, rfl, rfl⟩

/-- Settles O10: `copyMatch_of_reaches` at each of the six classes. -/
theorem matchTokensCopy : Obligations.MatchTokensCopy := by
  intro len dist s hd hle t
  have hcopy (c : MatchClass) : exec (c.token len dist) s = .next t :=
    (exec_matchToken c len dist s).trans (copyMatch_of_reaches hd hle)
  exact ⟨hcopy .smat, hcopy .mmat, hcopy .lmata, hcopy .lmatb, hcopy .xmat1, hcopy .xmat2⟩

/-- Settles O12: `copyMatch_of_beyond` at each of the six classes. -/
theorem matchTokensRejectDistance : Obligations.MatchTokensRejectDistance := by
  intro len dist s hbeyond
  have hfault (c : MatchClass) : exec (c.token len dist) s = .fault .distanceBeyondOutput :=
    (exec_matchToken c len dist s).trans (copyMatch_of_beyond hbeyond)
  exact ⟨hfault .smat, hfault .mmat, hfault .lmata, hfault .lmatb, hfault .xmat1, hfault .xmat2⟩

/-! ### END -/

/-- Settles O13: END where each of its three checks holds, `exec_endFrame`. -/
theorem endEndsTheFrame : Obligations.EndEndsTheFrame := fun _ _ => exec_endFrame

theorem exec_endFrame_of_wrong_length {s : State} (chk : Word) (hlen : s.rd.o.length ≠ s.rd.len.toNat) :
    exec (.endFrame chk) s = .fault .frameLengthMismatch := if_pos hlen

theorem exec_endFrame_of_wrong_checksum {s : State} {chk : Word} (hlen : s.rd.o.length = s.rd.len.toNat)
    (hchk : checksum s.params 1#32 s.rd.o ≠ chk) : exec (.endFrame chk) s = .fault .frameChecksumMismatch :=
  (if_neg (not_not.2 hlen)).trans (if_pos hchk)

theorem exec_endFrame_of_trailing {s : State} {chk : Word} (hlen : s.rd.o.length = s.rd.len.toNat)
    (hchk : checksum s.params 1#32 s.rd.o = chk) (hsrc : s.rd.src ≠ []) :
    exec (.endFrame chk) s = .fault .trailingBytes :=
  (if_neg (not_not.2 hlen)).trans ((if_neg (not_not.2 hchk)).trans (if_pos hsrc))

/-- Settles O14: each check of END fails after those before it hold. -/
theorem endRejectsBadFrame : Obligations.EndRejectsBadFrame := fun chk _ =>
  ⟨exec_endFrame_of_wrong_length chk, exec_endFrame_of_wrong_checksum, exec_endFrame_of_trailing⟩

/-! ### The TRAILER step -/

/-- A fault marks the run (R156). -/
theorem enterFault_faultMark_ne_none (e : Exc) (s : State) : (enterFault e s).faultMark ≠ none := by
  show (s.faultMark.orElse fun _ => some e) ≠ none
  cases s.faultMark <;> simp

theorem enterFault_resultLenValid (e : Exc) (s : State) : (enterFault e s).resultLenValid = false :=
  (resultLenValid_eq_false_iff _).2 (by simp)

theorem enterFault_resultChkValid (e : Exc) (s : State) : (enterFault e s).resultChkValid = false :=
  (resultChkValid_eq_false_iff _).2 (by simp)

/-- Settles O48: the two ways TRAILER ends, `trailer_cases`, each of which excludes the other's premise. -/
theorem trailerStepOutcomes : Obligations.TrailerStep := by
  intro s hs hle trailer
  obtain ⟨hgo, hroom⟩ | ⟨e, u, hraised, rfl, hu, hfull⟩ := trailer_cases s hle
  · refine ⟨fun _ => ?_, fun hover => absurd hroom (by omega)⟩
    rw [engineStep, engineStepWith_of_trailer _ hs, hgo]
    rfl
  · rw [encode_endFrame_length] at hfull
    have hfault : engineStep s = enterFault (.outputOverflow s.argOutCap) u := by
      rw [engineStep, engineStepWith_of_trailer _ hs, hraised]
      rfl
    refine ⟨fun hroom => absurd hroom (by omega), fun _ => ⟨_, hfault, rfl, rfl, rfl, rfl, ?_,
      enterFault_resultLenValid _ _, enterFault_resultChkValid _ _, enterFault_faultMark_ne_none _ _⟩⟩
    rw [enterFault_out, hu]
    rfl

end Sys2Proof.Machine
end

section
/-! The statement about the frame of no input (spec/43_framing.md R125): what each step of a COMPRESS does when nothing is left to
take. -/

namespace Sys2Proof.Machine

/-- Off the scan positions SCAN only moves to FLUSH (R136). -/
theorem engineStep_of_scan_tail {s : State} (hs : s.phase = .scan) (htail : s.atScanPosition = false) :
    engineStep s = { s with phase := .flush } := by
  rw [engineStep, engineStepWith_of_scan _ hs, scan_ends _ s (by simp [htail])]
  rfl

/-- There is no scan position in no input (R136). -/
theorem atScanPosition_of_no_input {s : State} (hin : s.inLen = 0#32) : s.atScanPosition = false := by
  simp [State.atScanPosition, hin]

/-- No byte goes into the checksum where the cursor has no lead (R129). -/
theorem foldToCursor_of_caught_up {s : State} (h : s.w.ckpos = s.w.q) : foldToCursor s = .go s :=
  if_pos (by rw [h, Nat.sub_self])

/-- No token is appended for an empty run (R109). -/
theorem emitLiterals_zero (p : Nat) (s : State) : emitLiterals p 0 s = .go s := by
  rw [emitLiterals, Nat.zero_sub, Nat.zero_div]
  rfl

/-- FLUSH where every input byte is summed and emitted appends nothing (R138). -/
theorem engineStep_of_flush_nothing_left {s : State} (hs : s.phase = .flush) (hlit : s.w.litStart = s.inLen)
    (hck : s.w.ckpos = s.inLen) :
    engineStep s = { s with w := { s.w with q := s.inLen, litStart := s.inLen }, phase := .trailer } := by
  have hflush : flushStep s = .go { s with w := { s.w with q := s.inLen, litStart := s.inLen }, phase := .trailer } := by
    rw [flushStep, foldToCursor_of_caught_up hck, andThen_go, hlit, Nat.sub_self, emitLiterals_zero]
    rfl
  rw [engineStep, engineStepWith_of_flush _ hs, hflush]
  rfl

/-- TRAILER with room for END (R139). -/
theorem engineStep_of_trailer_room {s : State} (hs : s.phase = .trailer) (hroom : s.out.length + 6 ≤ s.argOutCap.toNat) :
    engineStep s = { s with out := s.out ++ encode s.params (.endFrame s.w.ck), phase := .done } :=
  (trailerStepOutcomes s hs (by omega)).1 hroom

/-- So many steps end the command with success, and END is all that they append (R121, R139). -/
def EndsWithEnd (n : Nat) (s : State) : Prop :=
  (engineRun n s).status = .doneOk ∧ (engineRun n s).out = s.out ++ encode s.params (.endFrame s.w.ck)

/-- TRAILER and DONE are left. -/
theorem endsWithEnd_of_trailer {s : State} (hs : s.phase = .trailer) (hroom : s.out.length + 6 ≤ s.argOutCap.toNat) :
    EndsWithEnd 2 s := by
  have hrun : engineRun 2 s = engineStep (engineStep s) := rfl
  rw [EndsWithEnd, hrun, engineStep_of_trailer_room hs hroom, engineStep, engineStepWith_of_done _ rfl]
  exact ⟨rfl, rfl⟩

/-- FLUSH appends nothing where no byte is left. -/
theorem endsWithEnd_of_flush {s : State} (hs : s.phase = .flush) (hlit : s.w.litStart = s.inLen)
    (hck : s.w.ckpos = s.inLen) (hroom : s.out.length + 6 ≤ s.argOutCap.toNat) : EndsWithEnd 3 s := by
  have hrun : engineRun 3 s = engineRun 2 (engineStep s) := rfl
  rw [EndsWithEnd, hrun, engineStep_of_flush_nothing_left hs hlit hck]
  exact endsWithEnd_of_trailer rfl hroom

/-- SCAN finds no position in no input, so that nothing stands between what it starts from and END (R125). -/
theorem endsWithEnd_of_scan {s : State} (hs : s.phase = .scan) (hin : s.inLen = 0#32) (hlit : s.w.litStart = s.inLen)
    (hck : s.w.ckpos = s.inLen) (hroom : s.out.length + 6 ≤ s.argOutCap.toNat) : EndsWithEnd 4 s := by
  have hrun : engineRun 4 s = engineRun 3 (engineStep s) := rfl
  rw [EndsWithEnd, hrun, engineStep_of_scan_tail hs (atScanPosition_of_no_input hin)]
  exact endsWithEnd_of_flush rfl hlit hck hroom

/-- Settles O60: INIT writes the header and the seed 1, to which the four further steps add END; the 22 bytes by computation. -/
theorem emptyInputFrame : Obligations.EmptyInputFrame := by
  refine ⟨fun s hi hs hw hsink hin hdraw => ?_, by decide⟩
  have hroom := room_of_sinkSuffices hi.params_legal hsink
  set header : State :=
    { initCommand s with out := headerBytes s.params s.inLen s.cfgWindow, phase := .scan, fresh := s.fresh + 1 }
  have hinit : engineStep s = header := by
    rw [engineStep, engineStepWith_of_init _ hs, initStep_of_room hw hdraw (by omega)]
    rfl
  have hfits : header.out.length + 6 ≤ header.argOutCap.toNat := by
    show (headerBytes s.params s.inLen s.cfgWindow).length + 6 ≤ s.argOutCap.toNat
    rw [headerBytes_length]
    omega
  obtain ⟨hstatus, hout⟩ := endsWithEnd_of_scan (s := header) rfl hin hin.symm hin.symm hfits
  have hrun : engineRun 5 s = engineRun 4 header := congrArg (engineRun 4) hinit
  rw [hrun, ← initCommand_ck s, ← hin]
  exact ⟨hstatus, hout⟩

end Sys2Proof.Machine
end

section
/-! SUPPORT. The checksum with intermediate reductions, the bound within a block, and the statements about the checksum
(spec/44_checksum.md R127, R128, R130, R132). -/

namespace Sys2Proof.Machine

/-! ### Reduction at intermediate points -/

/-- The joined value is the residues' alone. -/
theorem joinSums_reduceSums (m : Nat) (a : Nat × Nat) : joinSums m (reduceSums m a) = joinSums m a :=
  joinSums_congr m _ _ (Nat.mod_modEq _ _) (Nat.mod_modEq _ _)

/-- A reduction before some bytes does not change the residues after them (R128). -/
theorem reduceSums_foldl_reduceSums (m : Nat) (bs : List Byte) (a : Nat × Nat) :
    reduceSums m (bs.foldl sumStep (reduceSums m a)) = reduceSums m (bs.foldl sumStep a) := by
  obtain ⟨h1, h2⟩ := foldl_sumStep_modEq (m := m) bs (a := reduceSums m a) (c := a) (Nat.mod_modEq _ _) (Nat.mod_modEq _ _)
  exact Prod.ext h1 h2

/-- Full blocks with a reduction after each have the residues of the bytes summed without one (R128). -/
theorem reduceSums_blockSums (m blocks : Nat) {bs : List Byte} (a : Nat × Nat) (hlen : bs.length = blocks * sumBlock) :
    reduceSums m (blockSums m blocks bs a) = reduceSums m (bs.foldl sumStep a) := by
  induction blocks generalizing bs a with
  | zero =>
    have hbs : bs = [] := List.length_eq_zero_iff.mp (by omega)
    rw [hbs]
    rfl
  | succ blocks ih =>
    have hrest : (bs.drop sumBlock).length = blocks * sumBlock := by
      rw [List.length_drop, hlen, Nat.succ_mul, Nat.add_sub_cancel]
    rw [blockSums, ih _ hrest, reduceSums_foldl_reduceSums, ← List.foldl_append, List.take_append_drop]

/-- The blocked computation gives the checksum: its blocks are full, for its first one took the remainder (R128). -/
theorem checksumBlocked_eq_checksum (ps : Params) (seed : Word) (bs : List Byte) :
    checksumBlocked ps seed bs = checksum ps seed bs := by
  by_cases hbs : bs = []
  · rw [hbs, checksumBlocked, if_pos rfl, checksum_nil]
  have hfull : (bs.drop (bs.length % sumBlock)).length = bs.length / sumBlock * sumBlock := by
    have := Nat.div_add_mod' bs.length sumBlock
    rw [List.length_drop]
    omega
  rw [checksumBlocked, if_neg hbs, checksum_of_ne_nil ps seed hbs, ← joinSums_reduceSums, reduceSums_blockSums _ _ _ hfull,
    reduceSums_foldl_reduceSums, ← List.foldl_append, List.take_append_drop, joinSums_reduceSums]

/-! ### The sums within a block -/

/-- The second sum holds the first as it is after the last byte, if there is one. -/
theorem foldl_sumStep_fst_le (bs : List Byte) {m : Nat} {a : Nat × Nat} (h : a.1 ≤ a.2 + m) :
    (bs.foldl sumStep a).1 ≤ (bs.foldl sumStep a).2 + m := by
  induction bs generalizing a with
  | nil => exact h
  | cons b bs ih => exact ih (show a.1 + b.toNat ≤ a.2 + (a.1 + b.toNat) + m by omega)

/-- The `k`-th byte adds at most `a.1 + 255 * k` to the second sum; doubled, for `1 + … + n` is `n * (n + 1) / 2`. -/
theorem two_mul_foldl_sumStep_snd_le (bs : List Byte) (a : Nat × Nat) :
    2 * (bs.foldl sumStep a).2 ≤ 2 * a.2 + 2 * (bs.length * a.1) + 255 * (bs.length * (bs.length + 1)) := by
  induction bs generalizing a with
  | nil => simp
  | cons b bs ih =>
    have hb : b.toNat ≤ 255 := Nat.le_of_lt_succ b.isLt
    have hbs : bs.length * b.toNat ≤ bs.length * 255 := Nat.mul_le_mul_left _ hb
    calc 2 * ((b :: bs).foldl sumStep a).2
        ≤ 2 * (a.2 + (a.1 + b.toNat)) + 2 * (bs.length * (a.1 + b.toNat)) + 255 * (bs.length * (bs.length + 1)) :=
          ih (sumStep a b)
      _ ≤ 2 * a.2 + 2 * ((b :: bs).length * a.1) + 255 * ((b :: bs).length * ((b :: bs).length + 1)) := by
          rw [List.length_cons]
          linarith

/-- R128's bound `5553 * 65535 + 255 * 5552 * 5553 / 2` on the second sum after a block. -/
theorem foldl_sumStep_snd_le_of_block {a : Nat × Nat} {bs : List Byte} (h1 : a.1 ≤ 65535) (h2 : a.2 ≤ 65535)
    (hlen : bs.length ≤ 5552) : (bs.foldl sumStep a).2 ≤ 4294773495 := by
  have hsum := two_mul_foldl_sumStep_snd_le bs a
  have hfirst : bs.length * a.1 ≤ 5552 * 65535 := Nat.mul_le_mul hlen h1
  have hbytes : bs.length * (bs.length + 1) ≤ 5552 * 5553 := Nat.mul_le_mul hlen (Nat.succ_le_succ hlen)
  omega

/-! ### The statements -/

/-- Settles O40: `checksum_append`, for the residues of the intermediate value continue the same sums. -/
theorem checksumComposes : Obligations.ChecksumComposes :=
  fun _ seed a b hp => checksum_append hp seed a b

/-- Settles O41: reductions keep the residues (`checksumBlocked_eq_checksum`), and a block's sums have R128's bound. -/
theorem checksumBlockedWithoutOverflow : Obligations.ChecksumBlocked :=
  ⟨checksumBlocked_eq_checksum, fun _ bs h1 h2 hlen =>
    ⟨foldl_sumStep_fst_le bs (h1.trans (Nat.le_add_left _ _)), foldl_sumStep_snd_le_of_block h1 h2 hlen⟩⟩

/-- Settles O42: no bytes return the seed (`checksum_nil`), the other values by computation. -/
theorem checksumCorners : Obligations.ChecksumCorners :=
  ⟨checksum_nil _ _, checksum_nil _ _, by decide⟩

end Sys2Proof.Machine
end

section
/-! SUPPORT. What a turn can do to the engine, whoever acts: the engine's own step, nothing the engine reads, or a move that leaves no
COMPRESS past INIT (spec/10_state.md R15, spec/70_reset_and_hazards.md R166, R169, R177). -/

namespace Sys2Proof.Machine

/-! ### Turns that leave the engine as it is -/

/-- The reader, the agenda, the last reply, the refusal mark and the count of free values may differ: no register or store of the
engine or of its host interface does. -/
def EngineUntouched (s t : State) : Prop :=
  t = { s with rd := t.rd, agenda := t.agenda, reply := t.reply, refusedMark := t.refusedMark, fresh := t.fresh }

theorem EngineUntouched.trans {s t u : State} (h1 : EngineUntouched s t) (h2 : EngineUntouched t u) :
    EngineUntouched s u := by
  unfold EngineUntouched at *
  rw [h2, h1]

theorem dropTurn_untouched (s : State) : EngineUntouched s (dropTurn s) := rfl

theorem EngineUntouched.afterInit_iff {s t : State} (h : EngineUntouched s t) : t.afterInit ↔ s.afterInit := by
  rw [h]
  rfl

/-- The invariant of a command speaks of the engine alone. -/
theorem CursorInv.of_untouched {s t : State} (h : EngineUntouched s t) (hc : CursorInv s) : CursorInv t := by
  rw [h]
  exact ⟨hc.lit_le, hc.q_le, hc.ckpos_eq, hc.ck_eq, hc.table_lt, hc.out_le, hc.flush_tail, hc.at_end⟩

/-- The invariant of the machine speaks of the engine alone. -/
theorem EngineInv.of_untouched {s t : State} (h : EngineUntouched s t) (hi : EngineInv s) : EngineInv t where
  params_legal := by rw [h]; exact hi.params_legal
  input_wf := by rw [h]; exact hi.input_wf
  table_rising := by rw [h]; exact hi.table_rising
  hash_bits_le := by rw [h]; exact hi.hash_bits_le
  busy_iff := by rw [h]; exact hi.busy_iff
  command := by rw [h]; exact hi.command
  command_sum := by rw [h]; exact hi.command_sum
  cursor := fun ht => (hi.cursor (h.afterInit_iff.1 ht)).of_untouched h

/-- The frame is the engine's, and its tokens decode alike on every reader. -/
theorem FrameInv.of_untouched {s t : State} (h : EngineUntouched s t) (hi : FrameInv s) : FrameInv t := by
  intro ht
  obtain ⟨toks, hframe⟩ := hi (h.afterInit_iff.1 ht)
  have hinput : t.input = s.input := by rw [h]
  have hlit : t.w.litStart = s.w.litStart := by rw [h]
  refine ⟨toks, by rw [h]; exact hframe.window_fits, by rw [h]; exact hframe.out_eq, hframe.tokens_ok, ?_⟩
  rw [inputBytes_congr hinput, hlit]
  exact runTokens_moves hframe.tokens_ok t hframe.decodes

/-- The size bound speaks of the engine alone. -/
theorem SizeInv.of_untouched {s t : State} (h : EngineUntouched s t) (hi : SizeInv s) : SizeInv t := by
  rw [h]
  exact hi

/-! ### States with no COMPRESS past INIT -/

theorem frameInv_of_not_afterInit {s : State} (h : ¬ s.afterInit) : FrameInv s := fun hafter => absurd hafter h

theorem sizeInv_of_not_afterInit {s : State} (h : ¬ s.afterInit) : SizeInv s := by
  simp only [State.afterInit, not_or] at h
  simp [SizeInv, h]

theorem resetEngine_not_afterInit (s : State) : ¬ (resetEngine s).afterInit := fun h => ne_idle_of_afterInit h rfl

/-- The reset state is legal over legal parameters and a legal input (R166). -/
theorem resetEngine_engineInv {s : State} (hp : s.params.Legal) (hinput : s.input.wf s.params.lenMax) :
    EngineInv (resetEngine s) where
  params_legal := hp
  input_wf := hinput
  table_rising := List.Pairwise.nil
  hash_bits_le := show (15 : Nat) ≤ 32 by decide
  busy_iff := show Status.idle = .busy ↔ Phase.idle ≠ .idle by decide
  command := fun h => absurd h (not_or_intro (show Phase.idle ≠ .init by decide) (resetEngine_not_afterInit s))
  command_sum := fun h => absurd h (show Phase.idle ≠ .sum by decide)
  cursor := fun h => absurd h (resetEngine_not_afterInit s)

/-- Settles O52: the machine after power-on is its own reset state, over the default parameters and no input. -/
theorem engineInvAtReset : Obligations.EngineInvAtReset :=
  resetEngine_engineInv (s := State.reset) params_legal ⟨List.Pairwise.nil, List.forall_mem_nil _⟩

/-! ### The host's moves -/

/-- A turn leaves the engine as it is, or it leaves the invariant and no COMPRESS past INIT. -/
def LeavesEngine (s t : State) : Prop := EngineUntouched s t ∨ EngineInv t ∧ ¬ t.afterInit

/-- When no command is in progress the host may write configuration, arguments and input that are legal. -/
theorem leavesEngine_of_write {s t : State} (hi : EngineInv s) (hb : s.status ≠ .busy)
    (h : t = { s with
      cfgWindow := t.cfgWindow, cfgHashBits := t.cfgHashBits, cmd := t.cmd, argLen := t.argLen, argSeed := t.argSeed,
      argOutCap := t.argOutCap, input := t.input, reply := t.reply })
    (hbits : t.cfgHashBits.toNat ≤ Config.hashBitsMax) (hinput : t.input.wf t.params.lenMax) : LeavesEngine s t := by
  have hphase : t.phase = .idle := by
    rw [h]
    by_contra hne
    exact hb (hi.busy_iff.2 hne)
  have hafter : ¬ t.afterInit := fun ht => ne_idle_of_afterInit ht hphase
  have hstatus : t.status ≠ .busy := by rw [h]; exact hb
  exact .inr ⟨
    { params_legal := by rw [h]; exact hi.params_legal
      input_wf := hinput
      table_rising := by rw [h]; exact hi.table_rising
      hash_bits_le := hbits
      busy_iff := by simp [hphase, hstatus]
      command := by simp [hphase, hafter]
      command_sum := by simp [hphase]
      cursor := fun ht => absurd ht hafter }, hafter⟩

/-- A register write that keeps the hash width and the input. -/
theorem writeUnlessBusy_leavesEngine {s : State} (hi : EngineInv s) (why : HostRefusal) {write : State → State}
    (h : ∀ t, write t = { t with
      cfgWindow := (write t).cfgWindow, cmd := (write t).cmd, argLen := (write t).argLen, argSeed := (write t).argSeed,
      argOutCap := (write t).argOutCap }) : LeavesEngine s (writeUnlessBusy why s write) := by
  by_cases hb : s.status = .busy
  · rw [writeUnlessBusy, if_pos hb]
    exact .inl rfl
  · rw [writeUnlessBusy_of_not_busy hb, h]
    exact leavesEngine_of_write hi hb rfl hi.hash_bits_le hi.input_wf

theorem writeHashBits_leavesEngine {s : State} (hi : EngineInv s) (v : BitVec 6) : LeavesEngine s (writeHashBits v s) := by
  unfold writeHashBits
  split_ifs with hb hv
  · exact .inl rfl
  · exact .inl rfl
  · exact leavesEngine_of_write hi hb rfl (Nat.le_of_not_lt hv) hi.input_wf

theorem placeInput_leavesEngine {s t : State} (hi : EngineInv s) {p : Word} {bs : List Byte}
    (h : placeInput p bs s = .next t) : LeavesEngine s t := by
  unfold placeInput at h
  split_ifs at h with hb hfit
  obtain rfl := Host.Outcome.next.inj h
  exact leavesEngine_of_write hi hb rfl hi.hash_bits_le (s.input.writeAll_wf bs p.toNat hi.input_wf hfit)

/-- A valid command is taken when no command is in progress (R133). -/
theorem startCommand_of_command {s : State} {c : Command} (hb : s.status ≠ .busy) (hc : Command.ofCode s.cmd = some c) :
    startCommand s =
      { forgetExc (forgetResults s) with
        status := .busy, inLen := s.argLen, phase := c.firstPhase, lastCmd := some c, reply := .nothing } := by
  rw [startCommand, if_neg hb, hc]

/-- A command begins before SCAN, each in a phase of its own (R133). -/
theorem firstPhase_begins (c : Command) :
    c.firstPhase ≠ .idle ∧
    ¬ (c.firstPhase = .scan ∨ c.firstPhase = .flush ∨ c.firstPhase = .trailer ∨ c.firstPhase = .done) ∧
    (c.firstPhase = .init → c = .compress) ∧ (c.firstPhase = .sum → c = .checksum) := by
  cases c <;> decide

/-- A start is refused, or the first step of the command comes next. -/
theorem startCommand_leavesEngine {s : State} (hi : EngineInv s) : LeavesEngine s (startCommand s) := by
  by_cases hb : s.status = .busy
  · rw [startCommand, if_pos hb]
    exact .inl rfl
  cases hc : Command.ofCode s.cmd with
  | none =>
    rw [startCommand, if_neg hb, hc]
    exact .inl rfl
  | some c =>
    rw [startCommand_of_command hb hc]
    obtain ⟨hidle, hafter, hinit, hsum⟩ := firstPhase_begins c
    exact .inr ⟨
      { params_legal := hi.params_legal
        input_wf := hi.input_wf
        table_rising := hi.table_rising
        hash_bits_le := hi.hash_bits_le
        busy_iff := iff_of_true rfl hidle
        command := fun h => congrArg some (h.elim hinit fun h => absurd h hafter)
        command_sum := fun h => congrArg some (hsum h)
        cursor := fun h => absurd h hafter }, hafter⟩

theorem readResult_untouched {valid : Bool} {v : CountWord} {s t : State} (h : readResult valid v s = .next t) :
    EngineUntouched s t := by
  unfold readResult at h
  split_ifs at h
  obtain rfl := Host.Outcome.next.inj h
  rfl

theorem readConfig_untouched {v : CountWord} {s t : State} (h : readConfig v s = .next t) : EngineUntouched s t := by
  unfold readConfig at h
  split_ifs at h
  obtain rfl := Host.Outcome.next.inj h
  rfl

theorem readFrame_untouched {s t : State} (h : readFrame s = .next t) : EngineUntouched s t := by
  unfold readFrame at h
  split_ifs at h <;> obtain rfl := Host.Outcome.next.inj h <;> rfl

theorem readSinkByte_untouched {k : CountWord} {s t : State} (h : readSinkByte k s = .next t) : EngineUntouched s t := by
  unfold readSinkByte at h
  split_ifs at h <;> obtain rfl := Host.Outcome.next.inj h <;> rfl

/-- Every move of the host that completes leaves the engine as it is, or the invariant and no COMPRESS past INIT (R177). -/
theorem hostMove_leavesEngine {mv : HostMove} {s t : State} (hi : EngineInv s) (h : hostMove mv s = .next t) :
    LeavesEngine s t := by
  cases mv with
  | writeCfgWindow v => exact Host.Outcome.next.inj h ▸ writeUnlessBusy_leavesEngine hi _ fun _ => rfl
  | writeCfgHashBits v => exact Host.Outcome.next.inj h ▸ writeHashBits_leavesEngine hi v
  | writeCmd v => exact Host.Outcome.next.inj h ▸ writeUnlessBusy_leavesEngine hi _ fun _ => rfl
  | writeArgLen v => exact Host.Outcome.next.inj h ▸ writeUnlessBusy_leavesEngine hi _ fun _ => rfl
  | writeArgSeed v => exact Host.Outcome.next.inj h ▸ writeUnlessBusy_leavesEngine hi _ fun _ => rfl
  | writeArgOutCap v => exact Host.Outcome.next.inj h ▸ writeUnlessBusy_leavesEngine hi _ fun _ => rfl
  | placeInput p bs => exact placeInput_leavesEngine hi h
  | start => exact Host.Outcome.next.inj h ▸ startCommand_leavesEngine hi
  | readStatus => exact .inl (Host.Outcome.next.inj h ▸ rfl)
  | readCfgWindow => exact .inl (readConfig_untouched h)
  | readCfgHashBits => exact .inl (readConfig_untouched h)
  | readResultLen => exact .inl (readResult_untouched h)
  | readResultChk => exact .inl (readResult_untouched h)
  | readExcCode => exact .inl (readResult_untouched h)
  | readExcInfo => exact .inl (readResult_untouched h)
  | readFrame => exact .inl (readFrame_untouched h)
  | readSinkByte k => exact .inl (readSinkByte_untouched h)
  | reset =>
    obtain rfl := Host.Outcome.next.inj h
    exact .inr ⟨resetEngine_engineInv hi.params_legal hi.input_wf, resetEngine_not_afterInit s⟩
  | giveFrame bs => exact .inl (Host.Outcome.next.inj h ▸ rfl)

/-! ### The reader's turn -/

theorem readHeader_untouched {s t : State} (h : readHeader s = .next t) : EngineUntouched s t := by
  unfold readHeader at h
  simp only at h
  split_ifs at h
  obtain rfl := Host.Outcome.next.inj h
  rfl

theorem readToken_untouched {s t : State} (h : readToken s = .next t) : EngineUntouched s t := by
  unfold readToken at h
  split at h
  · cases h
  · cases h
  · split_ifs at h
    obtain ⟨added, -, rfl⟩ | ⟨-, -, rfl⟩ := exec_eq_next h <;> rfl

/-- The reader is no part of the engine (R6). -/
theorem readerTurn_untouched {s t : State} (h : readerTurn s = .next t) : EngineUntouched s t := by
  unfold readerTurn at h
  split at h
  · exact Host.Outcome.next.inj h ▸ rfl
  · exact readHeader_untouched h
  · exact readToken_untouched h
  · exact Host.Outcome.next.inj h ▸ rfl

/-! ### Every step -/

/-- What a step can do: the engine's step, on the machine as it is but for the agenda, or a turn that leaves the engine (R15). -/
theorem step_cases {s t : State} (hi : EngineInv s) (h : step s = .next t) :
    t = engineStep (dropTurn s) ∨ LeavesEngine s t := by
  have hdrop := hi.of_untouched (dropTurn_untouched s)
  have outside (hl : LeavesEngine (dropTurn s) t) : LeavesEngine s t := hl.imp_left (dropTurn_untouched s).trans
  cases hturn : nextTurn s with
  | engine => exact .inl (Host.Outcome.next.inj (h.symm.trans (step_of_engine hturn)))
  | host mv => exact .inr (outside (hostMove_leavesEngine hdrop ((step_of_host hturn).symm.trans h)))
  | reader => exact .inr (outside (.inl (readerTurn_untouched ((step_of_reader hturn).symm.trans h))))

/-- Settles O53: the engine's step keeps the invariant, and so does a turn that leaves the engine. -/
theorem engineInvKept : Obligations.EngineInvKept := by
  intro s t hi h
  obtain rfl | huntouched | ⟨hinv, -⟩ := step_cases hi h
  · exact engineStepWith_keeps_engineInv _ (hi.of_untouched (dropTurn_untouched s))
  · exact hi.of_untouched huntouched
  · exact hinv

/-- Settles O54: the engine's step extends the frame, and no other turn leaves a COMPRESS past INIT that it touched. -/
theorem frameInvKept : Obligations.FrameInvKept := by
  intro s t hi hframe h
  have hdrop := dropTurn_untouched s
  obtain rfl | huntouched | ⟨-, hafter⟩ := step_cases hi h
  · exact engineStepWith_keeps_frameInv _ (hi.of_untouched hdrop) (hframe.of_untouched hdrop)
  · exact hframe.of_untouched huntouched
  · exact frameInv_of_not_afterInit hafter

/-- Settles O55: the engine's step keeps the bound, and no other turn leaves a COMPRESS past INIT that it touched. -/
theorem sizeInvKept : Obligations.SizeInvKept := by
  intro s t hi hsize h
  have hdrop := dropTurn_untouched s
  obtain rfl | huntouched | ⟨-, hafter⟩ := step_cases hi h
  · exact engineStepWith_keeps_sizeInv _ (hi.of_untouched hdrop) (hsize.of_untouched hdrop)
  · exact hsize.of_untouched huntouched
  · exact sizeInv_of_not_afterInit hafter

end Sys2Proof.Machine
end

section
/-! The statements about *start*, about the steps that end a command, and about a command that does not fault (spec/45_commands.md
R133, R136 to R144). -/

namespace Sys2Proof.Machine

/-! ### Start -/

/-- During a command no result or exception register holds a value (R22, R23, R174). -/
theorem no_result_of_busy {s : State} (h : s.status = .busy) :
    s.resultLenValid = false ∧ s.resultChkValid = false ∧ s.excValid = false :=
  ⟨(resultLenValid_eq_false_iff s).2 (by simp [h]), (resultChkValid_eq_false_iff s).2 (by simp [h]),
    (excValid_eq_false_iff s).2 (by simp [h])⟩

/-- Settles O21: `startCommand_of_command` at either code, and a busy engine shows no result. -/
theorem startTakesCommand : Obligations.StartTakesCommand := by
  intro s hb c ph hcommand
  have hcode : Command.ofCode s.cmd = some c ∧ c.firstPhase = ph := by
    obtain ⟨hcmd, rfl, rfl⟩ | ⟨hcmd, rfl, rfl⟩ := hcommand <;> rw [hcmd] <;> decide
  obtain ⟨hc, rfl⟩ := hcode
  exact ⟨_, congrArg Host.Outcome.next (startCommand_of_command hb hc), rfl, no_result_of_busy rfl⟩

/-! ### FLUSH, DONE and SUM -/

/-- Settles O47: `flush_cases`, whose overflow the room excludes; the checksum goes on from the cursor to the end. -/
theorem flushTakesTheTail : Obligations.FlushTakesTheTail := by
  refine ⟨fun s hs htail => engineStep_of_scan_tail hs htail, ?_⟩
  intro s hi hs tail added hroom
  have hc := hi.cursor (.inr (.inl hs))
  obtain ⟨u, hgo, hu, hck, -⟩ | ⟨e, u, -, -, -, hfull⟩ := flush_cases s hc
  · refine ⟨u, by rw [engineStep, engineStepWith_of_flush _ hs, hgo]; rfl, hu, ?_⟩
    rw [hck, hc.checksum_advance hi.params_legal, Nat.add_sub_cancel' hc.q_le]
  · exact absurd hroom (Nat.not_le.2 hfull)

/-- `RESULT_LEN` is exact, for the capacity is below 2^33 (R43, R140). -/
theorem doneStep_resultLen_toNat {s : State} (h : s.out.length ≤ s.argOutCap.toNat) :
    (doneStep s).resultLen.toNat = s.out.length := by
  have := s.argOutCap.isLt
  rw [doneStep_resultLen, State.outLen, BitVec.toNat_ofNat, Nat.mod_eq_of_lt (by omega)]

/-- After DONE the whole output is defined to the host (R170, R173). -/
theorem doneStep_definedSink {s : State} (hcmd : s.lastCmd = some .compress) (h : s.out.length ≤ s.argOutCap.toNat) :
    (doneStep s).definedSink = s.out := by
  rw [definedSink_of_frame (s := doneStep s) ((frameValid_iff _).2 ⟨rfl, hcmd⟩), doneStep_resultLen_toNat h]
  exact List.take_length

/-- Settles O49: `doneStep` as it is written, with a length that the capacity keeps exact. -/
theorem doneStepDelivers : Obligations.DoneStep := by
  intro s hi hs
  have hafter : s.afterInit := .inr (.inr (.inr hs))
  have hcap := (hi.cursor hafter).out_le
  exact ⟨doneStep s, engineStepWith_of_done _ hs, rfl, doneStep_resultLen_toNat hcap,
    doneStep_definedSink (hi.command (.inr hafter)) hcap⟩

/-- The SUM step as one state update (R143). -/
theorem engineStepWith_of_sum_eq (hf : HashFn) {s : State} (hs : s.phase = .sum) :
    engineStepWith hf s =
      { s with
        w := Work.free s.fresh, resultChk := checksum s.params s.argSeed (inputBytes s 0 s.inLen.toNat), phase := .idle,
        status := .doneOk, fresh := s.fresh + 1 } := by
  rw [engineStepWith_of_sum hf hs, sum_ok]
  rfl

/-- Settles O50: the step is one update, no byte leaves the seed, and a CHECKSUM that completed shows no length. -/
theorem sumStepResult : Obligations.SumStep := by
  intro s hi hs
  refine ⟨_, engineStepWith_of_sum_eq _ hs, rfl, rfl, fun h0 => ?_, readResult_of_not_valid ?_⟩
  · simp only [h0]
    exact checksum_nil s.params s.argSeed
  · exact (resultLenValid_eq_false_iff _).2 (by simp [hi.command_sum hs])

/-! ### No fault within the bound -/

/-- INIT that goes on leaves the fault mark (R156). -/
theorem initStep_faultMark {draw : Bool} {s u : State} (h : initStep draw s = .go u) : u.faultMark = s.faultMark := by
  obtain ⟨e, u', hraised, -⟩ | ⟨hgo, -⟩ | ⟨hgo, -⟩ := init_cases draw s
  · rw [hraised] at h
    cases h
  · rw [← Ran.go.inj (hgo.symm.trans h), enterResourceFailure_faultMark]
  · rw [← Ran.go.inj (hgo.symm.trans h), initCommand_faultMark]

/-- SCAN that goes on leaves the fault mark (R156). -/
theorem scanStepWith_faultMark (hf : HashFn) {s u : State} (hi : EngineInv s) (hs : s.phase = .scan)
    (h : scanStepWith hf s = .go u) : u.faultMark = s.faultMark := by
  by_cases hscan : s.atScanPosition = true
  · obtain ⟨t, -, hfinder, -, -, -, -, hend⟩ :=
      scan_cases hf s hi.params_legal hscan (hi.cursor (.inl hs)) hi.table_rising
    have hmark : t.faultMark = s.faultMark := by rw [hfinder]
    obtain ⟨u', hgo, hu, -⟩ | ⟨cls, -, -, ⟨u', hgo, hu, -⟩ | ⟨e, u', hraised, -⟩⟩ := hend
    · rw [Ran.go.inj (h.symm.trans hgo), hu, hmark]
    · rw [Ran.go.inj (h.symm.trans hgo), hu, hmark]
    · rw [hraised] at h
      cases h
  · rw [scan_ends hf s hscan] at h
    rw [← Ran.go.inj h]

/-- FLUSH that goes on leaves the fault mark (R156). -/
theorem flushStep_faultMark {s u : State} (hi : EngineInv s) (hs : s.phase = .flush) (h : flushStep s = .go u) :
    u.faultMark = s.faultMark := by
  obtain ⟨u', hgo, hu, -⟩ | ⟨e, u', hraised, -⟩ := flush_cases s (hi.cursor (.inr (.inl hs)))
  · rw [Ran.go.inj (h.symm.trans hgo), hu]
  · rw [hraised] at h
    cases h

/-- TRAILER that goes on leaves the fault mark (R156). -/
theorem trailerStep_faultMark {s u : State} (hi : EngineInv s) (hs : s.phase = .trailer) (h : trailerStep s = .go u) :
    u.faultMark = s.faultMark := by
  obtain ⟨hgo, -⟩ | ⟨e, u', hraised, -⟩ := trailer_cases s (hi.cursor (.inr (.inr (.inl hs)))).out_le
  · rw [← Ran.go.inj (hgo.symm.trans h)]
  · rw [hraised] at h
    cases h

/-- A COMPRESS that is not over shows no fault (R25, R146). -/
theorem EngineInv.not_fault_of_afterInit {s : State} (hi : EngineInv s) (h : s.afterInit) : s.status ≠ .fault := by
  rw [hi.busy_iff.2 (ne_idle_of_afterInit h)]
  decide

/-- Settles O56: in a sufficient sink each part of a step goes on, where only the status of a COMPRESS that is not over, or of a
command that ended without a fault, can be shown. -/
theorem noFaultWithinBound : Obligations.NoFaultWithinBound := by
  intro s hi hsize hw hsink hidle
  have hinv : EngineInv (engineStep s) := engineStepWith_keeps_engineInv _ hi
  have goes {r : Ran} {u : State} (hstep : engineStep s = r.settle) (hgo : r = .go u) (hafter : u.afterInit)
      (hmark : u.faultMark = s.faultMark) : (engineStep s).status ≠ .fault ∧ (engineStep s).faultMark = s.faultMark := by
    rw [hgo] at hstep
    exact ⟨hinv.not_fault_of_afterInit (hstep ▸ hafter), hstep ▸ hmark⟩
  cases hs : s.phase with
  | idle => exact absurd hs hidle
  | init =>
    have hstep : engineStep s = (initStep (Config.allocFails s.fresh) s).settle := engineStepWith_of_init _ hs
    obtain ⟨u, hgo, hphase⟩ | ⟨-, hgo⟩ := initStep_goes_on (Config.allocFails s.fresh) hi.params_legal hw hsink
    · exact goes hstep hgo (.inl hphase) (initStep_faultMark hgo)
    · rw [hstep, hgo]
      exact ⟨by simp [Ran.settle], rfl⟩
  | scan =>
    obtain ⟨u, hgo, hafter⟩ := (scanStepWith_spells hashCascade hi hs).goes_on hi.params_legal (.inl hs) hsize hsink
    exact goes (engineStepWith_of_scan _ hs) hgo hafter (scanStepWith_faultMark _ hi hs hgo)
  | flush =>
    obtain ⟨u, hgo, hafter⟩ := (flushStep_spells hi hs).goes_on hi.params_legal (.inr hs) hsize hsink
    exact goes (engineStepWith_of_flush _ hs) hgo hafter (flushStep_faultMark hi hs hgo)
  | trailer =>
    obtain ⟨u, hgo, hphase⟩ := trailerStep_goes_on hi hs hsize hsink
    exact goes (engineStepWith_of_trailer _ hs) hgo (.inr (.inr (.inr hphase))) (trailerStep_faultMark hi hs hgo)
  | done =>
    rw [engineStep, engineStepWith_of_done _ hs]
    exact ⟨by simp, rfl⟩
  | sum =>
    rw [engineStep, engineStepWith_of_sum_eq _ hs]
    exact ⟨by simp, rfl⟩

end Sys2Proof.Machine
end

section
/-! SUPPORT. Two machines that run the same command: each step does the same to both, whatever earlier commands left
(spec/45_commands.md R133, R141, spec/70_reset_and_hazards.md R168). -/

namespace Sys2Proof.Machine

/-! ### Two machines after a step -/

/-- Two machines run the same command, and the host reads the same of both. -/
def SameOutcome (s t : State) : Prop := SameCommand s t ∧ SameResults s t

/-- What a COMPRESS carries from step to step is the same of two machines. -/
def SameCarried (s t : State) : Prop :=
  s.w.q = t.w.q ∧ s.w.litStart = t.w.litStart ∧ s.w.table = t.w.table ∧ s.w.s1 = t.w.s1 ∧ s.w.s2 = t.w.s2 ∧
  s.w.ckpos = t.w.ckpos ∧ s.out = t.out

/-- What no step writes stays the same of both, so that the rest is for the step to show. -/
theorem SameCommand.of_frames {s t u v : State} (h : SameCommand s t) (hu : EngineFrame s u) (hv : EngineFrame t v)
    (hphase : u.phase = v.phase) (hstatus : u.status = v.status) (hlater : u.phase = .idle ∨ u.afterInit)
    (hcarried : u.afterInit → SameCarried u v) : SameCommand u v where
  params := by rw [hu, hv]; exact h.params
  cfgWindow := by rw [hu, hv]; exact h.cfgWindow
  cfgHashBits := by rw [hu, hv]; exact h.cfgHashBits
  argSeed := fun hsum => by simp [State.afterInit, hsum] at hlater
  argOutCap := by rw [hu, hv]; exact h.argOutCap
  inLen := by rw [hu, hv]; exact h.inLen
  input := by rw [hu, hv]; exact h.input
  phase := hphase
  status := hstatus
  lastCmd := by rw [hu, hv]; exact h.lastCmd
  draw := fun hinit => by simp [State.afterInit, hinit] at hlater
  carried := hcarried

/-- A step that ends the command on both machines: nothing is carried on. -/
theorem SameCommand.of_idle {s t u v : State} (h : SameCommand s t) (hu : EngineFrame s u) (hv : EngineFrame t v)
    (hup : u.phase = .idle) (hvp : v.phase = .idle) (hstatus : u.status = v.status) : SameCommand u v :=
  h.of_frames hu hv (hup.trans hvp.symm) hstatus (.inl hup) fun hafter => absurd hup (ne_idle_of_afterInit hafter)

/-- During a command the host can read nothing but `STATUS`. -/
theorem sameResults_of_busy {s t : State} (hs : s.status = .busy) (ht : t.status = .busy) : SameResults s t := by
  obtain ⟨hlen, hchk, hexc⟩ := no_result_of_busy hs
  have nothing {u : State} (hu : u.status = .busy) : u.definedSink = [] :=
    definedSink_of_neither (by simp [State.frameValid, hu]) (by simp [hu])
  exact ⟨hs.trans ht.symm, by simp [hlen], by simp [hchk], by simp [hexc], (nothing hs).trans (nothing ht).symm⟩

/-- After the same fault the host reads the same, if the output is where it counts (R151, R173). -/
theorem sameResults_of_fault {e : Exc} {s t : State} (hout : e.code = 0x02#8 → s.out = t.out) :
    SameResults (enterFault e s) (enterFault e t) where
  status := rfl
  resultLen := by simp [enterFault_resultLenValid]
  resultChk := by simp [enterFault_resultChkValid]
  exc := fun _ => ⟨rfl, rfl⟩
  sink := by
    by_cases he : e.code = 0x02#8
    · rw [definedSink_of_overflow (s := enterFault e s) rfl he, definedSink_of_overflow (s := enterFault e t) rfl he]
      exact congrArg (List.take e.info.toNat) (hout he)
    · have nothing (u : State) : (enterFault e u).definedSink = [] :=
        definedSink_of_neither (by simp [State.frameValid]) (fun h => he h.2)
      rw [nothing, nothing]

/-- After the resource-failure outcome no byte is defined and the registers that hold a value are fixed (R150). -/
theorem sameResults_of_resourceFailure (s t : State) :
    SameResults (enterResourceFailure s) (enterResourceFailure t) where
  status := rfl
  resultLen := fun _ => rfl
  resultChk := fun h => absurd ((resultChkValid_iff _).1 h) (by simp)
  exc := fun _ => ⟨rfl, rfl⟩
  sink := by
    have nothing (u : State) : (enterResourceFailure u).definedSink = [] :=
      definedSink_of_neither (by simp [State.frameValid]) (by simp)
    rw [nothing, nothing]

theorem sameOutcome_of_fault {e : Exc} {s t u v : State} (h : SameCommand s t) (hu : EngineFrame s u)
    (hv : EngineFrame t v) (hout : e.code = 0x02#8 → u.out = v.out) : SameOutcome (enterFault e u) (enterFault e v) :=
  ⟨h.of_idle (EngineFrame.trans hu rfl) (EngineFrame.trans hv rfl) rfl rfl rfl, sameResults_of_fault hout⟩

/-- The accumulator's value gives both its halves (R36). -/
theorem halves_eq_of_ck_eq {w w' : Work} (h : w.ck = w'.ck) : w.s1 = w'.s1 ∧ w.s2 = w'.s2 := by
  have hsplit := (splitSums_ck w).symm.trans ((congrArg splitSums h).trans (splitSums_ck w'))
  obtain ⟨h1, h2⟩ := Prod.mk.inj hsplit
  exact ⟨BitVec.eq_of_toNat_eq h1, BitVec.eq_of_toNat_eq h2⟩

/-! ### What a step of a COMPRESS is to do -/

/-- What a step of a COMPRESS is to do, as data: the bytes it appends and to what, and what it carries on if they fit. -/
structure Plan where
  /-- `ARG_OUT_CAP`, the bytes the sink takes. -/
  cap : CountWord
  /-- The output the step appends to. -/
  before : List Byte
  /-- The bytes the step appends. -/
  added : List Byte
  /-- The phase that comes next. -/
  phase : Phase
  q : Word
  litStart : Word
  ckpos : Word
  /-- The accumulator's value (R36). -/
  ck : Word
  table : Table

/-- The state after a plan that was carried out. -/
structure Plan.Done (p : Plan) (u : State) : Prop where
  fits : p.before.length + p.added.length ≤ p.cap.toNat
  out : u.out = p.before ++ p.added
  status : u.status = .busy
  phase : u.phase = p.phase
  q : u.w.q = p.q
  litStart : u.w.litStart = p.litStart
  ckpos : u.w.ckpos = p.ckpos
  ck : u.w.ck = p.ck
  table : u.w.table = p.table

/-- The sink has no room for what the plan appends (R151). -/
structure Plan.Overflows (p : Plan) (e : Exc) (u : State) : Prop where
  full : p.cap.toNat < p.before.length + p.added.length
  exc : e = .outputOverflow p.cap
  out : u.out = p.before ++ p.added.take (p.cap.toNat - p.before.length)

/-- A step follows the plan: it is carried out, or there is no room for it. -/
def Ran.Follows (p : Plan) : Ran → Prop
  | .go u => p.Done u
  | .raised e u => p.Overflows e u

theorem Plan.Done.sameCarried {p : Plan} {u v : State} (hu : p.Done u) (hv : p.Done v) : SameCarried u v := by
  obtain ⟨h1, h2⟩ := halves_eq_of_ck_eq (hu.ck.trans hv.ck.symm)
  exact ⟨hu.q.trans hv.q.symm, hu.litStart.trans hv.litStart.symm, hu.table.trans hv.table.symm, h1, h2,
    hu.ckpos.trans hv.ckpos.symm, hu.out.trans hv.out.symm⟩

/-- Steps that follow one plan have the same outcome: both have room for it or neither has. -/
theorem Ran.Follows.sameOutcome {p : Plan} {r r' : Ran} {s t : State} (hr : r.Follows p) (hr' : r'.Follows p)
    (h : SameCommand s t) (hs : r.Frames s) (ht : r'.Frames t)
    (hp : p.phase = .scan ∨ p.phase = .flush ∨ p.phase = .trailer ∨ p.phase = .done) :
    SameOutcome r.settle r'.settle := by
  cases r with
  | go u =>
    cases r' with
    | go v =>
      have hafter : u.afterInit := by rw [State.afterInit, hr.phase]; exact hp
      exact ⟨h.of_frames hs ht (hr.phase.trans hr'.phase.symm) (hr.status.trans hr'.status.symm) (.inr hafter)
        fun _ => hr.sameCarried hr', sameResults_of_busy hr.status hr'.status⟩
    | raised e v => exact absurd hr.fits (Nat.not_le.2 hr'.full)
  | raised e u =>
    cases r' with
    | go v => exact absurd hr'.fits (Nat.not_le.2 hr.full)
    | raised e' v =>
      obtain rfl : e = e' := hr.exc.trans hr'.exc.symm
      exact sameOutcome_of_fault h hs ht fun _ => hr.out.trans hr'.out.symm

theorem Overflowed.follows {p : Plan} {s u : State} {e : Exc} (h : Overflowed s p.added e u)
    (hcap : p.cap = s.argOutCap) (hbefore : p.before = s.out) : (Ran.raised e u).Follows p := by
  obtain ⟨he, hu, hfull⟩ := h
  exact ⟨by rw [hcap, hbefore]; exact hfull, by rw [hcap]; exact he, by rw [hcap, hbefore, hu]⟩

/-! ### The plans of the steps -/

/-- INIT (R135). -/
def initPlan (s : State) : Plan :=
  { cap := s.argOutCap, before := [], added := headerBytes s.params s.inLen s.cfgWindow, phase := .scan, q := 0#32,
    litStart := 0#32, ckpos := 0#32, ck := 1#32, table := [] }

/-- SCAN that takes a byte into the pending run (R102, R104). -/
def literalPlan (s : State) (table : Table) : Plan :=
  { cap := s.argOutCap, before := s.out, added := [], phase := .scan, q := s.w.q + 1#32, litStart := s.w.litStart,
    ckpos := s.w.q + 1#32, ck := checksum s.params s.w.ck (inputBytes s s.w.q.toNat 1), table := table }

/-- SCAN that takes a match (R103). -/
def matchPlan (s : State) (cls : MatchClass) (best : LenWord) (dist : Word) (table : Table) : Plan :=
  { cap := s.argOutCap, before := s.out, added := matchBytes s cls best.toNat dist.toNat, phase := .scan,
    q := s.w.q + best.setWidth 32, litStart := s.w.q + best.setWidth 32, ckpos := s.w.q + best.setWidth 32,
    ck := checksum s.params s.w.ck (inputBytes s s.w.q.toNat best.toNat), table := table }

/-- The class of the match the finder left, or none where it left nothing usable (R102, R104). -/
def usableClass (best : LenWord) (dist : Word) : Option MatchClass :=
  if best.toNat < 3 then none else route best.toNat dist.toNat

/-- SCAN at a scan position, by what the finder left there (R108). -/
def scanPlan (s : State) (best : LenWord) (dist : Word) (table : Table) : Plan :=
  match usableClass best dist with
  | none => literalPlan s table
  | some cls => matchPlan s cls best dist table

theorem scanPlan_of_literal {s : State} {best : LenWord} {dist : Word} (table : Table)
    (h : best.toNat < 3 ∨ route best.toNat dist.toNat = none) : scanPlan s best dist table = literalPlan s table := by
  have hclass : usableClass best dist = none := by
    unfold usableClass
    split_ifs with h3
    · rfl
    · exact h.resolve_left h3
  rw [scanPlan, hclass]

theorem scanPlan_of_match {s : State} {best : LenWord} {dist : Word} {cls : MatchClass} (table : Table)
    (h3 : 3 ≤ best.toNat) (h : route best.toNat dist.toNat = some cls) :
    scanPlan s best dist table = matchPlan s cls best dist table := by
  have hclass : usableClass best dist = some cls := by rw [usableClass, if_neg (by omega), h]
  rw [scanPlan, hclass]

/-- SCAN off the scan positions (R136). -/
def scanEndPlan (s : State) : Plan :=
  { cap := s.argOutCap, before := s.out, added := [], phase := .flush, q := s.w.q, litStart := s.w.litStart,
    ckpos := s.w.ckpos, ck := s.w.ck, table := s.w.table }

/-- FLUSH (R138). -/
def flushPlan (s : State) : Plan :=
  { cap := s.argOutCap, before := s.out, added := tailBytes s, phase := .trailer, q := s.inLen, litStart := s.inLen,
    ckpos := s.inLen, ck := checksum s.params s.w.ck (inputBytes s s.w.q.toNat (s.inLen.toNat - s.w.q.toNat)),
    table := s.w.table }

/-- TRAILER (R139). -/
def trailerPlan (s : State) : Plan :=
  { cap := s.argOutCap, before := s.out, added := encode s.params (.endFrame s.w.ck), phase := .done, q := s.w.q,
    litStart := s.w.litStart, ckpos := s.w.ckpos, ck := s.w.ck, table := s.w.table }

/-- INIT follows its plan, where it ends in neither `BadConfig` nor the resource failure (R155). -/
theorem initStep_follows {s : State} {draw : Bool} (hi : EngineInv s) (hs : s.phase = .init) (hw : s.windowFits)
    (hdraw : (s.params.allocMayFail && draw) = false) : (initStep draw s).Follows (initPlan s) := by
  have hbusy : s.status = .busy := hi.busy_iff.2 (by simp [hs])
  obtain ⟨e, u, h, ⟨-, -, hbad⟩ | hover⟩ | ⟨-, hfail⟩ | ⟨h, hroom, -⟩ := init_cases draw s
  · exact absurd hbad (not_badConfig_of_windowFits hw)
  · rw [h]
    exact Overflowed.follows (p := initPlan s) hover rfl rfl
  · simp [hdraw] at hfail
  · rw [h]
    exact
      { fits := by simpa [initPlan, headerBytes_length] using hroom
        out := rfl
        status := hbusy
        phase := rfl
        q := rfl
        litStart := rfl
        ckpos := rfl
        ck := initCommand_ck s
        table := rfl }

/-- FLUSH follows its plan. -/
theorem flushStep_follows {s : State} (hi : EngineInv s) (hs : s.phase = .flush) : (flushStep s).Follows (flushPlan s) := by
  have hbusy : s.status = .busy := hi.busy_iff.2 (by simp [hs])
  obtain ⟨u, h, hu, hck, hout⟩ | ⟨e, u, h, hover⟩ := flush_cases s (hi.cursor (.inr (.inl hs)))
  · rw [h]
    have hadded : u.out = s.out ++ tailBytes s := by rw [hu]
    exact
      { fits := by rw [hadded, List.length_append] at hout; exact hout
        out := hadded
        status := by rw [hu]; exact hbusy
        phase := by rw [hu]; rfl
        q := by rw [hu]; rfl
        litStart := by rw [hu]; rfl
        ckpos := by rw [hu]; rfl
        ck := hck
        table := by rw [hu]; rfl }
  · rw [h]
    exact hover.follows (p := flushPlan s) rfl rfl

/-- TRAILER follows its plan. -/
theorem trailerStep_follows {s : State} (hi : EngineInv s) (hs : s.phase = .trailer) :
    (trailerStep s).Follows (trailerPlan s) := by
  have hbusy : s.status = .busy := hi.busy_iff.2 (by simp [hs])
  obtain ⟨h, hroom⟩ | ⟨e, u, h, hover⟩ := trailer_cases s (hi.cursor (.inr (.inr (.inl hs)))).out_le
  · rw [h]
    exact ⟨hroom, rfl, hbusy, rfl, rfl, rfl, rfl, rfl, rfl⟩
  · rw [h]
    exact hover.follows (p := trailerPlan s) rfl rfl

/-- SCAN off the scan positions follows its plan. -/
theorem scanStepWith_follows_end (hf : HashFn) {s : State} (hi : EngineInv s) (hs : s.phase = .scan)
    (hscan : ¬ s.atScanPosition = true) : (scanStepWith hf s).Follows (scanEndPlan s) := by
  have hbusy : s.status = .busy := hi.busy_iff.2 (by simp [hs])
  have hcap := (hi.cursor (.inl hs)).out_le
  rw [scan_ends hf s hscan]
  exact ⟨hcap, by simp [scanEndPlan], hbusy, rfl, rfl, rfl, rfl, rfl, rfl⟩

/-- SCAN at a scan position follows the plan of what the finder leaves. -/
theorem scanStepWith_follows (hf : HashFn) {s : State} (hi : EngineInv s) (hs : s.phase = .scan)
    (hscan : s.atScanPosition = true) :
    ∃ t, matchFinder hf s = .go t ∧ (scanStepWith hf s).Follows (scanPlan s t.w.best t.w.dist t.w.table) := by
  have hbusy : s.status = .busy := hi.busy_iff.2 (by simp [hs])
  have hc := hi.cursor (.inl hs)
  obtain ⟨t, hfind, hfinder, -, -, -, -, hend⟩ := scan_cases hf s hi.params_legal hscan hc hi.table_rising
  have hphase : t.phase = .scan := by rw [hfinder]; exact hs
  have hstatus : t.status = .busy := by rw [hfinder]; exact hbusy
  have hout : t.out = s.out := by rw [hfinder]
  have hlit : t.w.litStart = s.w.litStart := by rw [hfinder]
  refine ⟨t, hfind, ?_⟩
  obtain ⟨u, h, hu, hck, hnone⟩ | ⟨cls, hroute, h3, ⟨u, h, hu, -, -, hck, hfits⟩ | ⟨e, u, h, hover⟩⟩ := hend
  · rw [h, scanPlan_of_literal _ hnone]
    exact
      { fits := hc.out_le
        out := by rw [hu]; simpa [literalPlan] using hout
        status := by rw [hu]; exact hstatus
        phase := by rw [hu]; exact hphase
        q := by rw [hu]; rfl
        litStart := by rw [hu]; exact hlit
        ckpos := by rw [hu]; rfl
        ck := hck
        table := by rw [hu]; rfl }
  · rw [h, scanPlan_of_match _ h3 hroute]
    have hadded : u.out = s.out ++ matchBytes s cls t.w.best.toNat t.w.dist.toNat := by rw [hu]
    exact
      { fits := by rw [hadded, List.length_append] at hfits; exact hfits
        out := hadded
        status := by rw [hu]; exact hstatus
        phase := by rw [hu]; exact hphase
        q := by rw [hu]; rfl
        litStart := by rw [hu]; rfl
        ckpos := by rw [hu]; rfl
        ck := hck
        table := by rw [hu]; rfl }
  · rw [h, scanPlan_of_match _ h3 hroute]
    exact hover.follows (p := matchPlan s cls t.w.best t.w.dist t.w.table) rfl rfl

/-! ### The plans are the same of both machines -/

section
variable {s t : State} (h : SameCommand s t)
include h

theorem SameCommand.memRead_eq (a : Nat) : memRead s a = memRead t a := memRead_congr h.inLen h.input a

theorem SameCommand.inputBytes_eq {p n : Nat} (hle : p + n ≤ s.inLen.toNat) : inputBytes s p n = inputBytes t p n :=
  inputBytes_congr_of_lt h.input p n hle

theorem SameCommand.ck_eq (hafter : s.afterInit) : s.w.ck = t.w.ck := by
  obtain ⟨-, -, -, hs1, hs2, -⟩ := h.carried hafter
  rw [Work.ck, Work.ck, hs1, hs2]

theorem SameCommand.initPlan_eq : initPlan s = initPlan t := by
  rw [initPlan, initPlan, h.argOutCap, h.params, h.inLen, h.cfgWindow]

theorem SameCommand.trailerPlan_eq (hafter : s.afterInit) : trailerPlan s = trailerPlan t := by
  obtain ⟨hq, hlit, htable, -, -, hckpos, hout⟩ := h.carried hafter
  rw [trailerPlan, trailerPlan, h.argOutCap, h.params, h.ck_eq hafter, hq, hlit, htable, hckpos, hout]

theorem SameCommand.scanEndPlan_eq (hafter : s.afterInit) : scanEndPlan s = scanEndPlan t := by
  obtain ⟨hq, hlit, htable, -, -, hckpos, hout⟩ := h.carried hafter
  rw [scanEndPlan, scanEndPlan, h.argOutCap, h.ck_eq hafter, hq, hlit, htable, hckpos, hout]

theorem SameCommand.flushPlan_eq (hafter : s.afterInit) (hc : CursorInv s) : flushPlan s = flushPlan t := by
  obtain ⟨hq, hlit, htable, -, -, -, hout⟩ := h.carried hafter
  have hq_le := hc.q_le
  have hlit_le := hc.lit_le
  rw [flushPlan, tailBytes, h.inputBytes_eq (by omega), h.inputBytes_eq (by omega), h.argOutCap, h.params, h.inLen,
    h.ck_eq hafter, hq, hlit, htable, hout]
  rfl

theorem SameCommand.literalPlan_eq (hafter : s.afterInit) (hroom : s.w.q.toNat + 1 ≤ s.inLen.toNat) (table : Table) :
    literalPlan s table = literalPlan t table := by
  obtain ⟨hq, hlit, -, -, -, -, hout⟩ := h.carried hafter
  rw [literalPlan, h.inputBytes_eq hroom, h.argOutCap, h.params, h.ck_eq hafter, hq, hlit, hout]
  rfl

theorem SameCommand.matchPlan_eq (hafter : s.afterInit) (hc : CursorInv s) (cls : MatchClass) {best : LenWord}
    (hroom : s.w.q.toNat + best.toNat ≤ s.inLen.toNat) (dist : Word) (table : Table) :
    matchPlan s cls best dist table = matchPlan t cls best dist table := by
  obtain ⟨hq, hlit, -, -, -, -, hout⟩ := h.carried hafter
  have hq_le := hc.q_le
  have hlit_le := hc.lit_le
  rw [matchPlan, matchBytes, h.inputBytes_eq hroom, h.inputBytes_eq (by omega), h.argOutCap, h.params, h.ck_eq hafter, hq,
    hlit, hout]
  rfl

theorem SameCommand.scanPlan_eq (hafter : s.afterInit) (hc : CursorInv s) {best : LenWord}
    (hroom : s.w.q.toNat + 1 ≤ s.inLen.toNat) (hbest : 3 ≤ best.toNat → s.w.q.toNat + best.toNat ≤ s.inLen.toNat)
    (dist : Word) (table : Table) : scanPlan s best dist table = scanPlan t best dist table := by
  by_cases h3 : best.toNat < 3
  · rw [scanPlan_of_literal _ (.inl h3), scanPlan_of_literal _ (.inl h3), h.literalPlan_eq hafter hroom]
  cases hroute : route best.toNat dist.toNat with
  | none => rw [scanPlan_of_literal _ (.inr hroute), scanPlan_of_literal _ (.inr hroute), h.literalPlan_eq hafter hroom]
  | some cls =>
    have h3' : 3 ≤ best.toNat := Nat.le_of_not_lt h3
    rw [scanPlan_of_match _ h3' hroute, scanPlan_of_match _ h3' hroute, h.matchPlan_eq hafter hc cls (hbest h3')]

theorem SameCommand.atScanPosition_eq (hafter : s.afterInit) : s.atScanPosition = t.atScanPosition := by
  obtain ⟨hq, -⟩ := h.carried hafter
  rw [State.atScanPosition, State.atScanPosition, hq, h.params, h.inLen]

/-- The match finder leaves the same of both: the same hash of the same bytes, the one best candidate over the same indices, and
the same updates of the same table (R90, R94, R96). -/
theorem SameCommand.matchFinder_eq (hf : HashFn) (hp : s.params.Legal) (hafter : s.afterInit) (hc : CursorInv s)
    (hc' : CursorInv t) (hscan : s.atScanPosition = true) {u v : State} (hu : matchFinder hf s = .go u)
    (hv : matchFinder hf t = .go v) : u.w.best = v.w.best ∧ u.w.dist = v.w.dist ∧ u.w.table = v.w.table := by
  obtain ⟨hq, -, htable, -⟩ := h.carried hafter
  have hroom := (atScanPosition_iff s).1 hscan
  obtain ⟨u', hu', -, -, hmax, -, -, hutable, -, h1, h2, h3, h4, hbest⟩ := matchFinder_ok hf s hp hscan hc.table_lt
  obtain ⟨v', hv', -, -, hmax', -, -, hvtable, -, h1', h2', h3', h4', hbest'⟩ :=
    matchFinder_ok hf t (h.params ▸ hp) ((h.atScanPosition_eq hafter).symm.trans hscan) hc'.table_lt
  obtain rfl : u' = u := Ran.go.inj (hu'.symm.trans hu)
  obtain rfl : v' = v := Ran.go.inj (hv'.symm.trans hv)
  have hbytes : inputBytes t t.w.q.toNat t.params.lookahead = inputBytes s s.w.q.toNat s.params.lookahead := by
    rw [← hq, ← h.params, h.inputBytes_eq (by omega)]
  have hmatchMax : v'.w.matchMax.toNat = u'.w.matchMax.toNat := by rw [hmax, hmax', h.params, h.inLen, hq]
  rw [hbytes, ← h.cfgHashBits] at h1' h2' h3' h4' hbest'
  rw [hmatchMax, ← bestOf_congr h.memRead_eq htable hq h.cfgWindow] at hbest'
  obtain ⟨hb, hd⟩ := bestOf_unique hbest hbest'
  refine ⟨hb, hd, ?_⟩
  rw [hutable, hvtable, h1, h2, h3, h4, h1', h2', h3', h4', h.params, hq, htable]

end

/-- A usable match lies inside the input (R81, R93). -/
theorem best_le_of_matchFinder {hf : HashFn} {s u : State} (hp : s.params.Legal) (hc : CursorInv s)
    (hscan : s.atScanPosition = true) (hu : matchFinder hf s = .go u) (h3 : 3 ≤ u.w.best.toNat) :
    s.w.q.toNat + u.w.best.toNat ≤ s.inLen.toNat := by
  have hq := hc.q_le
  obtain ⟨u', hu', -, hcand, hmax, -⟩ := matchFinder_ok hf s hp hscan hc.table_lt
  obtain rfl : u' = u := Ran.go.inj (hu'.symm.trans hu)
  obtain ⟨hnone, -⟩ | ⟨-, hle, -⟩ := hcand
  · rw [hnone] at h3
    exact absurd h3 (by decide)
  · omega

/-! ### The steps -/

/-- INIT has the same outcome on both: the same fault, the same draw, or the same header (R155). -/
theorem initStep_sameOutcome {s t : State} (hi : EngineInv s) (hi' : EngineInv t) (h : SameCommand s t)
    (hs : s.phase = .init) (ht : t.phase = .init) :
    SameOutcome (initStep (Config.allocFails s.fresh) s).settle (initStep (Config.allocFails t.fresh) t).settle := by
  have hdraw : (s.params.allocMayFail && Config.allocFails s.fresh) = (t.params.allocMayFail && Config.allocFails t.fresh) := by
    rw [← h.params]
    cases hmay : s.params.allocMayFail with
    | false => rfl
    | true => rw [h.draw hs hmay]
  by_cases hw : s.windowFits
  · have hw' : t.windowFits := by
      rw [State.windowFits, ← h.params, ← h.cfgWindow]
      exact hw
    cases hfails : s.params.allocMayFail && Config.allocFails s.fresh with
    | false =>
      have hfollows := initStep_follows hi hs hw hfails
      have hfollows' := initStep_follows hi' ht hw' (hdraw.symm.trans hfails)
      rw [← h.initPlan_eq] at hfollows'
      exact hfollows.sameOutcome hfollows' h (initStep_frames _ s) (initStep_frames _ t) (.inl rfl)
    | true =>
      obtain ⟨hmay, hfail⟩ := Bool.and_eq_true_iff.1 hfails
      obtain ⟨hmay', hfail'⟩ := Bool.and_eq_true_iff.1 (hdraw.symm.trans hfails)
      rw [hfail, hfail', initStep_of_draw hw hmay, initStep_of_draw hw' hmay']
      exact ⟨h.of_idle rfl rfl rfl rfl rfl, sameResults_of_resourceFailure s t⟩
  · simp only [State.windowFits, not_or, not_lt] at hw
    obtain ⟨hthree, hbig⟩ := hw
    have hthree : s.params.winField = .three := by
      cases hf : s.params.winField
      · exact absurd hf hthree
      · rfl
    rw [initStep_of_badConfig _ hthree hbig, initStep_of_badConfig _ (h.params ▸ hthree) (h.cfgWindow ▸ hbig), ← h.cfgWindow]
    exact sameOutcome_of_fault h rfl rfl fun hcode =>
      absurd hcode (show ¬ 0x03#8 = 0x02#8 by decide)

/-- SCAN has the same outcome on both. -/
theorem scanStepWith_sameOutcome (hf : HashFn) {s t : State} (hi : EngineInv s) (hi' : EngineInv t) (h : SameCommand s t)
    (hs : s.phase = .scan) (ht : t.phase = .scan) :
    SameOutcome (scanStepWith hf s).settle (scanStepWith hf t).settle := by
  have hafter : s.afterInit := .inl hs
  have hc := hi.cursor hafter
  have hposition := h.atScanPosition_eq hafter
  by_cases hscan : s.atScanPosition = true
  · have hroom := (atScanPosition_iff s).1 hscan
    obtain ⟨u, hu, hfollows⟩ := scanStepWith_follows hf hi hs hscan
    obtain ⟨v, hv, hfollows'⟩ := scanStepWith_follows hf hi' ht (hposition.symm.trans hscan)
    obtain ⟨hbest, hdist, htable⟩ :=
      h.matchFinder_eq hf hi.params_legal hafter hc (hi'.cursor (.inl ht)) hscan hu hv
    have hplan := h.scanPlan_eq hafter hc (by omega) (best_le_of_matchFinder hi.params_legal hc hscan hu) u.w.dist u.w.table
    rw [← hbest, ← hdist, ← htable, ← hplan] at hfollows'
    exact hfollows.sameOutcome hfollows' h (scanStepWith_frames hf s) (scanStepWith_frames hf t) (.inl (by
      unfold scanPlan
      split <;> rfl))
  · have hfollows := scanStepWith_follows_end hf hi hs hscan
    have hfollows' := scanStepWith_follows_end hf hi' ht (hposition ▸ hscan)
    rw [← h.scanEndPlan_eq hafter] at hfollows'
    exact hfollows.sameOutcome hfollows' h (scanStepWith_frames hf s) (scanStepWith_frames hf t) (.inr (.inl rfl))

/-- FLUSH has the same outcome on both. -/
theorem flushStep_sameOutcome {s t : State} (hi : EngineInv s) (hi' : EngineInv t) (h : SameCommand s t)
    (hs : s.phase = .flush) (ht : t.phase = .flush) : SameOutcome (flushStep s).settle (flushStep t).settle := by
  have hafter : s.afterInit := .inr (.inl hs)
  have hfollows' := flushStep_follows hi' ht
  rw [← h.flushPlan_eq hafter (hi.cursor hafter)] at hfollows'
  exact (flushStep_follows hi hs).sameOutcome hfollows' h (flushStep_frames s) (flushStep_frames t) (.inr (.inr (.inl rfl)))

/-- TRAILER has the same outcome on both. -/
theorem trailerStep_sameOutcome {s t : State} (hi : EngineInv s) (hi' : EngineInv t) (h : SameCommand s t)
    (hs : s.phase = .trailer) (ht : t.phase = .trailer) : SameOutcome (trailerStep s).settle (trailerStep t).settle := by
  have hfollows' := trailerStep_follows hi' ht
  rw [← h.trailerPlan_eq (.inr (.inr (.inl hs)))] at hfollows'
  exact (trailerStep_follows hi hs).sameOutcome hfollows' h (trailerStep_frames s) (trailerStep_frames t)
    (.inr (.inr (.inr rfl)))

/-- DONE delivers the same results of both: of the frame and its checksum alone (R140). -/
theorem doneStep_sameOutcome {s t : State} (hi : EngineInv s) (hi' : EngineInv t) (h : SameCommand s t)
    (hs : s.phase = .done) (ht : t.phase = .done) : SameOutcome (doneStep s) (doneStep t) := by
  have hafter : s.afterInit := .inr (.inr (.inr hs))
  have hafter' : t.afterInit := .inr (.inr (.inr ht))
  obtain ⟨-, -, -, -, -, -, hout⟩ := h.carried hafter
  refine ⟨h.of_idle rfl rfl rfl rfl rfl, rfl, fun _ => ?_, fun _ => h.ck_eq hafter, fun hexc => ?_, ?_⟩
  · rw [doneStep_resultLen, doneStep_resultLen, State.outLen, State.outLen, hout]
  · simp [excValid_iff] at hexc
  · rw [doneStep_definedSink (hi.command (.inr hafter)) (hi.cursor hafter).out_le,
      doneStep_definedSink (hi'.command (.inr hafter')) (hi'.cursor hafter').out_le, hout]

/-- SUM delivers the same checksum of both: of the input and the seed alone (R143). -/
theorem sum_sameOutcome (hf : HashFn) {s t : State} (hi : EngineInv s) (hi' : EngineInv t) (h : SameCommand s t)
    (hs : s.phase = .sum) (ht : t.phase = .sum) : SameOutcome (engineStepWith hf s) (engineStepWith hf t) := by
  rw [engineStepWith_of_sum_eq hf hs, engineStepWith_of_sum_eq hf ht]
  refine ⟨h.of_idle rfl rfl rfl rfl rfl, rfl, fun hlen => ?_, fun _ => ?_, fun hexc => ?_, ?_⟩
  · simp [resultLenValid_iff, hi.command_sum hs] at hlen
  · show checksum s.params s.argSeed (inputBytes s 0 s.inLen.toNat) = _
    rw [h.inputBytes_eq (Nat.le_of_eq (Nat.zero_add _)), h.params, h.argSeed hs, h.inLen]
  · simp [excValid_iff] at hexc
  · rw [definedSink_of_neither (by simp [State.frameValid, hi.command_sum hs]) (by simp),
      definedSink_of_neither (by simp [State.frameValid, hi'.command_sum ht]) (by simp)]

/-- Every step of a command has the same outcome on both machines, for every hash function. -/
theorem engineStepWith_sameOutcome (hf : HashFn) {s t : State} (hi : EngineInv s) (hi' : EngineInv t) (h : SameCommand s t)
    (hidle : s.phase ≠ .idle) : SameOutcome (engineStepWith hf s) (engineStepWith hf t) := by
  have ht {p : Phase} (hs : s.phase = p) : t.phase = p := h.phase.symm.trans hs
  cases hs : s.phase with
  | idle => exact absurd hs hidle
  | init =>
    rw [engineStepWith_of_init hf hs, engineStepWith_of_init hf (ht hs)]
    exact initStep_sameOutcome hi hi' h hs (ht hs)
  | scan =>
    rw [engineStepWith_of_scan hf hs, engineStepWith_of_scan hf (ht hs)]
    exact scanStepWith_sameOutcome hf hi hi' h hs (ht hs)
  | flush =>
    rw [engineStepWith_of_flush hf hs, engineStepWith_of_flush hf (ht hs)]
    exact flushStep_sameOutcome hi hi' h hs (ht hs)
  | trailer =>
    rw [engineStepWith_of_trailer hf hs, engineStepWith_of_trailer hf (ht hs)]
    exact trailerStep_sameOutcome hi hi' h hs (ht hs)
  | done =>
    rw [engineStepWith_of_done hf hs, engineStepWith_of_done hf (ht hs)]
    exact doneStep_sameOutcome hi hi' h hs (ht hs)
  | sum => exact sum_sameOutcome hf hi hi' h hs (ht hs)

/-! ### Start -/

/-- Settles O58: a start takes the same command on both machines, and each step then has the same outcome. -/
theorem commandsAreIndependent : Obligations.CommandsAreIndependent := by
  refine ⟨?_, fun hf s t hi hi' h hidle => engineStepWith_sameOutcome hf hi hi' h hidle⟩
  intro s t hb hb' hvalid hcmd hpar hwindow hbits hlen hcap hseed hinput
  obtain ⟨c, hc, hchecksum⟩ : ∃ c, Command.ofCode s.cmd = some c ∧ (c = .checksum → s.cmd = 2#8) := by
    obtain h | h := hvalid
    · exact ⟨.compress, by rw [h]; rfl, by simp⟩
    · exact ⟨.checksum, by rw [h]; rfl, fun _ => h⟩
  obtain ⟨hidle, hafter, -, hsum⟩ := firstPhase_begins c
  refine ⟨_, _, congrArg Host.Outcome.next (startCommand_of_command hb hc),
    congrArg Host.Outcome.next (startCommand_of_command hb' (hcmd ▸ hc)), hidle, fun hdraw => ?_⟩
  exact
    { params := hpar
      cfgWindow := hwindow
      cfgHashBits := hbits
      argSeed := fun hphase => hseed (hchecksum (hsum hphase))
      argOutCap := hcap
      inLen := hlen
      input := hinput
      phase := rfl
      status := rfl
      lastCmd := rfl
      draw := hdraw
      carried := fun h => absurd h hafter }

end Sys2Proof.Machine
end

section
/-! SUPPORT. What a refused host action leaves, and the codes of `STATUS` and `CMD` (spec/60_exceptions.md R149, R154). -/

namespace Sys2Proof.Machine

/-! ### Refused host actions -/

/-- A refusal keeps the mark there is, and sets it where there is none. -/
theorem refuse_refusedMark (why : HostRefusal) (s : State) :
    (refuse why s).refusedMark = some (s.refusedMark.getD why) := by
  show (s.refusedMark.orElse fun _ => some why) = _
  cases s.refusedMark <;> rfl

theorem next_refuse (why : HostRefusal) (s : State) : .next (refuse why s) = refusedWith why s := by
  rw [refusedWith, ← refuse_refusedMark]
  rfl

theorem writeUnlessBusy_of_busy {why : HostRefusal} {s : State} (write : State → State) (h : s.status = .busy) :
    .next (writeUnlessBusy why s write) = refusedWith why s := by
  rw [writeUnlessBusy, if_pos h, next_refuse]

theorem writeHashBits_of_busy {s : State} (v : BitVec 6) (h : s.status = .busy) :
    .next (writeHashBits v s) = refusedWith .configWriteWhileBusy s := by
  rw [writeHashBits, if_pos h, next_refuse]

theorem writeHashBits_of_above_max {s : State} {v : BitVec 6} (h : s.status ≠ .busy) (hv : Config.hashBitsMax < v.toNat) :
    .next (writeHashBits v s) = refusedWith .hashBitsAboveMax s := by
  rw [writeHashBits, if_neg h, if_pos hv, next_refuse]

theorem startCommand_of_busy {s : State} (h : s.status = .busy) :
    .next (startCommand s) = refusedWith .startWhileBusy s := by
  rw [startCommand, if_pos h, next_refuse]

theorem startCommand_of_unknown {s : State} (h : s.status ≠ .busy) (hc : Command.ofCode s.cmd = none) :
    .next (startCommand s) = refusedWith .unknownCommand s := by
  rw [startCommand, if_neg h, hc, next_refuse]

/-! ### Codes -/

theorem ofCode_eq_compress_iff (v : Byte) : Command.ofCode v = some .compress ↔ v = 1#8 := by
  unfold Command.ofCode
  split_ifs with h1
  · exact iff_of_true rfl h1
  · simp [h1]
  · simp [h1]

theorem ofCode_eq_checksum_iff (v : Byte) : Command.ofCode v = some .checksum ↔ v = 2#8 := by
  unfold Command.ofCode
  split_ifs with h1 h2
  · simp [h1]
  · exact iff_of_true rfl h2
  · exact iff_of_false (by simp) h2

theorem ofCode_of_unknown {v : Byte} (h1 : v ≠ 1#8) (h2 : v ≠ 2#8) : Command.ofCode v = none := by
  rw [Command.ofCode, if_neg h1, if_neg h2]

theorem Status.code_le (st : Status) : st.code.toNat ≤ 4 := by cases st <;> decide

theorem Status.code_injective : Function.Injective Status.code := by
  intro a b
  cases a <;> cases b <;> decide

/-! ### The statements -/

/-- Settles O22: each action takes the refusing branch of its move, and `next_refuse` says what that leaves. -/
theorem hostActionsRefused : Obligations.HostActionsRefused := fun _ =>
  ⟨startCommand_of_busy, fun h h1 h2 => startCommand_of_unknown h (ofCode_of_unknown h1 h2),
    fun h => ⟨fun _ => writeUnlessBusy_of_busy _ h, fun v => writeHashBits_of_busy v h⟩,
    fun h _ hv => writeHashBits_of_above_max h hv,
    fun h => ⟨fun _ => writeUnlessBusy_of_busy _ h, fun _ => writeUnlessBusy_of_busy _ h,
      fun _ => writeUnlessBusy_of_busy _ h, fun _ => writeUnlessBusy_of_busy _ h⟩⟩

/-- Settles O23: the codes of `STATUS` are at most 4 and differ, and `CMD` has two of its own. -/
theorem statusAndCommandCodes : Obligations.StatusAndCommandCodes := by
  refine ⟨fun s => ⟨s.status.code, rfl, s.status.code_le, ?_⟩, ofCode_eq_compress_iff, ofCode_eq_checksum_iff⟩
  have code (st : Status) : s.status = st ↔ s.status.code = st.code := Status.code_injective.eq_iff.symm
  exact ⟨code .idle, code .busy, code .doneOk, code .doneFail, code .fault⟩

end Sys2Proof.Machine
end

section
/-! SUPPORT. The marks of a run: only a refused host action and a fault of the engine write one, and neither replaces a mark
that is there (spec/60_exceptions.md R154, R156). -/

namespace Sys2Proof.Machine

/-- Both marks are as they were. -/
def SameMarks (s t : State) : Prop := t.refusedMark = s.refusedMark ∧ t.faultMark = s.faultMark

/-- Each mark that is set stays as it is. -/
structure KeepsMarks (s t : State) : Prop where
  refused : ∀ r, s.refusedMark = some r → t.refusedMark = some r
  fault : ∀ e, s.faultMark = some e → t.faultMark = some e

theorem SameMarks.keeps {s t : State} (h : SameMarks s t) : KeepsMarks s t :=
  ⟨fun _ hr => h.1.trans hr, fun _ he => h.2.trans he⟩

theorem refuse_keepsMarks (why : HostRefusal) (s : State) : KeepsMarks s (refuse why s) :=
  ⟨fun r hr => by rw [refuse_refusedMark, hr]; rfl, fun _ he => he⟩

theorem KeepsMarks.unmarked {s t : State} (h : KeepsMarks s t) (ht : t.unmarked) : s.unmarked := by
  obtain ⟨hrefused, hfault⟩ := ht
  refine ⟨Option.eq_none_iff_forall_ne_some.2 fun r hr => ?_, Option.eq_none_iff_forall_ne_some.2 fun e he => ?_⟩
  · simp [h.refused r hr] at hrefused
  · simp [h.fault e he] at hfault

/-! ### The host's moves -/

/-- What a host move that completes does to the marks: it is refused, or it leaves both (R154). -/
def RefusedOrSameMarks (s t : State) : Prop := (∃ why, t = refuse why s) ∨ SameMarks s t

theorem RefusedOrSameMarks.keeps {s t : State} (h : RefusedOrSameMarks s t) : KeepsMarks s t := by
  obtain ⟨why, rfl⟩ | hsame := h
  · exact refuse_keepsMarks why s
  · exact hsame.keeps

theorem writeUnlessBusy_marks (why : HostRefusal) (s : State) {write : State → State} (h : SameMarks s (write s)) :
    RefusedOrSameMarks s (writeUnlessBusy why s write) := by
  unfold writeUnlessBusy
  split_ifs
  · exact .inl ⟨why, rfl⟩
  · exact .inr h

theorem writeHashBits_marks (v : BitVec 6) (s : State) : RefusedOrSameMarks s (writeHashBits v s) := by
  unfold writeHashBits
  split_ifs
  · exact .inl ⟨_, rfl⟩
  · exact .inl ⟨_, rfl⟩
  · exact .inr ⟨rfl, rfl⟩

theorem startCommand_marks (s : State) : RefusedOrSameMarks s (startCommand s) := by
  unfold startCommand
  split_ifs
  · exact .inl ⟨_, rfl⟩
  split
  · exact .inl ⟨_, rfl⟩
  · exact .inr ⟨rfl, rfl⟩

theorem placeInput_marks {p : Word} {bs : List Byte} {s t : State} (h : placeInput p bs s = .next t) : SameMarks s t := by
  unfold placeInput at h
  split_ifs at h
  obtain rfl := Host.Outcome.next.inj h
  exact ⟨rfl, rfl⟩

theorem readResult_marks {valid : Bool} {v : CountWord} {s t : State} (h : readResult valid v s = .next t) :
    SameMarks s t := by
  unfold readResult at h
  split_ifs at h
  obtain rfl := Host.Outcome.next.inj h
  exact ⟨rfl, rfl⟩

theorem readConfig_marks {v : CountWord} {s t : State} (h : readConfig v s = .next t) : SameMarks s t := by
  unfold readConfig at h
  split_ifs at h
  obtain rfl := Host.Outcome.next.inj h
  exact ⟨rfl, rfl⟩

theorem readFrame_marks {s t : State} (h : readFrame s = .next t) : SameMarks s t := by
  unfold readFrame at h
  split_ifs at h <;> obtain rfl := Host.Outcome.next.inj h <;> exact ⟨rfl, rfl⟩

theorem readSinkByte_marks {k : CountWord} {s t : State} (h : readSinkByte k s = .next t) : SameMarks s t := by
  unfold readSinkByte at h
  split_ifs at h <;> obtain rfl := Host.Outcome.next.inj h <;> exact ⟨rfl, rfl⟩

/-- Every move of the host that completes is refused or leaves both marks, reset among them (R154, log 7). -/
theorem hostMove_marks {mv : HostMove} {s t : State} (h : hostMove mv s = .next t) : RefusedOrSameMarks s t := by
  have write (why : HostRefusal) {f : State → State} (hf : SameMarks s (f s))
      (h : Host.Outcome.next (φ := Fault) (ρ := Refusal) (writeUnlessBusy why s f) = .next t) : RefusedOrSameMarks s t :=
    Host.Outcome.next.inj h ▸ writeUnlessBusy_marks why s hf
  cases mv with
  | writeCfgWindow v => exact write _ ⟨rfl, rfl⟩ h
  | writeCfgHashBits v => exact Host.Outcome.next.inj h ▸ writeHashBits_marks v s
  | writeCmd v => exact write _ ⟨rfl, rfl⟩ h
  | writeArgLen v => exact write _ ⟨rfl, rfl⟩ h
  | writeArgSeed v => exact write _ ⟨rfl, rfl⟩ h
  | writeArgOutCap v => exact write _ ⟨rfl, rfl⟩ h
  | placeInput p bs => exact .inr (placeInput_marks h)
  | start => exact Host.Outcome.next.inj h ▸ startCommand_marks s
  | readStatus => exact .inr (Host.Outcome.next.inj h ▸ ⟨rfl, rfl⟩)
  | readCfgWindow => exact .inr (readConfig_marks h)
  | readCfgHashBits => exact .inr (readConfig_marks h)
  | readResultLen => exact .inr (readResult_marks h)
  | readResultChk => exact .inr (readResult_marks h)
  | readExcCode => exact .inr (readResult_marks h)
  | readExcInfo => exact .inr (readResult_marks h)
  | readFrame => exact .inr (readFrame_marks h)
  | readSinkByte k => exact .inr (readSinkByte_marks h)
  | reset => exact .inr (Host.Outcome.next.inj h ▸ ⟨rfl, rfl⟩)
  | giveFrame bs => exact .inr (Host.Outcome.next.inj h ▸ ⟨rfl, rfl⟩)

/-! ### The reader's turn -/

theorem readHeader_marks {s t : State} (h : readHeader s = .next t) : SameMarks s t := by
  unfold readHeader at h
  simp only at h
  split_ifs at h
  obtain rfl := Host.Outcome.next.inj h
  exact ⟨rfl, rfl⟩

theorem readToken_marks {s t : State} (h : readToken s = .next t) : SameMarks s t := by
  unfold readToken at h
  split at h
  · cases h
  · cases h
  · split_ifs at h
    obtain ⟨added, -, rfl⟩ | ⟨-, -, rfl⟩ := exec_eq_next h <;> exact ⟨rfl, rfl⟩

theorem readerTurn_marks {s t : State} (h : readerTurn s = .next t) : SameMarks s t := by
  unfold readerTurn at h
  split at h
  · exact Host.Outcome.next.inj h ▸ ⟨rfl, rfl⟩
  · exact readHeader_marks h
  · exact readToken_marks h
  · exact Host.Outcome.next.inj h ▸ ⟨rfl, rfl⟩

/-! ### The engine's step: no part of it writes the fault mark, only fault entry does (R156) -/

/-- The fault mark where a part of a step ends, raised or not. -/
def Ran.faultMark : Ran → Option Exc
  | .go s => s.faultMark
  | .raised _ s => s.faultMark

@[simp] theorem Ran.go_faultMark (s : State) : (Ran.go s).faultMark = s.faultMark := rfl

/-- Two parts of a step, of which the second leaves the mark wherever it starts. -/
@[simp] theorem Ran.andThen_faultMark {r : Ran} {f : State → Ran} (hf : ∀ t, (f t).faultMark = t.faultMark) :
    (r.andThen f).faultMark = r.faultMark := by
  cases r with
  | go t => exact hf t
  | raised e t => rfl

@[simp] theorem emitByte_faultMark (b : Byte) (s : State) : (emitByte b s).faultMark = s.faultMark := by
  unfold emitByte
  split_ifs <;> rfl

@[simp] theorem emitAll_faultMark (bs : List Byte) (s : State) : (emitAll bs s).faultMark = s.faultMark := by
  induction bs generalizing s with
  | nil => rfl
  | cons b bs ih => simp [emitAll, ih]

@[simp] theorem emit_faultMark (n v : Nat) (s : State) : (emit n v s).faultMark = s.faultMark := emitAll_faultMark _ s

@[simp] theorem emitBytes_faultMark (p n : Nat) (s : State) : (emitBytes p n s).faultMark = s.faultMark := by
  induction n generalizing p s with
  | zero => rfl
  | succ n ih =>
    unfold emitBytes
    split
    · rfl
    · simp [ih]

@[simp] theorem emitLiteralToken_faultMark (p n : Nat) (s : State) :
    (emitLiteralToken p n s).faultMark = s.faultMark := by
  unfold emitLiteralToken
  split_ifs <;> simp [emitSlit, emitMlit, emitLlit]

@[simp] theorem emitBlocks_faultMark (maxRun blocks p n : Nat) (s : State) :
    (emitBlocks maxRun blocks p n s).faultMark = s.faultMark := by
  induction blocks generalizing p n s with
  | zero => unfold emitBlocks; split_ifs <;> simp
  | succ blocks ih => simp [emitBlocks, ih]

@[simp] theorem emitLiterals_faultMark (p n : Nat) (s : State) : (emitLiterals p n s).faultMark = s.faultMark :=
  emitBlocks_faultMark _ _ p n s

@[simp] theorem emitMatch_faultMark (cls : MatchClass) (len dist : Nat) (s : State) :
    (emitMatch cls len dist s).faultMark = s.faultMark := by
  cases cls <;> simp [emitMatch, emitSmat, emitMmat, emitLmata, emitLmatb, emitXmat1, emitXmat2]

@[simp] theorem emitHeader_faultMark (s : State) : (emitHeader s).faultMark = s.faultMark := by simp [emitHeader]

@[simp] theorem emitEnd_faultMark (ck : Word) (s : State) : (emitEnd ck s).faultMark = s.faultMark := by simp [emitEnd]

@[simp] theorem fold_faultMark (p n : Nat) (s : State) : (fold p n s).faultMark = s.faultMark := by
  unfold fold
  split_ifs
  · rfl
  · split <;> rfl

@[simp] theorem foldToCursor_faultMark (s : State) : (foldToCursor s).faultMark = s.faultMark := fold_faultMark _ _ s

@[simp] theorem computeHashes_faultMark (hf : HashFn) (s : State) : (computeHashes hf s).faultMark = s.faultMark := by
  unfold computeHashes
  split <;> rfl

@[simp] theorem keepBest_faultMark (m : LenWord) (d : Word) (s : State) : (keepBest m d s).faultMark = s.faultMark := by
  unfold keepBest
  split_ifs <;> rfl

@[simp] theorem probe_faultMark (i : Word) (s : State) : (probe i s).faultMark = s.faultMark := by
  unfold probe
  split
  · rfl
  · split
    · rfl
    · simp

@[simp] theorem probes_faultMark (s : State) : (probes s).faultMark = s.faultMark := by simp [probes]

@[simp] theorem matchFinder_faultMark (hf : HashFn) (s : State) : (matchFinder hf s).faultMark = s.faultMark := by
  rw [matchFinder, Ran.andThen_faultMark fun _ => rfl, Ran.andThen_faultMark probes_faultMark, computeHashes_faultMark]
  rfl

@[simp] theorem takeMatch_faultMark (cls : MatchClass) (s : State) : (takeMatch cls s).faultMark = s.faultMark := by
  simp [takeMatch]

@[simp] theorem select_faultMark (s : State) : (select s).faultMark = s.faultMark := by
  unfold select
  split_ifs
  · rfl
  · split
    · exact takeMatch_faultMark _ s
    · rfl

theorem initStep_run_faultMark (draw : Bool) (s : State) : (initStep draw s).faultMark = s.faultMark := by
  unfold initStep
  split_ifs
  · rfl
  · rfl
  · rw [Ran.andThen_faultMark fun _ => rfl, emitHeader_faultMark]
    rfl

theorem scanStepWith_run_faultMark (hf : HashFn) (s : State) : (scanStepWith hf s).faultMark = s.faultMark := by
  unfold scanStepWith
  split_ifs
  · simp
  · rfl

theorem flushStep_run_faultMark (s : State) : (flushStep s).faultMark = s.faultMark := by
  rw [flushStep, Ran.andThen_faultMark fun _ => rfl, Ran.andThen_faultMark fun t => emitLiterals_faultMark _ _ t,
    foldToCursor_faultMark]

theorem trailerStep_run_faultMark (s : State) : (trailerStep s).faultMark = s.faultMark := by
  rw [trailerStep, Ran.andThen_faultMark fun _ => rfl, emitEnd_faultMark]

theorem sumStepCommand_run_faultMark (s : State) : (sumStepCommand s).faultMark = s.faultMark := by
  rw [sum_ok]
  rfl

/-- Fault entry keeps the mark there is (R156). -/
theorem settle_faultMark {r : Ran} {e : Exc} (h : r.faultMark = some e) : r.settle.faultMark = some e := by
  cases r with
  | go t => exact h
  | raised e' t =>
    have hmark : t.faultMark = some e := h
    show (t.faultMark.orElse fun _ => some e') = some e
    rw [hmark]
    rfl

/-- The engine's step keeps the marks, whatever the state and the hash function. -/
theorem engineStepWith_keepsMarks (hf : HashFn) (s : State) : KeepsMarks s (engineStepWith hf s) := by
  refine ⟨fun r hr => ?_, fun e he => ?_⟩
  · rw [engineStepWith_frame hf s]
    exact hr
  · cases hs : s.phase with
    | idle => rw [engineStepWith_of_idle hf hs, he]
    | init => rw [engineStepWith_of_init hf hs]; exact settle_faultMark ((initStep_run_faultMark _ s).trans he)
    | scan => rw [engineStepWith_of_scan hf hs]; exact settle_faultMark ((scanStepWith_run_faultMark hf s).trans he)
    | flush => rw [engineStepWith_of_flush hf hs]; exact settle_faultMark ((flushStep_run_faultMark s).trans he)
    | trailer => rw [engineStepWith_of_trailer hf hs]; exact settle_faultMark ((trailerStep_run_faultMark s).trans he)
    | done => rw [engineStepWith_of_done hf hs, doneStep_faultMark, he]
    | sum => rw [engineStepWith_of_sum hf hs]; exact settle_faultMark ((sumStepCommand_run_faultMark s).trans he)

/-! ### Every step -/

/-- Whoever acts, a step keeps the marks; taking the turn off the agenda touches neither. -/
theorem step_keepsMarks {s t : State} (h : step s = .next t) : KeepsMarks s t := by
  have of_drop (hk : KeepsMarks (dropTurn s) t) : KeepsMarks s t := ⟨hk.refused, hk.fault⟩
  cases hturn : nextTurn s with
  | engine =>
    obtain rfl := Host.Outcome.next.inj ((step_of_engine hturn).symm.trans h)
    exact of_drop (engineStepWith_keepsMarks hashCascade _)
  | host mv => exact of_drop (hostMove_marks ((step_of_host hturn).symm.trans h)).keeps
  | reader => exact of_drop (readerTurn_marks ((step_of_reader hturn).symm.trans h)).keeps

/-- Settles O25: `step_keepsMarks`, and a mark that is kept leaves the run marked. -/
theorem marksKept : Obligations.MarksKept := fun _ _ h =>
  have hk := step_keepsMarks h
  ⟨hk.unmarked, hk.refused, hk.fault⟩

end Sys2Proof.Machine
end

section
/-! SUPPORT. One engine step in two sinks: it follows one plan in both, so the output of the smaller is that of the larger, cut at
the capacity (spec/60_exceptions.md R151, R156). -/

namespace Sys2Proof.Machine

/-! ### The largest sink -/

/-- The largest capacity `ARG_OUT_CAP` can hold (R19). -/
def largestCap : CountWord := BitVec.ofNat 33 (2 ^ 33 - 1)

/-- The state with the largest sink. -/
def inLargestSink (s : State) : State := { s with argOutCap := largestCap }

/-- The plan in the largest sink. -/
def Plan.inLargestSink (p : Plan) : Plan := { p with cap := largestCap }

theorem le_largestCap (c : CountWord) : c.toNat ≤ largestCap.toNat := Nat.le_pred_of_lt c.isLt

/-- A larger sink holds what the smaller does. -/
theorem EngineInv.inLargestSink {s : State} (hi : EngineInv s) : EngineInv (inLargestSink s) where
  params_legal := hi.params_legal
  input_wf := hi.input_wf
  table_rising := hi.table_rising
  hash_bits_le := hi.hash_bits_le
  busy_iff := hi.busy_iff
  command := hi.command
  command_sum := hi.command_sum
  cursor := fun hafter =>
    have hc := hi.cursor hafter
    ⟨hc.lit_le, hc.q_le, hc.ckpos_eq, hc.ck_eq, hc.table_lt, hc.out_le.trans (le_largestCap _), hc.flush_tail, hc.at_end⟩

/-- The match finder leaves the same in every sink: it reads the input, the table and the window alone (R91, R94, R96). -/
theorem matchFinder_inLargestSink {hf : HashFn} {s u v : State} (hi : EngineInv s) (hs : s.phase = .scan)
    (hscan : s.atScanPosition = true) (hu : matchFinder hf s = .go u) (hv : matchFinder hf (inLargestSink s) = .go v) :
    u.w.best = v.w.best ∧ u.w.dist = v.w.dist ∧ u.w.table = v.w.table := by
  have hc := hi.cursor (.inl hs)
  obtain ⟨u', hu', -, -, hmax, -, -, htable, -, h1, h2, h3, h4, hbest⟩ :=
    matchFinder_ok hf s hi.params_legal hscan hc.table_lt
  obtain ⟨v', hv', -, -, hmax', -, -, htable', -, h1', h2', h3', h4', hbest'⟩ :=
    matchFinder_ok hf (inLargestSink s) hi.params_legal hscan hc.table_lt
  obtain rfl : u' = u := Ran.go.inj (hu'.symm.trans hu)
  obtain rfl : v' = v := Ran.go.inj (hv'.symm.trans hv)
  have hmatchMax : v'.w.matchMax.toNat = u'.w.matchMax.toNat := hmax'.trans hmax.symm
  rw [hmatchMax, bestOf_congr (s := inLargestSink s) (t := s) (fun _ => rfl) rfl rfl rfl] at hbest'
  obtain ⟨hb, hd⟩ := bestOf_unique hbest hbest'
  refine ⟨hb, hd, ?_⟩
  rw [htable, htable', h1, h2, h3, h4, h1', h2', h3', h4']
  rfl

/-! ### Steps that follow a plan -/

/-- The bytes of the plan go to the output as far as the sink takes them. -/
theorem Ran.Follows.out_eq {p : Plan} {r : Ran} (h : r.Follows p) (hbefore : p.before.length ≤ p.cap.toNat) :
    r.settle.out = (p.before ++ p.added).take p.cap.toNat := by
  cases r with
  | go u =>
    have hfits : (p.before ++ p.added).length ≤ p.cap.toNat := by rw [List.length_append]; exact h.fits
    rw [List.take_of_length_le hfits]
    exact h.out
  | raised e u =>
    rw [List.take_append, List.take_of_length_le hbefore]
    exact h.out

/-- The fault `OutputOverflow` of a sink of this capacity, where the state `v` has the output in the largest sink. -/
def PreciseFault (cap : CountWord) (u v : State) : Prop :=
  u.excCode = 0x02#8 ∧ u.excInfo = cap ∧ u.phase = .idle ∧ u.out = v.out.take cap.toNat

/-- A step that follows one plan in both sinks faults precisely, whether or not the largest has room for it. -/
theorem Ran.Follows.precise {p : Plan} {r r' : Ran} {s : State} (hr : r.Follows p) (hr' : r'.Follows p.inLargestSink)
    (hcap : p.cap = s.argOutCap) (hbefore : p.before.length ≤ s.argOutCap.toNat) (hfault : r.settle.status = .fault) :
    PreciseFault s.argOutCap r.settle r'.settle := by
  rw [← hcap] at hbefore ⊢
  have hout : r.settle.out = r'.settle.out.take p.cap.toNat := by
    rw [hr.out_eq hbefore, hr'.out_eq (hbefore.trans (le_largestCap _)), List.take_take,
      Nat.min_eq_left (show p.cap.toNat ≤ p.inLargestSink.cap.toNat from le_largestCap _)]
    rfl
  cases r with
  | go u => simp [Ran.settle, hr.status] at hfault
  | raised e u =>
    obtain rfl := hr.exc
    exact ⟨rfl, rfl, rfl, hout⟩

/-! ### The steps -/

theorem scanPlan_inLargestSink (s : State) (best : LenWord) (dist : Word) (table : Table) :
    scanPlan (inLargestSink s) best dist table = (scanPlan s best dist table).inLargestSink := by
  unfold scanPlan
  split <;> rfl

theorem scanPlan_sink (s : State) (best : LenWord) (dist : Word) (table : Table) :
    (scanPlan s best dist table).cap = s.argOutCap ∧ (scanPlan s best dist table).before = s.out := by
  unfold scanPlan
  split <;> exact ⟨rfl, rfl⟩

/-- INIT: the resource failure is no fault, else the header follows its plan (R155). -/
theorem initStep_precise {s : State} (draw : Bool) (hi : EngineInv s) (hs : s.phase = .init) (hw : s.windowFits)
    (hfault : (initStep draw s).settle.status = .fault) :
    PreciseFault s.argOutCap (initStep draw s).settle (initStep draw (inLargestSink s)).settle := by
  cases hdraw : s.params.allocMayFail && draw with
  | true =>
    obtain ⟨hmay, rfl⟩ := Bool.and_eq_true_iff.1 hdraw
    simp [initStep_of_draw hw hmay, Ran.settle] at hfault
  | false =>
    exact (initStep_follows hi hs hw hdraw).precise (initStep_follows (s := inLargestSink s) hi.inLargestSink hs hw hdraw)
      rfl (Nat.zero_le _) hfault

/-- SCAN: the finder leaves the same in both sinks, so the plan is one. -/
theorem scanStepWith_precise (hf : HashFn) {s : State} (hi : EngineInv s) (hs : s.phase = .scan)
    (hfault : (scanStepWith hf s).settle.status = .fault) :
    PreciseFault s.argOutCap (scanStepWith hf s).settle (scanStepWith hf (inLargestSink s)).settle := by
  have hout := (hi.cursor (.inl hs)).out_le
  by_cases hscan : s.atScanPosition = true
  · obtain ⟨u, hu, hfollows⟩ := scanStepWith_follows hf hi hs hscan
    obtain ⟨v, hv, hfollows'⟩ := scanStepWith_follows hf (s := inLargestSink s) hi.inLargestSink hs hscan
    obtain ⟨hbest, hdist, htable⟩ := matchFinder_inLargestSink hi hs hscan hu hv
    rw [← hbest, ← hdist, ← htable, scanPlan_inLargestSink] at hfollows'
    obtain ⟨hcap, hbefore⟩ := scanPlan_sink s u.w.best u.w.dist u.w.table
    exact hfollows.precise hfollows' hcap (hbefore ▸ hout) hfault
  · exact (scanStepWith_follows_end hf hi hs hscan).precise
      (scanStepWith_follows_end hf (s := inLargestSink s) hi.inLargestSink hs hscan) rfl hout hfault

/-- Every step that faults does so precisely, for every hash function. -/
theorem engineStepWith_precise (hf : HashFn) {s : State} (hi : EngineInv s) (hw : s.windowFits) (hidle : s.phase ≠ .idle)
    (hfault : (engineStepWith hf s).status = .fault) :
    PreciseFault s.argOutCap (engineStepWith hf s) (engineStepWith hf (inLargestSink s)) := by
  cases hs : s.phase with
  | idle => exact absurd hs hidle
  | init =>
    rw [engineStepWith_of_init hf hs] at hfault ⊢
    rw [engineStepWith_of_init hf (s := inLargestSink s) hs]
    exact initStep_precise _ hi hs hw hfault
  | scan =>
    rw [engineStepWith_of_scan hf hs] at hfault ⊢
    rw [engineStepWith_of_scan hf (s := inLargestSink s) hs]
    exact scanStepWith_precise hf hi hs hfault
  | flush =>
    rw [engineStepWith_of_flush hf hs] at hfault ⊢
    rw [engineStepWith_of_flush hf (s := inLargestSink s) hs]
    exact (flushStep_follows hi hs).precise (flushStep_follows (s := inLargestSink s) hi.inLargestSink hs) rfl
      (hi.cursor (.inr (.inl hs))).out_le hfault
  | trailer =>
    rw [engineStepWith_of_trailer hf hs] at hfault ⊢
    rw [engineStepWith_of_trailer hf (s := inLargestSink s) hs]
    exact (trailerStep_follows hi hs).precise (trailerStep_follows (s := inLargestSink s) hi.inLargestSink hs) rfl
      (hi.cursor (.inr (.inr (.inl hs)))).out_le hfault
  | done => simp [engineStepWith_of_done hf hs] at hfault
  | sum => simp [engineStepWith_of_sum_eq hf hs] at hfault

/-- Settles O51: `engineStepWith_precise`, for a step follows one plan in either sink. -/
theorem faultsArePrecise : Obligations.FaultsArePrecise :=
  fun _ hi hw hidle hfault => engineStepWith_precise hashCascade hi hw hidle hfault

end Sys2Proof.Machine
end

section
/-! SUPPORT. What an engine that shows no outcome holds, and that a machine with nothing to do stays as it is
(spec/10_state.md R22, R40, spec/70_reset_and_hazards.md R165 to R167). -/

namespace Sys2Proof.Machine

/-- Before an outcome no byte of the sink is defined, and no result or exception register holds a value (R22, R166). -/
theorem nothing_valid_of_idle {s : State} (h : s.status = .idle) :
    s.definedSink = [] ∧ s.resultLenValid = false ∧ s.resultChkValid = false ∧ s.excValid = false :=
  ⟨definedSink_of_neither (by simp [State.frameValid, h]) (by simp [h]),
    (resultLenValid_eq_false_iff s).2 (by simp [h]), (resultChkValid_eq_false_iff s).2 (by simp [h]),
    (excValid_eq_false_iff s).2 (by simp [h])⟩

/-- Where no turn is decided and no command is in progress, the reader acts. -/
theorem nextTurn_of_idle {s : State} (ha : s.agenda = []) (hp : s.phase = .idle) : nextTurn s = .reader := by
  simp [nextTurn, ha, hp]

/-- A reader without a frame has nothing to do. -/
theorem readerTurn_of_no_frame {s : State} (h : s.rd.phase = .none) : readerTurn s = .next s := by
  simp [readerTurn, h]

/-- With no turn decided, no command in progress and no frame at the reader, a step changes nothing. -/
theorem step_of_nothing_to_do {s : State} (ha : s.agenda = []) (hp : s.phase = .idle) (hr : s.rd.phase = .none) :
    step s = .next s := by
  rw [step_of_reader (nextTurn_of_idle ha hp), dropTurn_of_no_agenda ha, readerTurn_of_no_frame hr]

/-- Settles O19: the reset engine is idle, so nothing is valid and `engineRunWith_of_idle` keeps it; the rest is `resetEngine`'s
own record. -/
theorem resetAbandonsCommand : Obligations.ResetAbandonsCommand := by
  intro s
  obtain ⟨hsink, hlen, hchk, hexc⟩ := nothing_valid_of_idle (s := resetEngine s) rfl
  exact ⟨resetEngine s, rfl, rfl, rfl, rfl, rfl, hsink, hlen, hchk, hexc, rfl, rfl, rfl, rfl, rfl,
    fun n => engineRunWith_of_idle hashCascade n rfl⟩

/-- Settles O18: the reset machine has nothing to do, and each register read is decided by its validity. -/
theorem resetState : Obligations.ResetState := by
  obtain ⟨-, hlen, hchk, hexc⟩ := nothing_valid_of_idle (s := State.reset) rfl
  exact ⟨rfl, rfl, rfl, rfl, step_of_nothing_to_do rfl rfl rfl, readResult_of_not_valid hlen, readResult_of_not_valid hchk,
    readResult_of_not_valid hexc, readResult_of_not_valid hexc⟩

end Sys2Proof.Machine
end
